-- ==== Sys2Proof/Word.lean ====
section
/-! DEFINITION. The fixed widths of the block (`00_scope.md` rule R10): a bus datum is 8 bits, a bus
address 16 bits, a cycle count 32 bits. There is no other width at the port, nothing is signed, and
offsets and bank arithmetic are on natural numbers (rules R11, R105). -/

namespace Sys2Proof

/-- A bus datum, `u8` (rule R10). -/
abbrev Byte := BitVec 8

/-- A bus address, `u16` (rule R10). -/
abbrev Addr := BitVec 16

/-- The elapsed cycle count of `STEP` and `STEPT`, `u32` (rule R10). -/
abbrev Cycles := BitVec 32

/-- A transaction record of rule R90 written as one 40-bit word (the layout is the model's own,
DESIGN CHOICE, log entry 1). -/
abbrev RecordWord := BitVec 40

end Sys2Proof
end

