-- ==== Sys2Proof/Config.lean ====
section
/-! DEFINITION. The configuration of one block (rule R6), the names of the registers that share a
rule and of the external leaves, and the one free value of the model: what an external leaf answers
to a forwarded read (rule R210, U1). `Params` holds the named parameters of rules R7 to R9, arguments of
the model; their defaults are in `Machine/Params.lean`. -/

namespace Sys2Proof.Config

/-- The cartridge configuration of rule R6: constants of one block, fixed when it is built.
`ROM_SIZE` is `rom.length`, `BOOT_SIZE` the length of the boot ROM, `hasBootRom` its presence. -/
structure Cartridge where
  /-- `rom`, the cartridge ROM image. -/
  rom : List Byte
  /-- `ROM_BANKS`, number of 16 KiB ROM banks; no relation to `rom.length` is fixed (rule R6). -/
  romBanks : Nat
  /-- `RAM_BANKS`, number of 8 KiB external RAM banks; `0` allowed. -/
  ramBanks : Nat
  /-- `bootRom`, the boot ROM overlay; absence is a valid state (rules R6, R275). -/
  bootRom : Option (List Byte)
  deriving DecidableEq, Repr

/-- `hasBootRom` (rule R6). -/
def Cartridge.hasBootRom (c : Cartridge) : Bool := c.bootRom.isSome

/-- `BOOT_SIZE` (rule R6); `0` when there is no boot ROM. -/
def Cartridge.bootSize (c : Cartridge) : Nat := (c.bootRom.getD []).length

/-- The configuration with no ROM byte, no bank and no boot ROM. `State.reset` is built from it
because rule R6 leaves the configuration OPEN (DESIGN CHOICE, log entry 3). -/
def Cartridge.empty : Cartridge := ⟨[], 0, 0, none⟩

/-- The seven undocumented registers of rule R33, each named by its address. -/
inductive UndocReg where
  | ff6c | ff72 | ff73 | ff74 | ff75 | ff76 | ff77
  deriving DecidableEq, Repr

/-- `HDMA1` to `HDMA4`, the index `n` of rule R126. -/
inductive HdmaReg where
  | hdma1 | hdma2 | hdma3 | hdma4
  deriving DecidableEq, Repr

/-- The thirteen registers whose addresses rule R8 makes parameters. -/
inductive CgbReg where
  | speed | infrared | bgpi | obpi | hdma5
  | wramSel | vramSel
  | bgpd | obpd
  | hdma1 | hdma2 | hdma3 | hdma4
  deriving DecidableEq, Repr

/-- The named parameters of rules R7, R8 and R9: arguments of the model (`92_eei_decisions.md`, "Open
parameters, collected"). `InitMem`, the one of rule R7 without a default, is an argument of
`State.resetOf`. -/
structure Params where
  /-- `SENTINEL_VALUE` (rule R7, decision D1) -/
  sentinelValue : Byte
  /-- `BOOT_REG_READ` (rule R7, decision D9) -/
  bootRegRead : Byte
  /-- `EMPTY0_FOLD_PERIOD` (rule R7, decision D3) -/
  empty0FoldPeriod : Nat
  /-- `VM_ENC`, the codes of `Mode0` to `Mode3` on the side band (rules R7, R91, decision D18) -/
  vmMode0 : BitVec 2
  vmMode1 : BitVec 2
  vmMode2 : BitVec 2
  vmMode3 : BitVec 2
  /-- `ADDR_SPEED` and the twelve after it (rule R8, decision D5) -/
  addrSpeed : Addr
  addrVramSel : Addr
  addrHdma1 : Addr
  addrHdma2 : Addr
  addrHdma3 : Addr
  addrHdma4 : Addr
  addrHdma5 : Addr
  addrInfrared : Addr
  addrBgpi : Addr
  addrBgpd : Addr
  addrObpi : Addr
  addrObpd : Addr
  addrWramSel : Addr
  /-- `UNDOC_OR[0xFF6C]` and the four after it (rules R9, R185, decision D7) -/
  undocOrFF6C : Byte
  undocOrFF72 : Byte
  undocOrFF73 : Byte
  undocOrFF74 : Byte
  undocOrFF75 : Byte
  /-- `VRAMSEL_READ_OR` (rules R9, R198, decision D6) -/
  vramSelReadOr : Byte
  /-- `WRAMSEL_READ_OR` (rules R9, R200, decision D6) -/
  wramSelReadOr : Byte
  deriving DecidableEq, Repr

/-! ### External leaves, rule R210 -/

/-- The external leaves the block forwards to: the seven of rule R123 and R125, the entries of the
I/O port table (rule R139), and the two further step inputs of rules R260 and R261. `timer` and
`dma` are entries of the port table whose place the spec does not fix (rule R211, log entry 10). -/
inductive Leaf where
  | speed | infrared | bgpi | bgpd | obpi | obpd | hdma5
  | ioPort (index : Nat)
  | timer | dma
  deriving DecidableEq, Repr

/-- FREE VALUE (rule R210: "a model must admit any byte"; U1): the byte the environment lets
a leaf answer to the `n`-th forwarded read of a run. No body, so no proof can see it
(log entry 4). -/
opaque leafAnswer : (n : Nat) → Leaf → Addr → Byte

end Sys2Proof.Config
end

