-- ==== Sys2Proof/Machine/Params.lean ====
section
/-! DEFINITION. The named parameters of rules R7, R8 and R9: their defaults, the constraints the spec
puts on them, and which register an address is. Then the constants the region rules fix. -/

namespace Sys2Proof.Config

/-- Every named parameter at the value the spec takes (rules R7, R8, R9; log entries 5 to 8). -/
def Params.default : Params where
  sentinelValue := 0xFF
  bootRegRead := 0xFF
  empty0FoldPeriod := 16
  vmMode0 := 0
  vmMode1 := 1
  vmMode2 := 2
  vmMode3 := 3
  addrSpeed := 0xFF4D
  addrVramSel := 0xFF4F
  addrHdma1 := 0xFF51
  addrHdma2 := 0xFF52
  addrHdma3 := 0xFF53
  addrHdma4 := 0xFF54
  addrHdma5 := 0xFF55
  addrInfrared := 0xFF56
  addrBgpi := 0xFF68
  addrBgpd := 0xFF69
  addrObpi := 0xFF6A
  addrObpd := 0xFF6B
  addrWramSel := 0xFF70
  undocOrFF6C := 0xFE
  undocOrFF72 := 0x00
  undocOrFF73 := 0x00
  undocOrFF74 := 0x00
  undocOrFF75 := 0x8F
  vramSelReadOr := 0xFE
  wramSelReadOr := 0xF8

/-! ### The addresses of rule R8 -/

/-- The address of a CGB-mode register, `ADDR_*` (rule R8). -/
def Params.addrOf (p : Params) : CgbReg → Addr
  | .speed => p.addrSpeed
  | .infrared => p.addrInfrared
  | .bgpi => p.addrBgpi
  | .obpi => p.addrObpi
  | .hdma5 => p.addrHdma5
  | .wramSel => p.addrWramSel
  | .vramSel => p.addrVramSel
  | .bgpd => p.addrBgpd
  | .obpd => p.addrObpd
  | .hdma1 => p.addrHdma1
  | .hdma2 => p.addrHdma2
  | .hdma3 => p.addrHdma3
  | .hdma4 => p.addrHdma4

/-- The thirteen registers in the order step 1 tries them (rules R123 to R126). -/
def cgbRegs : List CgbReg :=
  [.speed, .infrared, .bgpi, .obpi, .hdma5, .wramSel, .vramSel, .bgpd, .obpd, .hdma1, .hdma2, .hdma3,
   .hdma4]

/-- The thirteen addresses of rule R8. -/
def Params.cgbAddrs (p : Params) : List Addr := cgbRegs.map p.addrOf

/-- The CGB-mode register at an address; "first match wins" (rule R120). -/
def Params.cgbAt (p : Params) (a : Addr) : Option CgbReg :=
  cgbRegs.find? fun r => decide (p.addrOf r = a)

/-- The address of an undocumented register (rule R33). -/
def UndocReg.addr : UndocReg → Nat
  | .ff6c => 0xFF6C
  | .ff72 => 0xFF72
  | .ff73 => 0xFF73
  | .ff74 => 0xFF74
  | .ff75 => 0xFF75
  | .ff76 => 0xFF76
  | .ff77 => 0xFF77

/-- The seven addresses of rule R141. -/
def undocRegisters : List Nat := [0xFF6C, 0xFF72, 0xFF73, 0xFF74, 0xFF75, 0xFF76, 0xFF77]

/-! ### Which instantiations the spec allows -/

/-- The constraints on an instantiation: rule R8's on the addresses; codes of the four video modes
that tell them apart, and a fold that stays inside the `0x30` cells of rule R43 (log entry 22). -/
abbrev Params.Valid (p : Params) : Prop :=
  p.cgbAddrs.Nodup
  ∧ (∀ r ∈ cgbRegs, (p.addrOf r).toNat ≠ 0xFF50 ∧ (p.addrOf r).toNat ∉ undocRegisters
      ∧ ¬(0x8000 ≤ (p.addrOf r).toNat ∧ (p.addrOf r).toNat ≤ 0x9FFF))
  ∧ [p.vmMode0, p.vmMode1, p.vmMode2, p.vmMode3].Nodup
  ∧ 1 ≤ p.empty0FoldPeriod ∧ p.empty0FoldPeriod ≤ 16

/-! ### Constants of the region rules -/

/-- The fixed fallback of a ROM read past the image (rules R238, R239, R240); it is `0xFF`
whatever `SENTINEL_VALUE` is. -/
def romFallback : Byte := 0xFF

/-- What the filler `EMPTY1` reads, `0xFF` whatever `SENTINEL_VALUE` is (rule R188). -/
def empty1Read : Byte := 0xFF

/-- What `EMPTY0D` reads (rule R177). -/
def empty0dRead : Byte := 0x00

/-- What `HDMA1` to `HDMA4` read (rule R202). -/
def hdmaRead : Byte := 0xFF

/-- What `0xFF76` and `0xFF77` always read (rule R186). -/
def undocZeroRead : Byte := 0x00

end Sys2Proof.Config
end

