-- ==== Sys2Proof/Syntax.lean ====
section
/-! DEFINITION. Transactions as data: the mode snapshot (rules R40, R91), the four transaction
formats (rule R90), the regions of rule R147, what resolution reads of the state (rule R75), and
`Instr`: one constructor for every mnemonic of `spec/opcode_table.json` (rule R109). An instruction
is one transaction kind on one resolved region; it carries the transaction's own fields. -/

namespace Sys2Proof

/-- `currentVideoMode` of the snapshot (rules R40, R91). -/
inductive VideoMode where
  | mode0 | mode1 | mode2 | mode3
  deriving DecidableEq, Repr

/-- The mode snapshot presented with every `RD` and `WR` (rule R40). It is an input, not state of
the block; all 32 combinations are legal. -/
structure Snapshot where
  /-- "cartridge/hardware supports CGB" -/
  isCGB : Bool
  /-- "currently running in CGB mode, distinct from hardware support" -/
  inCGBMode : Bool
  /-- "boot ROM still mapped" -/
  bootingActive : Bool
  /-- "PPU state gating VRAM/OAM access" -/
  videoMode : VideoMode
  deriving DecidableEq, Repr

/-- The four transaction formats of rule R90. -/
inductive Transaction where
  /-- `RD addr` under a snapshot; returns a byte. -/
  | rd (a : Addr) (m : Snapshot)
  /-- `WR addr, wdata` under a snapshot. -/
  | wr (a : Addr) (v : Byte) (m : Snapshot)
  /-- `STEP cycles`; carries no snapshot. -/
  | step (n : Cycles)
  /-- `STEPT cycles`, KB's `stepBeforeTimer`; carries no snapshot. -/
  | stept (n : Cycles)
  deriving DecidableEq, Repr

/-- The two values of `bankingMode` (rule R21); symbolic, never visible as a number. -/
inductive BankingMode where
  | rom16KRam8K | rom4MRam32K
  deriving DecidableEq, Repr

/-- What choosing an instruction reads of the state and the configuration: by rule R75 resolution
reads exactly `bootOff`, `vbk`, `svbk`, `ramBankSel`, `ramEnabled[ramBankSel]`, `hasBootRom`,
`BOOT_SIZE` and `RAM_BANKS`; `bankingMode` tells `WR.BANKHI.ROM` from `WR.BANKHI.RAM` (rule R107).
`params` are the model's arguments, which the rules of resolution and rule R91 name. -/
structure View where
  params : Config.Params
  bootOff : Bool
  vbk : BitVec 1
  svbk : BitVec 3
  ramBankSel : BitVec 2
  /-- `ramEnabled[ramBankSel]`; `false` where there is no such bank -/
  selEnabled : Bool
  bankingMode : BankingMode
  hasBootRom : Bool
  bootSize : Nat
  ramBanks : Nat
  deriving DecidableEq, Repr

/-- The closed set of regions of rule R147, with index and offset where the rule lists them. -/
inductive Region where
  | unacc
  | bootRom (off : Nat)
  | cart (off : Nat)
  | vram (bank off : Nat)
  | extRam (bank off : Nat)
  | iram (off : Nat)
  | wram (bank off : Nat)
  | oam (off : Nat)
  | empty0d (off : Nat)
  | empty0c (off : Nat)
  | wave (off : Nat)
  | ioPort (index : Nat)
  | bootReg
  | undoc (r : Config.UndocReg)
  | empty1 (off : Nat)
  | hram (off : Nat)
  | ie
  | vramSel
  | wramSel
  | hdma (n : Config.HdmaReg)
  | speed | infrared | bgpi | bgpd | obpi | obpd | hdma5
  deriving DecidableEq, Repr

/-- One constructor per mnemonic of `spec/opcode_table.json` (rule R109). `a` is the bus address, `v`
the written byte, `m` the snapshot, `n` the cycle count of rule R90. -/
inductive Instr where
  /-- `RD.SPEED` (rule R206) -/
  | rdSpeed (a : Addr) (m : Snapshot)
  /-- `WR.SPEED` (rule R207) -/
  | wrSpeed (a : Addr) (v : Byte) (m : Snapshot)
  /-- `RD.INFRARED` (rule R206) -/
  | rdInfrared (a : Addr) (m : Snapshot)
  /-- `WR.INFRARED` (rule R207) -/
  | wrInfrared (a : Addr) (v : Byte) (m : Snapshot)
  /-- `RD.WRAMSEL` (rule R200) -/
  | rdWramSel (a : Addr) (m : Snapshot)
  /-- `WR.WRAMSEL` (rule R201) -/
  | wrWramSel (a : Addr) (v : Byte) (m : Snapshot)
  /-- `RD.BGPI` (rule R206) -/
  | rdBgpi (a : Addr) (m : Snapshot)
  /-- `WR.BGPI` (rule R207) -/
  | wrBgpi (a : Addr) (v : Byte) (m : Snapshot)
  /-- `RD.UNACC` (rule R160) -/
  | rdUnacc (a : Addr) (m : Snapshot)
  /-- `WR.UNACC` (rule R161) -/
  | wrUnacc (a : Addr) (v : Byte) (m : Snapshot)
  /-- `RD.BGPD` (rule R206) -/
  | rdBgpd (a : Addr) (m : Snapshot)
  /-- `WR.BGPD` (rule R207) -/
  | wrBgpd (a : Addr) (v : Byte) (m : Snapshot)
  /-- `RD.OBPI` (rule R206) -/
  | rdObpi (a : Addr) (m : Snapshot)
  /-- `WR.OBPI` (rule R207) -/
  | wrObpi (a : Addr) (v : Byte) (m : Snapshot)
  /-- `RD.OBPD` (rule R206) -/
  | rdObpd (a : Addr) (m : Snapshot)
  /-- `WR.OBPD` (rule R207) -/
  | wrObpd (a : Addr) (v : Byte) (m : Snapshot)
  /-- `RD.VRAMSEL` (rule R198) -/
  | rdVramSel (a : Addr) (m : Snapshot)
  /-- `WR.VRAMSEL` (rule R199) -/
  | wrVramSel (a : Addr) (v : Byte) (m : Snapshot)
  /-- `RD.HDMA1` (rule R202) -/
  | rdHdma1 (a : Addr) (m : Snapshot)
  /-- `WR.HDMA1` (rule R203) -/
  | wrHdma1 (a : Addr) (v : Byte) (m : Snapshot)
  /-- `RD.HDMA2` (rule R202) -/
  | rdHdma2 (a : Addr) (m : Snapshot)
  /-- `WR.HDMA2` (rule R203) -/
  | wrHdma2 (a : Addr) (v : Byte) (m : Snapshot)
  /-- `RD.HDMA3` (rule R202) -/
  | rdHdma3 (a : Addr) (m : Snapshot)
  /-- `WR.HDMA3` (rule R203) -/
  | wrHdma3 (a : Addr) (v : Byte) (m : Snapshot)
  /-- `RD.HDMA4` (rule R202) -/
  | rdHdma4 (a : Addr) (m : Snapshot)
  /-- `WR.HDMA4` (rule R203) -/
  | wrHdma4 (a : Addr) (v : Byte) (m : Snapshot)
  /-- `RD.HDMA5` (rule R206) -/
  | rdHdma5 (a : Addr) (m : Snapshot)
  /-- `WR.HDMA5` (rule R207) -/
  | wrHdma5 (a : Addr) (v : Byte) (m : Snapshot)
  /-- `RD.VRAM` (rule R166) -/
  | rdVram (a : Addr) (m : Snapshot)
  /-- `WR.VRAM` (rule R167) -/
  | wrVram (a : Addr) (v : Byte) (m : Snapshot)
  /-- `RD.BOOTROM` (rule R162) -/
  | rdBootRom (a : Addr) (m : Snapshot)
  /-- `WR.BOOTROM` (rule R163) -/
  | wrBootRom (a : Addr) (v : Byte) (m : Snapshot)
  /-- `RD.ROM0` (rule R237) -/
  | rdRom0 (a : Addr) (m : Snapshot)
  /-- `RD.ROMX` (rule R238) -/
  | rdRomX (a : Addr) (m : Snapshot)
  /-- `WR.RAMEN` (rule R231) -/
  | wrRamEn (a : Addr) (v : Byte) (m : Snapshot)
  /-- `WR.ROMLO` (rule R232) -/
  | wrRomLo (a : Addr) (v : Byte) (m : Snapshot)
  /-- `WR.BANKHI.ROM` (rule R233) -/
  | wrBankHiRom (a : Addr) (v : Byte) (m : Snapshot)
  /-- `WR.BANKHI.RAM` (rule R234) -/
  | wrBankHiRam (a : Addr) (v : Byte) (m : Snapshot)
  /-- `WR.MODE` (rule R235) -/
  | wrMode (a : Addr) (v : Byte) (m : Snapshot)
  /-- `RD.EXTRAM` (rule R168) -/
  | rdExtRam (a : Addr) (m : Snapshot)
  /-- `WR.EXTRAM` (rule R169) -/
  | wrExtRam (a : Addr) (v : Byte) (m : Snapshot)
  /-- `RD.WRAM0` (rule R172) -/
  | rdWram0 (a : Addr) (m : Snapshot)
  /-- `WR.WRAM0` (rule R173) -/
  | wrWram0 (a : Addr) (v : Byte) (m : Snapshot)
  /-- `RD.IRAM` (rule R170) -/
  | rdIram (a : Addr) (m : Snapshot)
  /-- `WR.IRAM` (rule R171) -/
  | wrIram (a : Addr) (v : Byte) (m : Snapshot)
  /-- `RD.WRAMX` (rule R172) -/
  | rdWramX (a : Addr) (m : Snapshot)
  /-- `WR.WRAMX` (rule R173) -/
  | wrWramX (a : Addr) (v : Byte) (m : Snapshot)
  /-- `RD.OAM` (rule R174) -/
  | rdOam (a : Addr) (m : Snapshot)
  /-- `WR.OAM` (rule R175) -/
  | wrOam (a : Addr) (v : Byte) (m : Snapshot)
  /-- `RD.EMPTY0D` (rule R177) -/
  | rdEmpty0D (a : Addr) (m : Snapshot)
  /-- `WR.EMPTY0D` (rule R178) -/
  | wrEmpty0D (a : Addr) (v : Byte) (m : Snapshot)
  /-- `RD.EMPTY0C` (rule R179) -/
  | rdEmpty0C (a : Addr) (m : Snapshot)
  /-- `WR.EMPTY0C` (rule R180) -/
  | wrEmpty0C (a : Addr) (v : Byte) (m : Snapshot)
  /-- `RD.WAVE` (rule R181) -/
  | rdWave (a : Addr) (m : Snapshot)
  /-- `WR.WAVE` (rule R182) -/
  | wrWave (a : Addr) (v : Byte) (m : Snapshot)
  /-- `RD.IOPORT` (rule R208) -/
  | rdIoPort (a : Addr) (m : Snapshot)
  /-- `WR.IOPORT` (rule R209) -/
  | wrIoPort (a : Addr) (v : Byte) (m : Snapshot)
  /-- `RD.BOOTREG` (rule R183) -/
  | rdBootReg (a : Addr) (m : Snapshot)
  /-- `WR.BOOTREG` (rule R184) -/
  | wrBootReg (a : Addr) (v : Byte) (m : Snapshot)
  /-- `RD.UNDOC_FF6C` (rule R185) -/
  | rdUndocFF6C (a : Addr) (m : Snapshot)
  /-- `WR.UNDOC_FF6C` (rule R187) -/
  | wrUndocFF6C (a : Addr) (v : Byte) (m : Snapshot)
  /-- `RD.UNDOC_FF72` (rule R185) -/
  | rdUndocFF72 (a : Addr) (m : Snapshot)
  /-- `WR.UNDOC_FF72` (rule R187) -/
  | wrUndocFF72 (a : Addr) (v : Byte) (m : Snapshot)
  /-- `RD.UNDOC_FF73` (rule R185) -/
  | rdUndocFF73 (a : Addr) (m : Snapshot)
  /-- `WR.UNDOC_FF73` (rule R187) -/
  | wrUndocFF73 (a : Addr) (v : Byte) (m : Snapshot)
  /-- `RD.UNDOC_FF74` (rule R185) -/
  | rdUndocFF74 (a : Addr) (m : Snapshot)
  /-- `WR.UNDOC_FF74` (rule R187) -/
  | wrUndocFF74 (a : Addr) (v : Byte) (m : Snapshot)
  /-- `RD.UNDOC_FF75` (rule R185) -/
  | rdUndocFF75 (a : Addr) (m : Snapshot)
  /-- `WR.UNDOC_FF75` (rule R187) -/
  | wrUndocFF75 (a : Addr) (v : Byte) (m : Snapshot)
  /-- `RD.UNDOC_FF76` (rule R186) -/
  | rdUndocFF76 (a : Addr) (m : Snapshot)
  /-- `WR.UNDOC_FF76` (rule R187) -/
  | wrUndocFF76 (a : Addr) (v : Byte) (m : Snapshot)
  /-- `RD.UNDOC_FF77` (rule R186) -/
  | rdUndocFF77 (a : Addr) (m : Snapshot)
  /-- `WR.UNDOC_FF77` (rule R187) -/
  | wrUndocFF77 (a : Addr) (v : Byte) (m : Snapshot)
  /-- `RD.EMPTY1` (rule R188) -/
  | rdEmpty1 (a : Addr) (m : Snapshot)
  /-- `WR.EMPTY1` (rule R189) -/
  | wrEmpty1 (a : Addr) (v : Byte) (m : Snapshot)
  /-- `RD.HRAM` (rule R190) -/
  | rdHram (a : Addr) (m : Snapshot)
  /-- `WR.HRAM` (rule R191) -/
  | wrHram (a : Addr) (v : Byte) (m : Snapshot)
  /-- `RD.IE` (rule R192) -/
  | rdIe (a : Addr) (m : Snapshot)
  /-- `WR.IE` (rule R193) -/
  | wrIe (a : Addr) (v : Byte) (m : Snapshot)
  /-- `STEP` (rule R260) -/
  | step (n : Cycles)
  /-- `STEPT` (rule R261) -/
  | stept (n : Cycles)
  deriving DecidableEq, Repr

/-- The transaction record of rule R90 that an instruction is. -/
def Instr.transaction : Instr → Transaction
  | .rdSpeed a m => .rd a m
  | .wrSpeed a v m => .wr a v m
  | .rdInfrared a m => .rd a m
  | .wrInfrared a v m => .wr a v m
  | .rdWramSel a m => .rd a m
  | .wrWramSel a v m => .wr a v m
  | .rdBgpi a m => .rd a m
  | .wrBgpi a v m => .wr a v m
  | .rdUnacc a m => .rd a m
  | .wrUnacc a v m => .wr a v m
  | .rdBgpd a m => .rd a m
  | .wrBgpd a v m => .wr a v m
  | .rdObpi a m => .rd a m
  | .wrObpi a v m => .wr a v m
  | .rdObpd a m => .rd a m
  | .wrObpd a v m => .wr a v m
  | .rdVramSel a m => .rd a m
  | .wrVramSel a v m => .wr a v m
  | .rdHdma1 a m => .rd a m
  | .wrHdma1 a v m => .wr a v m
  | .rdHdma2 a m => .rd a m
  | .wrHdma2 a v m => .wr a v m
  | .rdHdma3 a m => .rd a m
  | .wrHdma3 a v m => .wr a v m
  | .rdHdma4 a m => .rd a m
  | .wrHdma4 a v m => .wr a v m
  | .rdHdma5 a m => .rd a m
  | .wrHdma5 a v m => .wr a v m
  | .rdVram a m => .rd a m
  | .wrVram a v m => .wr a v m
  | .rdBootRom a m => .rd a m
  | .wrBootRom a v m => .wr a v m
  | .rdRom0 a m => .rd a m
  | .rdRomX a m => .rd a m
  | .wrRamEn a v m => .wr a v m
  | .wrRomLo a v m => .wr a v m
  | .wrBankHiRom a v m => .wr a v m
  | .wrBankHiRam a v m => .wr a v m
  | .wrMode a v m => .wr a v m
  | .rdExtRam a m => .rd a m
  | .wrExtRam a v m => .wr a v m
  | .rdWram0 a m => .rd a m
  | .wrWram0 a v m => .wr a v m
  | .rdIram a m => .rd a m
  | .wrIram a v m => .wr a v m
  | .rdWramX a m => .rd a m
  | .wrWramX a v m => .wr a v m
  | .rdOam a m => .rd a m
  | .wrOam a v m => .wr a v m
  | .rdEmpty0D a m => .rd a m
  | .wrEmpty0D a v m => .wr a v m
  | .rdEmpty0C a m => .rd a m
  | .wrEmpty0C a v m => .wr a v m
  | .rdWave a m => .rd a m
  | .wrWave a v m => .wr a v m
  | .rdIoPort a m => .rd a m
  | .wrIoPort a v m => .wr a v m
  | .rdBootReg a m => .rd a m
  | .wrBootReg a v m => .wr a v m
  | .rdUndocFF6C a m => .rd a m
  | .wrUndocFF6C a v m => .wr a v m
  | .rdUndocFF72 a m => .rd a m
  | .wrUndocFF72 a v m => .wr a v m
  | .rdUndocFF73 a m => .rd a m
  | .wrUndocFF73 a v m => .wr a v m
  | .rdUndocFF74 a m => .rd a m
  | .wrUndocFF74 a v m => .wr a v m
  | .rdUndocFF75 a m => .rd a m
  | .wrUndocFF75 a v m => .wr a v m
  | .rdUndocFF76 a m => .rd a m
  | .wrUndocFF76 a v m => .wr a v m
  | .rdUndocFF77 a m => .rd a m
  | .wrUndocFF77 a v m => .wr a v m
  | .rdEmpty1 a m => .rd a m
  | .wrEmpty1 a v m => .wr a v m
  | .rdHram a m => .rd a m
  | .wrHram a v m => .wr a v m
  | .rdIe a m => .rd a m
  | .wrIe a v m => .wr a v m
  | .step n => .step n
  | .stept n => .stept n

end Sys2Proof
end

