-- ==== Sys2Proof/Machine/Operands.lean ====
section
/-! DEFINITION. Operand forms: the address arithmetic of `30_encoding.md` rules R92 to R103 (bank
numbers, offsets, physical addresses, the empty0 fold) and the fields taken from a written byte.
Everything is on natural numbers, as rule R105 has it. -/

namespace Sys2Proof

/-- The range test of rule R92: `lo <= a <= hi`. -/
def within (a : Addr) (lo hi : Nat) : Bool := decide (lo ≤ a.toNat) && decide (a.toNat ≤ hi)

/-- The single-address test of rule R92. -/
def isAt (a : Addr) (n : Nat) : Bool := decide (a.toNat = n)

/-! ### Offsets and physical addresses -/

/-- `Rom0Phys(addr) = addr` (rule R100). -/
def rom0Phys (a : Addr) : Nat := a.toNat

/-- `RomPhys(bank, addr) = bank * 0x4000 + (addr - 0x4000)` (rule R100). -/
def romPhys (bank : Nat) (a : Addr) : Nat := bank * 0x4000 + (a.toNat - 0x4000)

/-- `ExtRamPhys` as one number, `{b, addr[12:0]}`: bank `b`, offset `addr - 0xA000` (rule R101). -/
def extRamPhys (bank : Nat) (a : Addr) : Nat := bank * 0x2000 + (a.toNat - 0xA000)

/-- The video RAM bank: `vbk` in CGB mode, else `0` (rules R70, R127, R130). -/
def vramBank (m : Snapshot) (vbk : BitVec 1) : Nat := if m.inCGBMode then vbk.toNat else 0

/-- `VramPhys` as one number, `{bank, addr[12:0]}` (rules R49, R102). -/
def vramPhys (bank : Nat) (a : Addr) : Nat := bank * 0x2000 + (a.toNat - 0x8000)

/-- `WramBank(svbk)`: "value 0 aliases to bank 1 - never bank 0" (rule R102). -/
def wramBank (svbk : BitVec 3) : Nat := if svbk.toNat = 0 then 1 else svbk.toNat

/-- `WramPhys` as one number, `{bank, addr[11:0]}` (rules R49, R102). -/
def wramPhys (bank : Nat) (a : Addr) : Nat := bank * 0x1000 + a.toNat % 0x1000

/-- `IramOff = addr[12:0]` (rule R102). -/
def iramOff (a : Addr) : Nat := a.toNat % 0x2000

/-- `addr - 0xFE00` (rule R41). -/
def oamOff (a : Addr) : Nat := a.toNat - 0xFE00

/-- `addr - 0xFF80` (rule R42). -/
def hramOff (a : Addr) : Nat := a.toNat - 0xFF80

/-- `addr - 0xFF30` (rule R44). -/
def waveOff (a : Addr) : Nat := a.toNat - 0xFF30

/-- `addr - 0xFEA0` (rule R103). -/
def empty0Off (a : Addr) : Nat := a.toNat - 0xFEA0

/-- `Empty0Fold(off)` under the period `EMPTY0_FOLD_PERIOD` (rule R103, decision D3). -/
def empty0Fold (period off : Nat) : Nat :=
  if off < 0x20 then off else (off - 0x20) % period + 0x20

/-- The I/O port table index `addr - 0xFF00` (rule R139). -/
def ioPortIndex (a : Addr) : Nat := a.toNat - 0xFF00

/-! ### Fields of the written byte -/

/-- `lo5 = v[4:0]`, and `1` where that field is `0` (rule R96). -/
def lo5 (v : Byte) : BitVec 7 :=
  if v &&& 0x1F = 0 then 1 else (v &&& 0x1F).setWidth 7

/-- `hi2 = v[1:0]` (rule R97), placed at bits 6 and 5. -/
def hi2 (v : Byte) : BitVec 7 := ((v &&& 0x03).setWidth 7) <<< 5

/-- `v[1:0]` as a RAM bank select (rules R97, R234). -/
def ramSelField (v : Byte) : BitVec 2 := v.setWidth 2

/-- `v[0]` of a VRAMSEL write (rule R104, decision D6). -/
def vbkField (v : Byte) : BitVec 1 := v.setWidth 1

/-- `v[2:0]` of a WRAMSEL write (rule R104, decision D6). -/
def svbkField (v : Byte) : BitVec 3 := v.setWidth 3

/-- `zext_8(s.vbk) | VRAMSEL_READ_OR` (rule R198). -/
def vramSelReadBack (p : Config.Params) (vbk : BitVec 1) : Byte := vbk.setWidth 8 ||| p.vramSelReadOr

/-- `zext_8(s.svbk) | WRAMSEL_READ_OR` (rule R200). -/
def wramSelReadBack (p : Config.Params) (svbk : BitVec 3) : Byte :=
  svbk.setWidth 8 ||| p.wramSelReadOr

end Sys2Proof
end

