-- ==== Sys2Proof/Machine/Flags.lean ====
section
/-! DEFINITION. The block has no condition codes and no flag that a read sets (rule R28). Its one-bit
and two-valued state elements are written from predicates of the written byte; those predicates, and
the condition `booting` of rule R121, are here. -/

namespace Sys2Proof

/-- `RamEnablePred(v) = ((v & 0x0A) != 0)`, KB's literal mask (rule R95). -/
def ramEnablePred (v : Byte) : Bool := decide (v &&& 0x0A ≠ 0)

/-- `ModeSel(v)`: a comparison on the whole byte (rule R98). -/
def modeSel (v : Byte) : BankingMode := if v = 0x01 then .rom4MRam32K else .rom16KRam8K

/-- Bit 0 of a boot register write (rules R104, R184). -/
def bootOffBit (v : Byte) : Bool := v.getLsbD 0

/-- `booting(m, s) = m.bootingActive and not s.bootOff` (rule R121). -/
def booting (m : Snapshot) (bootOff : Bool) : Bool := m.bootingActive && !bootOff

end Sys2Proof
end

