-- ==== Sys2Proof/Machine/Table.lean ====
section
/-! DEFINITION. The conditions of `spec/opcode_table.json` (rule R106): for every stem of rule R109,
the address range and the `cond` of its rows, with what earlier rows take excluded ("the lowest
`priority` wins"). They are written from the table, row by row; `Decode.lean` is written from the
prose of `40_bus_dispatch.md`. -/

namespace Sys2Proof.Table

/-- An address of step 1's register list, taken in CGB mode (rows of priority 1). No row after them
takes it. -/
def cgbClaims (v : View) (m : Snapshot) (a : Addr) : Bool :=
  m.inCGBMode && decide (a ∈ v.params.cgbAddrs)

/-- The range of a row after the register rows of priority 1. -/
def row (v : View) (m : Snapshot) (a : Addr) (lo hi : Nat) : Bool :=
  within a lo hi && !cgbClaims v m a

/-- Row `BOOTROM`: `booting && hasBootRom && addr<BOOT_SIZE && !(0x0100<=addr<=0x01FF)`. -/
def bootRom (v : View) (m : Snapshot) (a : Addr) : Bool :=
  row v m a 0x0000 0x7FFF && booting m v.bootOff && v.hasBootRom && decide (a.toNat < v.bootSize)
    && !within a 0x0100 0x01FF

/-- A row of priority 2.5: the range, and `not BOOTROM`. -/
def cart (v : View) (m : Snapshot) (a : Addr) (lo hi : Nat) : Bool :=
  row v m a lo hi && !bootRom v m a

/-- The gate of the rows of priority 4: `ramBankSel<RAM_BANKS && ramEnabled[ramBankSel]`. -/
def extRamOpen (v : View) : Bool := decide (v.ramBankSel.toNat < v.ramBanks) && v.selEnabled

/-- A register row of priority 1. -/
def cgbReg (v : View) (m : Snapshot) (a : Addr) (r : Config.CgbReg) : Bool :=
  decide (a = v.params.addrOf r) && m.inCGBMode

/-- A palette data row of priority 1: `inCGBMode && videoMode!=3`. -/
def paletteData (v : View) (m : Snapshot) (a : Addr) (r : Config.CgbReg) : Bool :=
  cgbReg v m a r && decide (m.videoMode ≠ .mode3)

/-- The rows of `UNACC`, of priorities 1, 1, 1, 3, 4 and 7. -/
def unacc (v : View) (m : Snapshot) (a : Addr) : Bool :=
  ((cgbReg v m a .bgpd || cgbReg v m a .obpd) && decide (m.videoMode = .mode3))
  || (row v m a 0x8000 0x9FFF && decide (m.videoMode = .mode3))
  || (row v m a 0xA000 0xBFFF && !extRamOpen v)
  || (row v m a 0xFE00 0xFE9F && (decide (m.videoMode = .mode2) || decide (m.videoMode = .mode3)))

def vram (v : View) (m : Snapshot) (a : Addr) : Bool :=
  row v m a 0x8000 0x9FFF && decide (m.videoMode ≠ .mode3)

def extRam (v : View) (m : Snapshot) (a : Addr) : Bool := row v m a 0xA000 0xBFFF && extRamOpen v

def wram0 (v : View) (m : Snapshot) (a : Addr) : Bool :=
  (row v m a 0xC000 0xCFFF || row v m a 0xE000 0xEFFF) && m.inCGBMode

def wramX (v : View) (m : Snapshot) (a : Addr) : Bool :=
  (row v m a 0xD000 0xDFFF || row v m a 0xF000 0xFDFF) && m.inCGBMode

def iram (v : View) (m : Snapshot) (a : Addr) : Bool :=
  (row v m a 0xC000 0xCFFF || row v m a 0xE000 0xEFFF || row v m a 0xD000 0xDFFF
    || row v m a 0xF000 0xFDFF) && !m.inCGBMode

def oam (v : View) (m : Snapshot) (a : Addr) : Bool :=
  row v m a 0xFE00 0xFE9F && (decide (m.videoMode = .mode0) || decide (m.videoMode = .mode1))

def empty0d (v : View) (m : Snapshot) (a : Addr) : Bool := row v m a 0xFEA0 0xFEFF && !m.isCGB

def empty0c (v : View) (m : Snapshot) (a : Addr) : Bool := row v m a 0xFEA0 0xFEFF && m.isCGB

def wave (v : View) (m : Snapshot) (a : Addr) : Bool := row v m a 0xFF30 0xFF3F

def ioPort (v : View) (m : Snapshot) (a : Addr) : Bool :=
  row v m a 0xFF00 0xFF2F || row v m a 0xFF40 0xFF4B

def bootReg (v : View) (m : Snapshot) (a : Addr) : Bool :=
  row v m a 0xFF50 0xFF50 && booting m v.bootOff

def undoc (v : View) (m : Snapshot) (a : Addr) (r : Config.UndocReg) : Bool :=
  row v m a r.addr r.addr && m.isCGB

/-- The rows of `EMPTY1`: `no earlier row matches` in `0xFF4C-0xFF7F`. -/
def empty1 (v : View) (m : Snapshot) (a : Addr) : Bool :=
  row v m a 0xFF4C 0xFF7F && !bootReg v m a
    && !(m.isCGB && decide (a.toNat ∈ Config.undocRegisters))

def hram (v : View) (m : Snapshot) (a : Addr) : Bool := row v m a 0xFF80 0xFFFE

def ie (v : View) (m : Snapshot) (a : Addr) : Bool := row v m a 0xFFFF 0xFFFF

end Sys2Proof.Table
end

