-- ==== Sys2Proof/WellFormed.lean ====
section
/-! DEFINITION. Well-formed instructions: an instruction is well formed under a view exactly when
some row of `spec/opcode_table.json` with its mnemonic takes its address under its snapshot, with
the row's `cond` and priority (rule R106). `STEP` and `STEPT` have no condition. -/

namespace Sys2Proof

/-- The row conditions of `spec/opcode_table.json`, one arm per constructor (rule R106). -/
def Instr.wf (v : View) : Instr → Bool
  | .rdSpeed a m => Table.cgbReg v m a .speed
  | .wrSpeed a _ m => Table.cgbReg v m a .speed
  | .rdInfrared a m => Table.cgbReg v m a .infrared
  | .wrInfrared a _ m => Table.cgbReg v m a .infrared
  | .rdWramSel a m => Table.cgbReg v m a .wramSel
  | .wrWramSel a _ m => Table.cgbReg v m a .wramSel
  | .rdBgpi a m => Table.cgbReg v m a .bgpi
  | .wrBgpi a _ m => Table.cgbReg v m a .bgpi
  | .rdUnacc a m => Table.unacc v m a
  | .wrUnacc a _ m => Table.unacc v m a
  | .rdBgpd a m => Table.paletteData v m a .bgpd
  | .wrBgpd a _ m => Table.paletteData v m a .bgpd
  | .rdObpi a m => Table.cgbReg v m a .obpi
  | .wrObpi a _ m => Table.cgbReg v m a .obpi
  | .rdObpd a m => Table.paletteData v m a .obpd
  | .wrObpd a _ m => Table.paletteData v m a .obpd
  | .rdVramSel a m => Table.cgbReg v m a .vramSel
  | .wrVramSel a _ m => Table.cgbReg v m a .vramSel
  | .rdHdma1 a m => Table.cgbReg v m a .hdma1
  | .wrHdma1 a _ m => Table.cgbReg v m a .hdma1
  | .rdHdma2 a m => Table.cgbReg v m a .hdma2
  | .wrHdma2 a _ m => Table.cgbReg v m a .hdma2
  | .rdHdma3 a m => Table.cgbReg v m a .hdma3
  | .wrHdma3 a _ m => Table.cgbReg v m a .hdma3
  | .rdHdma4 a m => Table.cgbReg v m a .hdma4
  | .wrHdma4 a _ m => Table.cgbReg v m a .hdma4
  | .rdHdma5 a m => Table.cgbReg v m a .hdma5
  | .wrHdma5 a _ m => Table.cgbReg v m a .hdma5
  | .rdVram a m => Table.vram v m a
  | .wrVram a _ m => Table.vram v m a
  | .rdBootRom a m => Table.bootRom v m a
  | .wrBootRom a _ m => Table.bootRom v m a
  | .rdRom0 a m => Table.cart v m a 0x0000 0x3FFF
  | .rdRomX a m => Table.cart v m a 0x4000 0x7FFF
  | .wrRamEn a _ m => Table.cart v m a 0x0000 0x1FFF
  | .wrRomLo a _ m => Table.cart v m a 0x2000 0x3FFF
  | .wrBankHiRom a _ m => Table.cart v m a 0x4000 0x5FFF && decide (v.bankingMode = .rom16KRam8K)
  | .wrBankHiRam a _ m => Table.cart v m a 0x4000 0x5FFF && decide (v.bankingMode = .rom4MRam32K)
  | .wrMode a _ m => Table.cart v m a 0x6000 0x7FFF
  | .rdExtRam a m => Table.extRam v m a
  | .wrExtRam a _ m => Table.extRam v m a
  | .rdWram0 a m => Table.wram0 v m a
  | .wrWram0 a _ m => Table.wram0 v m a
  | .rdIram a m => Table.iram v m a
  | .wrIram a _ m => Table.iram v m a
  | .rdWramX a m => Table.wramX v m a
  | .wrWramX a _ m => Table.wramX v m a
  | .rdOam a m => Table.oam v m a
  | .wrOam a _ m => Table.oam v m a
  | .rdEmpty0D a m => Table.empty0d v m a
  | .wrEmpty0D a _ m => Table.empty0d v m a
  | .rdEmpty0C a m => Table.empty0c v m a
  | .wrEmpty0C a _ m => Table.empty0c v m a
  | .rdWave a m => Table.wave v m a
  | .wrWave a _ m => Table.wave v m a
  | .rdIoPort a m => Table.ioPort v m a
  | .wrIoPort a _ m => Table.ioPort v m a
  | .rdBootReg a m => Table.bootReg v m a
  | .wrBootReg a _ m => Table.bootReg v m a
  | .rdUndocFF6C a m => Table.undoc v m a .ff6c
  | .wrUndocFF6C a _ m => Table.undoc v m a .ff6c
  | .rdUndocFF72 a m => Table.undoc v m a .ff72
  | .wrUndocFF72 a _ m => Table.undoc v m a .ff72
  | .rdUndocFF73 a m => Table.undoc v m a .ff73
  | .wrUndocFF73 a _ m => Table.undoc v m a .ff73
  | .rdUndocFF74 a m => Table.undoc v m a .ff74
  | .wrUndocFF74 a _ m => Table.undoc v m a .ff74
  | .rdUndocFF75 a m => Table.undoc v m a .ff75
  | .wrUndocFF75 a _ m => Table.undoc v m a .ff75
  | .rdUndocFF76 a m => Table.undoc v m a .ff76
  | .wrUndocFF76 a _ m => Table.undoc v m a .ff76
  | .rdUndocFF77 a m => Table.undoc v m a .ff77
  | .wrUndocFF77 a _ m => Table.undoc v m a .ff77
  | .rdEmpty1 a m => Table.empty1 v m a
  | .wrEmpty1 a _ m => Table.empty1 v m a
  | .rdHram a m => Table.hram v m a
  | .wrHram a _ m => Table.hram v m a
  | .rdIe a m => Table.ie v m a
  | .wrIe a _ m => Table.ie v m a
  | .step _ => true
  | .stept _ => true

end Sys2Proof
end

