-- ==== Sys2Proof/Decode.lean ====
section
/-! DEFINITION. The decoder: from the 40 bits of a transaction record (rules R90, R91) to a
transaction, by `Resolve` (rules R120 to R146) to a region, and from format and region to one
instruction (rules R106, R109). After it, the encoder. Nothing here reads memory contents. -/

namespace Sys2Proof

/-! ### Resolution, `40_bus_dispatch.md` -/

/-- What a register of step 1 resolves to; the palette data ports are shut in `Mode3` (rules R123 to
R126). -/
def cgbRegion (m : Snapshot) : Config.CgbReg → Region
  -- rule R123
  | .speed => .speed
  | .infrared => .infrared
  | .bgpi => .bgpi
  | .obpi => .obpi
  | .hdma5 => .hdma5
  -- rule R124
  | .wramSel => .wramSel
  | .vramSel => .vramSel
  -- rule R125
  | .bgpd => if m.videoMode = .mode3 then .unacc else .bgpd
  | .obpd => if m.videoMode = .mode3 then .unacc else .obpd
  -- rule R126
  | .hdma1 => .hdma .hdma1
  | .hdma2 => .hdma .hdma2
  | .hdma3 => .hdma .hdma3
  | .hdma4 => .hdma .hdma4

/-- Step 1, the CGB override table, tried only when `m.inCGBMode` (rules R122 to R127): the register
whose address `a` is, else the VRAM window. `none`: "If none of these match, fall through to the
common table below." -/
def resolveCgb (v : View) (m : Snapshot) (a : Addr) : Option Region :=
  match v.params.cgbAt a with
  | some r => some (cgbRegion m r)
  | none =>
    -- rule R127
    if within a 0x8000 0x9FFF then
      some (if m.videoMode = .mode3 then .unacc
        else .vram (vramBank m v.vbk) (a.toNat - 0x8000))
    else none

/-- The boot overlay condition of rule R128. -/
def overlayCovers (v : View) (m : Snapshot) (a : Addr) : Bool :=
  booting m v.bootOff && v.hasBootRom && decide (a.toNat < v.bootSize) && !within a 0x0100 0x01FF

/-- The undocumented register at an address, if it is one of the seven of rule R141. -/
def undocAt (a : Addr) : Option Config.UndocReg :=
  if isAt a 0xFF6C then some .ff6c
  else if isAt a 0xFF72 then some .ff72
  else if isAt a 0xFF73 then some .ff73
  else if isAt a 0xFF74 then some .ff74
  else if isAt a 0xFF75 then some .ff75
  else if isAt a 0xFF76 then some .ff76
  else if isAt a 0xFF77 then some .ff77
  else none

/-- The upper I/O range `0xFF4C-0xFF7F` (rules R140 to R142). -/
def resolveUpperIo (v : View) (m : Snapshot) (a : Addr) : Region :=
  if isAt a 0xFF50 && booting m v.bootOff then .bootReg
  else
    match m.isCGB, undocAt a with
    | true, some r => .undoc r
    | _, _ => .empty1 (a.toNat - 0xFF4C)

/-- Steps 2 to 13, the common table (rules R128 to R144). `none` is rule R145. -/
def resolveCommon (v : View) (m : Snapshot) (a : Addr) : Option Region :=
  -- rules R128, R129
  if within a 0x0000 0x7FFF then
    some (if overlayCovers v m a then .bootRom a.toNat else .cart a.toNat)
  -- rule R130
  else if within a 0x8000 0x9FFF then
    some (if m.videoMode = .mode3 then .unacc else .vram 0 (a.toNat - 0x8000))
  -- rule R131
  else if within a 0xA000 0xBFFF then
    some (if v.ramBanks > 0 ∧ v.ramBankSel.toNat < v.ramBanks ∧ v.selEnabled
      then .extRam v.ramBankSel.toNat (a.toNat - 0xA000) else .unacc)
  -- rule R132
  else if within a 0xC000 0xCFFF then
    some (if m.inCGBMode then .wram 0 (a.toNat - 0xC000) else .iram (a.toNat - 0xC000))
  -- rule R133
  else if within a 0xD000 0xDFFF then
    some (if m.inCGBMode then .wram (wramBank v.svbk) (a.toNat - 0xD000)
      else .iram (a.toNat - 0xC000))
  -- rule R134
  else if within a 0xE000 0xEFFF then
    some (if m.inCGBMode then .wram 0 (a.toNat - 0xE000) else .iram (a.toNat - 0xE000))
  -- rule R135
  else if within a 0xF000 0xFDFF then
    some (if m.inCGBMode then .wram (wramBank v.svbk) (a.toNat - 0xF000)
      else .iram (a.toNat - 0xE000))
  -- rule R136
  else if within a 0xFE00 0xFE9F then
    some (if m.videoMode = .mode2 ∨ m.videoMode = .mode3 then .unacc else .oam (a.toNat - 0xFE00))
  -- rule R137
  else if within a 0xFEA0 0xFEFF then
    some (if m.isCGB then .empty0c (a.toNat - 0xFEA0) else .empty0d (a.toNat - 0xFEA0))
  -- rule R138, before R139
  else if within a 0xFF30 0xFF3F then some (.wave (a.toNat - 0xFF30))
  -- rule R139
  else if within a 0xFF00 0xFF4B then some (.ioPort (a.toNat - 0xFF00))
  -- rules R140, R141, R142
  else if within a 0xFF4C 0xFF7F then some (resolveUpperIo v m a)
  -- rule R143
  else if within a 0xFF80 0xFFFE then some (.hram (a.toNat - 0xFF80))
  -- rule R144
  else if isAt a 0xFFFF then some .ie
  -- rule R145: `F_UNMAPPED`
  else none

/-- `Resolve(a, m, s)` (rule R120): "priority order, first match wins". `none` stands for the fault
of rule R145. -/
def resolve (v : View) (m : Snapshot) (a : Addr) : Option Region :=
  if m.inCGBMode then
    match resolveCgb v m a with
    | some r => some r
    | none => resolveCommon v m a
  else resolveCommon v m a

/-! ### From a transaction to its instruction, rules R106, R109 -/

/-- The `RD` instruction of a region (rule R109); a cartridge read splits by `addr[14]` (rule R94). -/
def readInstr (a : Addr) (m : Snapshot) : Region → Instr
  | .unacc => .rdUnacc a m
  | .bootRom _ => .rdBootRom a m
  | .cart _ => if within a 0x0000 0x3FFF then .rdRom0 a m else .rdRomX a m
  | .vram _ _ => .rdVram a m
  | .extRam _ _ => .rdExtRam a m
  | .iram _ => .rdIram a m
  | .wram bank _ => if bank = 0 then .rdWram0 a m else .rdWramX a m
  | .oam _ => .rdOam a m
  | .empty0d _ => .rdEmpty0D a m
  | .empty0c _ => .rdEmpty0C a m
  | .wave _ => .rdWave a m
  | .ioPort _ => .rdIoPort a m
  | .bootReg => .rdBootReg a m
  | .undoc .ff6c => .rdUndocFF6C a m
  | .undoc .ff72 => .rdUndocFF72 a m
  | .undoc .ff73 => .rdUndocFF73 a m
  | .undoc .ff74 => .rdUndocFF74 a m
  | .undoc .ff75 => .rdUndocFF75 a m
  | .undoc .ff76 => .rdUndocFF76 a m
  | .undoc .ff77 => .rdUndocFF77 a m
  | .empty1 _ => .rdEmpty1 a m
  | .hram _ => .rdHram a m
  | .ie => .rdIe a m
  | .vramSel => .rdVramSel a m
  | .wramSel => .rdWramSel a m
  | .hdma .hdma1 => .rdHdma1 a m
  | .hdma .hdma2 => .rdHdma2 a m
  | .hdma .hdma3 => .rdHdma3 a m
  | .hdma .hdma4 => .rdHdma4 a m
  | .speed => .rdSpeed a m
  | .infrared => .rdInfrared a m
  | .bgpi => .rdBgpi a m
  | .bgpd => .rdBgpd a m
  | .obpi => .rdObpi a m
  | .obpd => .rdObpd a m
  | .hdma5 => .rdHdma5 a m

/-- The `WR` instruction of a region (rule R109); a cartridge write splits by `addr[14:13]` (rule
R93), and `BANKHI` by the banking mode (rules R107, R109). -/
def writeInstr (v : View) (a : Addr) (w : Byte) (m : Snapshot) : Region → Instr
  | .unacc => .wrUnacc a w m
  | .bootRom _ => .wrBootRom a w m
  | .cart _ =>
    if within a 0x0000 0x1FFF then .wrRamEn a w m
    else if within a 0x2000 0x3FFF then .wrRomLo a w m
    else if within a 0x4000 0x5FFF then
      match v.bankingMode with
      | .rom16KRam8K => .wrBankHiRom a w m
      | .rom4MRam32K => .wrBankHiRam a w m
    else .wrMode a w m
  | .vram _ _ => .wrVram a w m
  | .extRam _ _ => .wrExtRam a w m
  | .iram _ => .wrIram a w m
  | .wram bank _ => if bank = 0 then .wrWram0 a w m else .wrWramX a w m
  | .oam _ => .wrOam a w m
  | .empty0d _ => .wrEmpty0D a w m
  | .empty0c _ => .wrEmpty0C a w m
  | .wave _ => .wrWave a w m
  | .ioPort _ => .wrIoPort a w m
  | .bootReg => .wrBootReg a w m
  | .undoc .ff6c => .wrUndocFF6C a w m
  | .undoc .ff72 => .wrUndocFF72 a w m
  | .undoc .ff73 => .wrUndocFF73 a w m
  | .undoc .ff74 => .wrUndocFF74 a w m
  | .undoc .ff75 => .wrUndocFF75 a w m
  | .undoc .ff76 => .wrUndocFF76 a w m
  | .undoc .ff77 => .wrUndocFF77 a w m
  | .empty1 _ => .wrEmpty1 a w m
  | .hram _ => .wrHram a w m
  | .ie => .wrIe a w m
  | .vramSel => .wrVramSel a w m
  | .wramSel => .wrWramSel a w m
  | .hdma .hdma1 => .wrHdma1 a w m
  | .hdma .hdma2 => .wrHdma2 a w m
  | .hdma .hdma3 => .wrHdma3 a w m
  | .hdma .hdma4 => .wrHdma4 a w m
  | .speed => .wrSpeed a w m
  | .infrared => .wrInfrared a w m
  | .bgpi => .wrBgpi a w m
  | .bgpd => .wrBgpd a w m
  | .obpi => .wrObpi a w m
  | .obpd => .wrObpd a w m
  | .hdma5 => .wrHdma5 a w m

/-- The address a transaction presents (rule R90); `STEP` and `STEPT` present none and are never
resolved (rule R263), so their `0` is never used. -/
def Transaction.addr : Transaction → Addr
  | .rd a _ => a
  | .wr a _ _ => a
  | .step _ => 0
  | .stept _ => 0

/-- The instruction a transaction is, under a view (rule R106). `none` is rule R145. -/
def select (v : View) : Transaction → Option Instr
  | .rd a m => (resolve v m a).map (readInstr a m)
  | .wr a w m => (resolve v m a).map (writeInstr v a w m)
  | .step n => some (.step n)
  | .stept n => some (.stept n)

/-! ### Transaction records as bits (DESIGN CHOICE, log entry 1)

The 40-bit layout: bits 15..0 `addr`, bits 23..16 `wdata`, or bits 31..0 `cycles`; bits 33..32 the
format (`RD` 0, `WR` 1, `STEP` 2, `STEPT` 3); bit 34 `isCGB`, bit 35 `inCGBMode`, bit 36
`bootingActive`, bits 38..37 the code of `videoMode` (rule R91). Bits a format does not present are
zero. -/

/-- `VM_ENC` (rules R7, R91, decision D18). -/
def VideoMode.toBits (p : Config.Params) : VideoMode → BitVec 2
  | .mode0 => p.vmMode0
  | .mode1 => p.vmMode1
  | .mode2 => p.vmMode2
  | .mode3 => p.vmMode3

/-- The inverse of `VM_ENC`. -/
def VideoMode.ofBits (p : Config.Params) (b : BitVec 2) : VideoMode :=
  if b = p.vmMode0 then .mode0
  else if b = p.vmMode1 then .mode1
  else if b = p.vmMode2 then .mode2
  else .mode3

/-- The five side-band bits of rule R91, `isCGB` lowest. -/
def Snapshot.toBits (p : Config.Params) (m : Snapshot) : BitVec 5 :=
  m.videoMode.toBits p ++ BitVec.ofBool m.bootingActive ++ BitVec.ofBool m.inCGBMode
    ++ BitVec.ofBool m.isCGB

/-- The snapshot of five side-band bits. -/
def Snapshot.ofBits (p : Config.Params) (b : BitVec 5) : Snapshot where
  isCGB := b.getLsbD 0
  inCGBMode := b.getLsbD 1
  bootingActive := b.getLsbD 2
  videoMode := VideoMode.ofBits p (b.extractLsb' 3 2)

/-- Why a word is no transaction record, or its transaction no instruction. -/
inductive Reject where
  /-- a bit that the word's format does not present is set (the layout is log entry 1's) -/
  | reservedBits
  /-- no rule takes the address: rule R145; rule R146 says this never happens -/
  | unmapped (a : Addr)
  deriving DecidableEq, Repr

/-- The transaction record of a word (rule R90): total, rejecting by name. -/
def decodeRecord (p : Config.Params) (w : RecordWord) : Except Reject Transaction :=
  let addr : Addr := w.extractLsb' 0 16
  let data : Byte := w.extractLsb' 16 8
  let pad : BitVec 8 := w.extractLsb' 24 8
  let format : BitVec 2 := w.extractLsb' 32 2
  let side : BitVec 5 := w.extractLsb' 34 5
  let top : BitVec 1 := w.extractLsb' 39 1
  let cycles : Cycles := w.extractLsb' 0 32
  if top ≠ 0 then .error .reservedBits
  else if format = 0 then
    if pad = 0 ∧ data = 0 then .ok (.rd addr (Snapshot.ofBits p side)) else .error .reservedBits
  else if format = 1 then
    if pad = 0 then .ok (.wr addr data (Snapshot.ofBits p side)) else .error .reservedBits
  else if side = 0 then
    .ok (if format = 2 then .step cycles else .stept cycles)
  else .error .reservedBits

/-- The instruction of a word, under a view: record, resolution, table. Total on every word. -/
def decode (v : View) (w : RecordWord) : Except Reject Instr :=
  match decodeRecord v.params w with
  | .error r => .error r
  | .ok t =>
    match select v t with
    | some i => .ok i
    | none => .error (.unmapped t.addr)

/-- A record word with `low` at bits 31..0, the format at bits 33..32 and the side band at bits
38..34. -/
def recordWord (side : BitVec 5) (format : BitVec 2) (low : BitVec 32) : RecordWord :=
  BitVec.ofNat 40 (low.toNat + 2 ^ 32 * format.toNat + 2 ^ 34 * side.toNat)

/-- The 40-bit record of a transaction (rule R90), written from the same layout. -/
def encodeRecord (p : Config.Params) : Transaction → RecordWord
  | .rd a m => recordWord (m.toBits p) 0 (BitVec.ofNat 32 a.toNat)
  | .wr a v m => recordWord (m.toBits p) 1 (BitVec.ofNat 32 (a.toNat + 2 ^ 16 * v.toNat))
  | .step n => recordWord 0 2 n
  | .stept n => recordWord 0 3 n

/-- The transaction word of a well-formed instruction (rule R90): the encoder. -/
def encode (p : Config.Params) (i : Instr) : RecordWord := encodeRecord p i.transaction

/-! ### Table words -/

/-- The record word of a table word of `nbits` bits: the bits above `nbits` are zero, so a word of
the opcode table, which is an address alone, is read as `RD` of that address under the snapshot
`isCGB=0 inCGB=0 boot=0 vm=0` (log entry 2). -/
def tableRecord (nbits w : Nat) : RecordWord := BitVec.ofNat 40 (w % 2 ^ min nbits 40)

/-- The view of `State.reset` (log entry 3); `Laws/Ops.lean` proves that it is. -/
def View.reset : View where
  params := Config.Params.default
  bootOff := false
  vbk := 0
  svbk := 0
  ramBankSel := 0
  selEnabled := false
  bankingMode := .rom16KRam8K
  hasBootRom := false
  bootSize := 0
  ramBanks := 0

/-- What the decoder reads from a table word, under the view of `State.reset` (log entry 2). -/
def decodeTableWord (nbits w : Nat) : Option Instr :=
  match decode View.reset (tableRecord nbits w) with
  | .ok i => some i
  | .error _ => none

end Sys2Proof
end

