-- ==== Sys2Proof/Machine/Memory.lean ====
section
/-! DEFINITION. The memories of rules R36 to R44, each a sparse list of (cell, byte) pairs in one
canonical form: cells strictly rising and no byte equal to what an unlisted cell reads as. A cell
is numbered by the physical address of its array (rule R49). That an unlisted cell reads `0x00` is
a convention of the representation alone: the contents at reset are the parameter `InitMem` of rule
R302, given as such a list (log entry 9). -/

namespace Sys2Proof.Machine

/-- The RAM arrays of the block (rule R20). -/
inductive RamArray where
  | extRam | vram | wram | iram | oam | hram | empty0 | wave
  deriving DecidableEq, Repr

/-- The number of cells of an array (rules R36 to R44); external RAM has `RAM_BANKS` banks. -/
def RamArray.size (ramBanks : Nat) : RamArray → Nat
  | .extRam => ramBanks * 0x2000
  | .vram => 2 * 0x2000
  | .wram => 8 * 0x1000
  | .iram => 0x2000
  | .oam => 0xA0
  | .hram => 0x7F
  | .empty0 => 0x30
  | .wave => 0x10

/-- One array, sparse. -/
abbrev Memory := List Host.Cell

/-- What an unlisted cell reads as. -/
def Memory.unlisted : Byte := 0x00

/-- The byte at a cell. -/
def Memory.read : Memory → Nat → Byte
  | [], _ => Memory.unlisted
  | c :: r, k => if c.1 = k then c.2 else Memory.read r k

/-- The list without the cell `k`. -/
def Memory.without (m : Memory) (k : Nat) : Memory := m.filter (fun c => decide (c.1 ≠ k))

/-- A cell put before the first cell of a higher number. -/
def Memory.place : Memory → Host.Cell → Memory
  | [], c => [c]
  | d :: r, c => if c.1 < d.1 then c :: d :: r else d :: Memory.place r c

/-- A byte written at a cell, keeping the canonical form. -/
def Memory.write (m : Memory) (k : Nat) (b : Byte) : Memory :=
  if b = Memory.unlisted then m.without k else (m.without k).place (k, b)

/-- The canonical form: cells strictly rising, no byte that an unlisted cell reads as. -/
abbrev Memory.wf (m : Memory) : Prop :=
  m.Pairwise (fun c d => c.1 < d.1) ∧ ∀ c ∈ m, c.2 ≠ Memory.unlisted

/-- Every listed cell exists in an array of `n` cells. -/
abbrev Memory.bounded (n : Nat) (m : Memory) : Prop := ∀ c ∈ m, c.1 < n

/-- The memory of `n` cells that holds what the list says, in canonical form; where a cell is
listed twice its first entry counts, as it does for `read`. -/
def Memory.ofCells (n : Nat) (l : List Host.Cell) : Memory :=
  l.foldr (fun c m => if c.1 < n then m.write c.1 c.2 else m) []

/-- The cells of a byte sequence, the first at number `k`. -/
def Memory.ofBytes (k : Nat) : List Byte → List Host.Cell
  | [] => []
  | b :: r => (k, b) :: Memory.ofBytes (k + 1) r

/-- The eight arrays of rule R20 together. -/
structure Rams where
  extRam : Memory
  vram : Memory
  wram : Memory
  iram : Memory
  oam : Memory
  hram : Memory
  empty0 : Memory
  wave : Memory
  deriving DecidableEq, Repr

/-- The arrays with nothing listed. -/
def Rams.empty : Rams := ⟨[], [], [], [], [], [], [], []⟩

/-- One of the arrays. -/
def Rams.get (r : Rams) : RamArray → Memory
  | .extRam => r.extRam
  | .vram => r.vram
  | .wram => r.wram
  | .iram => r.iram
  | .oam => r.oam
  | .hram => r.hram
  | .empty0 => r.empty0
  | .wave => r.wave

/-- The arrays with one of them replaced. -/
def Rams.set (r : Rams) (x : RamArray) (m : Memory) : Rams :=
  match x with
  | .extRam => { r with extRam := m }
  | .vram => { r with vram := m }
  | .wram => { r with wram := m }
  | .iram => { r with iram := m }
  | .oam => { r with oam := m }
  | .hram => { r with hram := m }
  | .empty0 => { r with empty0 := m }
  | .wave => { r with wave := m }

/-- The arrays at reset: `InitMem` everywhere (rule R302), but external RAM holds the save file's
bytes, bank after bank, where one was loaded (rule R303). -/
def Rams.atReset (ramBanks : Nat) (initMem : Rams) (save : Option (List Byte)) : Rams where
  extRam := Memory.ofCells (RamArray.size ramBanks .extRam)
    (match save with
      | some bytes => Memory.ofBytes 0 bytes ++ initMem.extRam
      | none => initMem.extRam)
  vram := Memory.ofCells (RamArray.size ramBanks .vram) initMem.vram
  wram := Memory.ofCells (RamArray.size ramBanks .wram) initMem.wram
  iram := Memory.ofCells (RamArray.size ramBanks .iram) initMem.iram
  oam := Memory.ofCells (RamArray.size ramBanks .oam) initMem.oam
  hram := Memory.ofCells (RamArray.size ramBanks .hram) initMem.hram
  empty0 := Memory.ofCells (RamArray.size ramBanks .empty0) initMem.empty0
  wave := Memory.ofCells (RamArray.size ramBanks .wave) initMem.wave

end Sys2Proof.Machine
end

