-- ==== Sys2Proof/Machine/State.lean ====
section
/-! DEFINITION. The state. `Block` is the record `s` of rule R20, with exactly its fields. Around it
`State` holds the parameters the model was instantiated with (rules R7 to R9), the configuration of
this block (rule R6, replaced whole by `REPLACE`, rule R266), the inputs the masters and the host
present next (rules R60, R268), and what a run lets an observer see (rules R210, R268). All of it is
plain data. -/

namespace Sys2Proof.Machine

/-- `undoc[a]` for the seven addresses of rule R33, a byte each. -/
structure UndocBytes where
  ff6c : Byte
  ff72 : Byte
  ff73 : Byte
  ff74 : Byte
  ff75 : Byte
  ff76 : Byte
  ff77 : Byte
  deriving DecidableEq, Repr

/-- `hdma[1]` to `hdma[4]` of rule R32, a byte each. -/
structure HdmaBytes where
  hdma1 : Byte
  hdma2 : Byte
  hdma3 : Byte
  hdma4 : Byte
  deriving DecidableEq, Repr

/-- The block's state, the record `s` of rule R20. -/
structure Block where
  /-- rule R21 -/
  bankingMode : BankingMode
  /-- rule R22, 7 bits -/
  romBank : BitVec 7
  /-- rule R23, 2 bits -/
  ramBankSel : BitVec 2
  /-- rule R24: one flag per external RAM bank, bank 0 first -/
  ramEnabled : List Bool
  /-- rule R29, the one-way boot latch -/
  bootOff : Bool
  /-- rule R30, 1 bit -/
  vbk : BitVec 1
  /-- rule R31, 3 bits, the raw written value -/
  svbk : BitVec 3
  /-- rule R32 -/
  hdma : HdmaBytes
  /-- rule R33 -/
  undoc : UndocBytes
  /-- rule R34 -/
  ie : Byte
  /-- rules R36 to R44 -/
  rams : Rams
  deriving DecidableEq, Repr

/-- What comes from outside the block: a bus transaction of rule R90, or the host's one operation
`REPLACE` of rule R266, which is no transaction and happens between transactions. The contents
`initMem` and the save file are what rules R302 and R303 leave to the environment. -/
inductive Input where
  | txn (t : Transaction)
  | replace (config : Config.Cartridge) (initMem : Rams) (save : Option (List Byte))
  deriving DecidableEq, Repr

/-- What the block sends to an external leaf (rule R210). -/
inductive LeafEvent where
  | extRead (leaf : Config.Leaf) (a : Addr)
  | extWrite (leaf : Config.Leaf) (a : Addr) (v : Byte)
  | extStep (leaf : Config.Leaf) (n : Cycles)
  deriving DecidableEq, Repr

/-- The machine: the block, its configuration, what is presented next and what was observed. -/
structure State where
  /-- the model's arguments (rules R7 to R9); nothing changes them (log entry 20) -/
  params : Config.Params
  /-- the configuration of this block (rule R6); no transaction changes it (rule R45) -/
  config : Config.Cartridge
  /-- the block's own state (rule R20) -/
  block : Block
  /-- inputs to come, the next one first (rules R60, R268) -/
  inputs : List Input
  /-- the bytes returned by `RD`, oldest first (rule R268 (a)) -/
  reads : List Byte
  /-- the events sent to external leaves, oldest first (rules R210, R268 (b)) -/
  events : List LeafEvent
  /-- the model's own counter: forwarded reads so far, the argument of the free value
  `Config.leafAnswer` (log entry 4) -/
  leafReads : Nat
  deriving DecidableEq, Repr

/-- The faults of rule R270; both are terminal (rule R280). -/
inductive Fault where
  /-- `F_UNMAPPED(a)` (rules R145, R271). Raised by `step` when no resolution rule takes `a`, which
  rule R146 says never happens, and by a memory access to a cell its array does not have, which no
  decoded instruction makes. Safe. -/
  | unmapped (a : Addr)
  /-- `F_MBC_ADDR(a)` (rules R236, R272). Raised by `mbc1Write` called directly with an address
  above `0x7FFF`; never through the port. Safe. -/
  | mbcAddr (a : Addr)
  deriving DecidableEq, Repr

/-- Refusals. The block refuses no transaction (rule R268). -/
inductive Refusal where
  /-- an instruction without a meaning yet, raised by `exec`'s arms alone; no arm raises it. Safe. -/
  | notModelled (mnemonic : String)
  deriving DecidableEq, Repr

/-- The block's registers and memories after reset (rule R50). -/
def Block.reset (ramBanks : Nat) (initMem : Rams) (save : Option (List Byte)) : Block where
  bankingMode := .rom16KRam8K
  romBank := 1
  ramBankSel := 0
  ramEnabled := List.replicate ramBanks false
  bootOff := false
  vbk := 0
  svbk := 0
  hdma := ⟨0, 0, 0, 0⟩
  undoc := ⟨0, 0, 0, 0, 0, 0, 0⟩
  ie := 0
  rams := Rams.atReset ramBanks initMem save

/-- Reset of a block with given parameters and configuration, given `InitMem` and an optional save
file (rules R300 to R303): a new block, nothing presented, nothing observed. -/
def State.resetOf (p : Config.Params) (c : Config.Cartridge) (initMem : Rams)
    (save : Option (List Byte)) : State where
  params := p
  config := c
  block := Block.reset c.ramBanks initMem save
  inputs := []
  reads := []
  events := []
  leafReads := 0

/-- The machine right after reset, with the parameters at the spec's defaults (rules R7 to R9), the
empty configuration and nothing listed in memory (log entries 3 and 9; rule R6 leaves the
configuration OPEN, rule R302 the contents). -/
def State.reset : State :=
  State.resetOf Config.Params.default Config.Cartridge.empty Rams.empty none

end Sys2Proof.Machine
end

