-- ==== Sys2Proof/Machine/Ops.lean ====
section
/-! DEFINITION. The named operations every meaning is made of: finishing a read, reading and writing
a RAM cell, discarding a write, forwarding to an external leaf, the MBC1 registers (`42_mbc1.md`),
raising a fault and `REPLACE`. An instruction's effect is one of these. -/

namespace Sys2Proof.Machine

/-- What a transaction can answer. -/
abbrev Result := Host.Outcome State Fault Refusal

/-! ### What resolution reads -/

/-- `ramEnabled[b]`; `false` where there is no bank `b` (rules R24, R131). -/
def Block.ramFlag (b : Block) (bank : Nat) : Bool := (b.ramEnabled[bank]?).getD false

/-- What choosing an instruction reads of the state (rules R75, R107). -/
def State.view (s : State) : View where
  params := s.params
  bootOff := s.block.bootOff
  vbk := s.block.vbk
  svbk := s.block.svbk
  ramBankSel := s.block.ramBankSel
  selEnabled := s.block.ramFlag s.block.ramBankSel.toNat
  bankingMode := s.block.bankingMode
  hasBootRom := s.config.hasBootRom
  bootSize := s.config.bootSize
  ramBanks := s.config.ramBanks

/-! ### Faults -/

/-- Raising a fault (rule R280): terminal; no state is saved, no handler runs, and the transaction
changes nothing. There is no return from it (rule R281); the only way on is `REPLACE`, a new block. -/
def raiseFault (f : Fault) : Result := .fault f

/-- `REPLACE(config')` (rules R266, R300, R315): the whole block is discarded and a new one is built
from the new configuration (rule R6) and reset; the model's parameters are not part of it (log entry
20). What is presented after it stays presented. The observations of the old run end with it (rule
R268, log entry 19); the counter of free values goes on, so that no answer of a
leaf is fixed twice (log entry 4). -/
def State.replace (s : State) (c : Config.Cartridge) (initMem : Rams) (save : Option (List Byte)) :
    State :=
  { State.resetOf s.params c initMem save with inputs := s.inputs, leafReads := s.leafReads }

/-! ### State updates -/

/-- The state with another block. -/
def State.withBlock (s : State) (b : Block) : State := { s with block := b }

/-- `RD` ends by returning a byte (rules R90, R268 (a)). -/
def State.returning (s : State) (b : Byte) : State := { s with reads := s.reads ++ [b] }

/-- An event sent to a leaf (rule R210). -/
def State.sending (s : State) (e : LeafEvent) : State := { s with events := s.events ++ [e] }

/-- The byte a cell holds. -/
def State.cell (s : State) (x : RamArray) (k : Nat) : Byte := (s.block.rams.get x).read k

/-- The state with a byte stored in a cell. -/
def State.setCell (s : State) (x : RamArray) (k : Nat) (v : Byte) : State :=
  s.withBlock { s.block with rams := s.block.rams.set x ((s.block.rams.get x).write k v) }

/-! ### Reads and writes of regions -/

/-- A region that answers a constant or a register value. -/
def readByte (b : Byte) (s : State) : Result := .next (s.returning b)

/-- `ignore` (rule R12): the transaction changes no state (rules R68, R274). -/
def ignoreWrite (s : State) : Result := .next s

/-- A read of RAM: the byte of the cell; a cell the array does not have is rule R271's fault. -/
def readCell (x : RamArray) (k : Nat) (a : Addr) (s : State) : Result :=
  if k < x.size s.config.ramBanks then readByte (s.cell x k) s else raiseFault (.unmapped a)

/-- A write of RAM: the cell takes the byte; a cell the array does not have is rule R271's fault. -/
def writeCell (x : RamArray) (k : Nat) (a : Addr) (v : Byte) (s : State) : Result :=
  if k < x.size s.config.ramBanks then .next (s.setCell x k v) else raiseFault (.unmapped a)

/-- A write of registers: the block changes, nothing else. -/
def writeBlock (b : Block) (s : State) : Result := .next (s.withBlock b)

/-! ### External leaves, rule R210 -/

/-- `ExtRead(leaf, a)`: the leaf sees the read and answers any byte (rules R206, R208, R210; U1). -/
def extRead (leaf : Config.Leaf) (a : Addr) (s : State) : Result :=
  .next { (s.sending (.extRead leaf a)).returning (Config.leafAnswer s.leafReads leaf a) with
    leafReads := s.leafReads + 1 }

/-- `ExtWrite(leaf, a, v)`: a recorded event; no field of the block changes (rules R207, R209). -/
def extWrite (leaf : Config.Leaf) (a : Addr) (v : Byte) (s : State) : Result :=
  .next (s.sending (.extWrite leaf a v))

/-- `ExtStep(leaf, n)`: a recorded event (rules R260, R261). -/
def State.extStep (s : State) (leaf : Config.Leaf) (n : Cycles) : State :=
  s.sending (.extStep leaf n)

/-! ### Boot ROM and ROM image -/

/-- `bootRom[off]` (rule R162); `none` past its end or without a boot ROM. -/
def bootByte (c : Config.Cartridge) (off : Nat) : Option Byte := (c.bootRom.getD [])[off]?

/-- `RomByte(p) = rom[p]` if `p < ROM_SIZE`, else `0xFF` (rule R239). -/
def romByte (c : Config.Cartridge) (p : Nat) : Byte := (c.rom[p]?).getD Config.romFallback

/-! ### The MBC1 controller, `42_mbc1.md` -/

/-- `Mbc1Accepts(a) = (a <= 0x7FFF)` (rule R230). -/
def mbc1Accepts (a : Addr) : Bool := within a 0x0000 0x7FFF

/-- RAM-enable gate (rule R231): the flag of the bank selected now, if there is such a bank. -/
def Block.ramEnWrite (ramBanks : Nat) (v : Byte) (b : Block) : Block :=
  if b.ramBankSel.toNat < ramBanks then
    { b with ramEnabled := b.ramEnabled.set b.ramBankSel.toNat (ramEnablePred v) }
  else b

/-- Low five bits of the ROM bank (rules R99, R232). -/
def Block.romLoWrite (v : Byte) (b : Block) : Block :=
  { b with romBank := (b.romBank &&& 0x60) ||| lo5 v }

/-- Bits 6 and 5 of the ROM bank (rules R99, R233). -/
def Block.bankHiRomWrite (v : Byte) (b : Block) : Block :=
  { b with romBank := (b.romBank &&& 0x1F) ||| hi2 v }

/-- External RAM bank select (rule R234); not compared with `RAM_BANKS`. -/
def Block.bankHiRamWrite (v : Byte) (b : Block) : Block := { b with ramBankSel := ramSelField v }

/-- Banking mode (rules R235, R241): the mode and nothing else. -/
def Block.modeWrite (v : Byte) (b : Block) : Block := { b with bankingMode := modeSel v }

/-- The byte of the switchable window (rules R238, R242): all seven bits of `romBank`, in both
modes; a bank at or past `ROM_BANKS` reads the fallback. -/
def romXByte (c : Config.Cartridge) (romBank : BitVec 7) (a : Addr) : Byte :=
  if c.romBanks ≤ romBank.toNat then Config.romFallback else romByte c (romPhys romBank.toNat a)

/-- `Mbc1Read(a)` (rules R94, R237, R238, R240): never an error; `0xFF` elsewhere. -/
def mbc1Read (a : Addr) (s : State) : Byte :=
  if within a 0x0000 0x3FFF then romByte s.config (rom0Phys a)
  else if within a 0x4000 0x7FFF then romXByte s.config s.block.romBank a
  else Config.romFallback

/-- `Mbc1Write(a, v)` (rules R93, R231 to R236): the register by `a[15:13]`; above `0x7FFF`
`F_MBC_ADDR`. -/
def mbc1Write (a : Addr) (v : Byte) (s : State) : Result :=
  if within a 0x0000 0x1FFF then writeBlock (s.block.ramEnWrite s.config.ramBanks v) s
  else if within a 0x2000 0x3FFF then writeBlock (s.block.romLoWrite v) s
  else if within a 0x4000 0x5FFF then
    match s.block.bankingMode with
    | .rom16KRam8K => writeBlock (s.block.bankHiRomWrite v) s
    | .rom4MRam32K => writeBlock (s.block.bankHiRamWrite v) s
  else if mbc1Accepts a then writeBlock (s.block.modeWrite v) s
  else raiseFault (.mbcAddr a)

/-! ### Register files of one rule -/

/-- `undoc[a]` (rule R33). -/
def UndocBytes.get (u : UndocBytes) : Config.UndocReg → Byte
  | .ff6c => u.ff6c
  | .ff72 => u.ff72
  | .ff73 => u.ff73
  | .ff74 => u.ff74
  | .ff75 => u.ff75
  | .ff76 => u.ff76
  | .ff77 => u.ff77

/-- `undoc[a] <- v` (rule R187). -/
def UndocBytes.set (u : UndocBytes) (r : Config.UndocReg) (v : Byte) : UndocBytes :=
  match r with
  | .ff6c => { u with ff6c := v }
  | .ff72 => { u with ff72 := v }
  | .ff73 => { u with ff73 := v }
  | .ff74 => { u with ff74 := v }
  | .ff75 => { u with ff75 := v }
  | .ff76 => { u with ff76 := v }
  | .ff77 => { u with ff77 := v }

/-- `hdma[n]` (rule R32). -/
def HdmaBytes.get (h : HdmaBytes) : Config.HdmaReg → Byte
  | .hdma1 => h.hdma1
  | .hdma2 => h.hdma2
  | .hdma3 => h.hdma3
  | .hdma4 => h.hdma4

/-- `hdma[n] <- v` (rule R203). -/
def HdmaBytes.set (h : HdmaBytes) (n : Config.HdmaReg) (v : Byte) : HdmaBytes :=
  match n with
  | .hdma1 => { h with hdma1 := v }
  | .hdma2 => { h with hdma2 := v }
  | .hdma3 => { h with hdma3 := v }
  | .hdma4 => { h with hdma4 := v }

/-- `s.undoc[a] <- v` (rule R187). -/
def writeUndoc (r : Config.UndocReg) (v : Byte) (s : State) : Result :=
  writeBlock { s.block with undoc := s.block.undoc.set r v } s

/-- `s.hdma[n] <- v` (rule R203). -/
def writeHdma (n : Config.HdmaReg) (v : Byte) (s : State) : Result :=
  writeBlock { s.block with hdma := s.block.hdma.set n v } s

/-- What an undocumented register reads back: OR-masked for five of them (rule R185), `0x00` for
`0xFF76` and `0xFF77` whatever was written (rule R186). -/
def UndocBytes.readBack (p : Config.Params) (u : UndocBytes) : Config.UndocReg → Byte
  | .ff6c => u.ff6c ||| p.undocOrFF6C
  | .ff72 => u.ff72 ||| p.undocOrFF72
  | .ff73 => u.ff73 ||| p.undocOrFF73
  | .ff74 => u.ff74 ||| p.undocOrFF74
  | .ff75 => u.ff75 ||| p.undocOrFF75
  | .ff76 => Config.undocZeroRead
  | .ff77 => Config.undocZeroRead

/-! ### Outputs of the block -/

/-- The output `s.hdma[1..4]` to the HDMA5 leaf (rule R204). -/
def State.hdmaOutput (s : State) : HdmaBytes := s.block.hdma

/-- The output `s.ie` to the interrupt logic outside (rule R277). -/
def State.ieOutput (s : State) : Byte := s.block.ie

/-- External RAM as a save file would hold it, bank after bank (rules R246, R268 (d), R303). -/
def State.saveImage (s : State) : List Byte :=
  (List.range (RamArray.size s.config.ramBanks .extRam)).map (s.cell .extRam)

/-! ### Presenting transactions -/

/-- A transaction presented before everything else that is to come (rule R60). -/
def State.present (s : State) (t : Transaction) : State := { s with inputs := .txn t :: s.inputs }

/-- A record word presented as the next transaction; a word that is no record presents nothing. -/
def State.presentWord (s : State) (w : RecordWord) : State :=
  match decodeRecord s.params w with
  | .ok t => s.present t
  | .error _ => s

/-- The state once its first input has been taken. -/
def State.taken (s : State) : State := { s with inputs := s.inputs.tail }

end Sys2Proof.Machine
end

