-- ==== Sys2Proof/Machine/FixedRegions.lean ====
section
/-! DEFINITION. Meanings of the regions that hold nothing of their own: the sentinel, the boot
overlay, the DMG form of `0xFEA0-0xFEFF` and the filler (`41_regions.md` parts 1, 2, 5, 9). -/

namespace Sys2Proof.Machine

/-- `RD.UNACC` (rule R160). -/
def execRdUnacc (_a : Addr) (_m : Snapshot) (s : State) : Result :=
  readByte s.params.sentinelValue s

/-- `WR.UNACC` (rule R161). -/
def execWrUnacc (_a : Addr) (_v : Byte) (_m : Snapshot) (s : State) : Result := ignoreWrite s

/-- `RD.BOOTROM` (rule R162); resolution keeps the index in bounds (rule R128). -/
def execRdBootRom (a : Addr) (_m : Snapshot) (s : State) : Result :=
  match bootByte s.config a.toNat with
  | some b => readByte b s
  | none => raiseFault (.unmapped a)

/-- `WR.BOOTROM` (rule R163): the write does not reach the cartridge. -/
def execWrBootRom (_a : Addr) (_v : Byte) (_m : Snapshot) (s : State) : Result := ignoreWrite s

/-- `RD.EMPTY0D` (rule R177). -/
def execRdEmpty0D (_a : Addr) (_m : Snapshot) (s : State) : Result :=
  readByte Config.empty0dRead s

/-- `WR.EMPTY0D` (rule R178). -/
def execWrEmpty0D (_a : Addr) (_v : Byte) (_m : Snapshot) (s : State) : Result := ignoreWrite s

/-- `RD.EMPTY1` (rule R188). -/
def execRdEmpty1 (_a : Addr) (_m : Snapshot) (s : State) : Result := readByte Config.empty1Read s

/-- `WR.EMPTY1` (rule R189). -/
def execWrEmpty1 (_a : Addr) (_v : Byte) (_m : Snapshot) (s : State) : Result := ignoreWrite s

end Sys2Proof.Machine
end

