-- ==== Sys2Proof/Machine/Leaves.lean ====
section
/-! DEFINITION. Meanings of the instructions that forward to external leaves (`41_regions.md` part
11) and of the two step transactions (`43_system_ops.md` part 1). No field of the block changes. -/

namespace Sys2Proof.Machine

/-- `RD.SPEED` (rule R206). -/
def execRdSpeed (a : Addr) (_m : Snapshot) (s : State) : Result := extRead .speed a s

/-- `WR.SPEED` (rule R207). -/
def execWrSpeed (a : Addr) (v : Byte) (_m : Snapshot) (s : State) : Result := extWrite .speed a v s

/-- `RD.INFRARED` (rule R206). -/
def execRdInfrared (a : Addr) (_m : Snapshot) (s : State) : Result := extRead .infrared a s

/-- `WR.INFRARED` (rule R207). -/
def execWrInfrared (a : Addr) (v : Byte) (_m : Snapshot) (s : State) : Result := extWrite .infrared a v s

/-- `RD.BGPI` (rule R206). -/
def execRdBgpi (a : Addr) (_m : Snapshot) (s : State) : Result := extRead .bgpi a s

/-- `WR.BGPI` (rule R207). -/
def execWrBgpi (a : Addr) (v : Byte) (_m : Snapshot) (s : State) : Result := extWrite .bgpi a v s

/-- `RD.BGPD` (rule R206). -/
def execRdBgpd (a : Addr) (_m : Snapshot) (s : State) : Result := extRead .bgpd a s

/-- `WR.BGPD` (rule R207). -/
def execWrBgpd (a : Addr) (v : Byte) (_m : Snapshot) (s : State) : Result := extWrite .bgpd a v s

/-- `RD.OBPI` (rule R206). -/
def execRdObpi (a : Addr) (_m : Snapshot) (s : State) : Result := extRead .obpi a s

/-- `WR.OBPI` (rule R207). -/
def execWrObpi (a : Addr) (v : Byte) (_m : Snapshot) (s : State) : Result := extWrite .obpi a v s

/-- `RD.OBPD` (rule R206). -/
def execRdObpd (a : Addr) (_m : Snapshot) (s : State) : Result := extRead .obpd a s

/-- `WR.OBPD` (rule R207). -/
def execWrObpd (a : Addr) (v : Byte) (_m : Snapshot) (s : State) : Result := extWrite .obpd a v s

/-- `RD.HDMA5` (rule R206). -/
def execRdHdma5 (a : Addr) (_m : Snapshot) (s : State) : Result := extRead .hdma5 a s

/-- `WR.HDMA5` (rule R207). -/
def execWrHdma5 (a : Addr) (v : Byte) (_m : Snapshot) (s : State) : Result := extWrite .hdma5 a v s

/-- `RD.IOPORT` (rule R208). -/
def execRdIoPort (a : Addr) (_m : Snapshot) (s : State) : Result :=
  extRead (.ioPort (ioPortIndex a)) a s

/-- `WR.IOPORT` (rule R209). -/
def execWrIoPort (a : Addr) (v : Byte) (_m : Snapshot) (s : State) : Result :=
  extWrite (.ioPort (ioPortIndex a)) a v s

/-- `STEP n` (rule R260): the DMA leaf, then the HDMA5 leaf, in every mode. -/
def execStep (n : Cycles) (s : State) : Result := .next ((s.extStep .dma n).extStep .hdma5 n)

/-- `STEPT n` (rule R261): the timer leaf. -/
def execStept (n : Cycles) (s : State) : Result := .next (s.extStep .timer n)

end Sys2Proof.Machine
end

