-- ==== Sys2Proof/Machine/Mbc1.lean ====
section
/-! DEFINITION. Meanings of the instructions that reach the MBC1 controller: the two cartridge reads
and the five register writes (`42_mbc1.md`). -/

namespace Sys2Proof.Machine

/-- `RD.ROM0` (rule R237): fixed bank 0, whatever the registers hold. -/
def execRdRom0 (a : Addr) (_m : Snapshot) (s : State) : Result :=
  readByte (romByte s.config (rom0Phys a)) s

/-- `RD.ROMX` (rule R238): the bank of `romBank`, in both banking modes (rule R242). -/
def execRdRomX (a : Addr) (_m : Snapshot) (s : State) : Result :=
  readByte (romXByte s.config s.block.romBank a) s

/-- `WR.RAMEN` (rule R231). -/
def execWrRamEn (_a : Addr) (v : Byte) (_m : Snapshot) (s : State) : Result :=
  writeBlock (s.block.ramEnWrite s.config.ramBanks v) s

/-- `WR.ROMLO` (rule R232). -/
def execWrRomLo (_a : Addr) (v : Byte) (_m : Snapshot) (s : State) : Result :=
  writeBlock (s.block.romLoWrite v) s

/-- `WR.BANKHI.ROM` (rule R233): chosen by resolution in mode `Rom16KRam8K`. -/
def execWrBankHiRom (_a : Addr) (v : Byte) (_m : Snapshot) (s : State) : Result :=
  writeBlock (s.block.bankHiRomWrite v) s

/-- `WR.BANKHI.RAM` (rule R234): chosen by resolution in mode `Rom4MRam32K`. -/
def execWrBankHiRam (_a : Addr) (v : Byte) (_m : Snapshot) (s : State) : Result :=
  writeBlock (s.block.bankHiRamWrite v) s

/-- `WR.MODE` (rule R235). -/
def execWrMode (_a : Addr) (v : Byte) (_m : Snapshot) (s : State) : Result :=
  writeBlock (s.block.modeWrite v) s

end Sys2Proof.Machine
end

