-- ==== Sys2Proof/Machine/RamRegions.lean ====
section
/-! DEFINITION. Meanings of the memories the block owns (`41_regions.md` parts 4, 5, 6, 9): each
reads or writes one cell, at the physical address of `30_encoding.md` rules R100 to R103. -/

namespace Sys2Proof.Machine

/-- `RD.VRAM` (rule R166): bank `vbk` in CGB mode, else `0` (rules R127, R130). -/
def execRdVram (a : Addr) (m : Snapshot) (s : State) : Result :=
  readCell .vram (vramPhys (vramBank m s.block.vbk) a) a s

/-- `WR.VRAM` (rule R167): bank `vbk` in CGB mode, else `0` (rules R127, R130). -/
def execWrVram (a : Addr) (v : Byte) (m : Snapshot) (s : State) : Result :=
  writeCell .vram (vramPhys (vramBank m s.block.vbk) a) a v s

/-- `RD.EXTRAM` (rule R168): the selected bank (rule R131). -/
def execRdExtRam (a : Addr) (_m : Snapshot) (s : State) : Result :=
  readCell .extRam (extRamPhys s.block.ramBankSel.toNat a) a s

/-- `WR.EXTRAM` (rule R169): the selected bank (rule R131). -/
def execWrExtRam (a : Addr) (v : Byte) (_m : Snapshot) (s : State) : Result :=
  writeCell .extRam (extRamPhys s.block.ramBankSel.toNat a) a v s

/-- `RD.IRAM` (rule R170): the echo names the same cell (rules R132 to R135). -/
def execRdIram (a : Addr) (_m : Snapshot) (s : State) : Result :=
  readCell .iram (iramOff a) a s

/-- `WR.IRAM` (rule R171): the echo names the same cell (rules R132 to R135). -/
def execWrIram (a : Addr) (v : Byte) (_m : Snapshot) (s : State) : Result :=
  writeCell .iram (iramOff a) a v s

/-- `RD.WRAM0` (rule R172): bank 0 (rules R132, R134). -/
def execRdWram0 (a : Addr) (_m : Snapshot) (s : State) : Result :=
  readCell .wram (wramPhys 0 a) a s

/-- `WR.WRAM0` (rule R173): bank 0 (rules R132, R134). -/
def execWrWram0 (a : Addr) (v : Byte) (_m : Snapshot) (s : State) : Result :=
  writeCell .wram (wramPhys 0 a) a v s

/-- `RD.WRAMX` (rule R172): bank `WramBank(svbk)` (rules R133, R135). -/
def execRdWramX (a : Addr) (_m : Snapshot) (s : State) : Result :=
  readCell .wram (wramPhys (wramBank s.block.svbk) a) a s

/-- `WR.WRAMX` (rule R173): bank `WramBank(svbk)` (rules R133, R135). -/
def execWrWramX (a : Addr) (v : Byte) (_m : Snapshot) (s : State) : Result :=
  writeCell .wram (wramPhys (wramBank s.block.svbk) a) a v s

/-- `RD.OAM` (rule R174): offset `addr - 0xFE00`. -/
def execRdOam (a : Addr) (_m : Snapshot) (s : State) : Result :=
  readCell .oam (oamOff a) a s

/-- `WR.OAM` (rule R175): offset `addr - 0xFE00`. -/
def execWrOam (a : Addr) (v : Byte) (_m : Snapshot) (s : State) : Result :=
  writeCell .oam (oamOff a) a v s

/-- `RD.EMPTY0C` (rule R179): folded by rule R103. -/
def execRdEmpty0C (a : Addr) (_m : Snapshot) (s : State) : Result :=
  readCell .empty0 (empty0Fold s.params.empty0FoldPeriod (empty0Off a)) a s

/-- `WR.EMPTY0C` (rule R180): folded by rule R103. -/
def execWrEmpty0C (a : Addr) (v : Byte) (_m : Snapshot) (s : State) : Result :=
  writeCell .empty0 (empty0Fold s.params.empty0FoldPeriod (empty0Off a)) a v s

/-- `RD.WAVE` (rule R181): offset `addr - 0xFF30`. -/
def execRdWave (a : Addr) (_m : Snapshot) (s : State) : Result :=
  readCell .wave (waveOff a) a s

/-- `WR.WAVE` (rule R182): offset `addr - 0xFF30`. -/
def execWrWave (a : Addr) (v : Byte) (_m : Snapshot) (s : State) : Result :=
  writeCell .wave (waveOff a) a v s

/-- `RD.HRAM` (rule R190): offset `addr - 0xFF80`. -/
def execRdHram (a : Addr) (_m : Snapshot) (s : State) : Result :=
  readCell .hram (hramOff a) a s

/-- `WR.HRAM` (rule R191): offset `addr - 0xFF80`. -/
def execWrHram (a : Addr) (v : Byte) (_m : Snapshot) (s : State) : Result :=
  writeCell .hram (hramOff a) a v s

end Sys2Proof.Machine
end

