-- ==== Sys2Proof/Machine/Registers.lean ====
section
/-! DEFINITION. Meanings of the registers the decoder holds: boot register, undocumented registers,
interrupt enable, the two bank selects and `HDMA1` to `HDMA4` (`41_regions.md` parts 7 to 10). -/

namespace Sys2Proof.Machine

/-- `RD.BOOTREG` (rule R183). -/
def execRdBootReg (_a : Addr) (_m : Snapshot) (s : State) : Result :=
  readByte s.params.bootRegRead s

/-- `WR.BOOTREG` (rule R184): bit 0 sets the latch; nothing clears it. -/
def execWrBootReg (_a : Addr) (v : Byte) (_m : Snapshot) (s : State) : Result :=
  if bootOffBit v then writeBlock { s.block with bootOff := true } s else ignoreWrite s

/-- `RD.UNDOC_FF6C` (rule R185). -/
def execRdUndocFF6C (_a : Addr) (_m : Snapshot) (s : State) : Result :=
  readByte (s.block.undoc.readBack s.params .ff6c) s

/-- `WR.UNDOC_FF6C` (rule R187). -/
def execWrUndocFF6C (_a : Addr) (v : Byte) (_m : Snapshot) (s : State) : Result :=
  writeUndoc .ff6c v s

/-- `RD.UNDOC_FF72` (rule R185). -/
def execRdUndocFF72 (_a : Addr) (_m : Snapshot) (s : State) : Result :=
  readByte (s.block.undoc.readBack s.params .ff72) s

/-- `WR.UNDOC_FF72` (rule R187). -/
def execWrUndocFF72 (_a : Addr) (v : Byte) (_m : Snapshot) (s : State) : Result :=
  writeUndoc .ff72 v s

/-- `RD.UNDOC_FF73` (rule R185). -/
def execRdUndocFF73 (_a : Addr) (_m : Snapshot) (s : State) : Result :=
  readByte (s.block.undoc.readBack s.params .ff73) s

/-- `WR.UNDOC_FF73` (rule R187). -/
def execWrUndocFF73 (_a : Addr) (v : Byte) (_m : Snapshot) (s : State) : Result :=
  writeUndoc .ff73 v s

/-- `RD.UNDOC_FF74` (rule R185). -/
def execRdUndocFF74 (_a : Addr) (_m : Snapshot) (s : State) : Result :=
  readByte (s.block.undoc.readBack s.params .ff74) s

/-- `WR.UNDOC_FF74` (rule R187). -/
def execWrUndocFF74 (_a : Addr) (v : Byte) (_m : Snapshot) (s : State) : Result :=
  writeUndoc .ff74 v s

/-- `RD.UNDOC_FF75` (rule R185). -/
def execRdUndocFF75 (_a : Addr) (_m : Snapshot) (s : State) : Result :=
  readByte (s.block.undoc.readBack s.params .ff75) s

/-- `WR.UNDOC_FF75` (rule R187). -/
def execWrUndocFF75 (_a : Addr) (v : Byte) (_m : Snapshot) (s : State) : Result :=
  writeUndoc .ff75 v s

/-- `RD.UNDOC_FF76` (rule R186). -/
def execRdUndocFF76 (_a : Addr) (_m : Snapshot) (s : State) : Result :=
  readByte (s.block.undoc.readBack s.params .ff76) s

/-- `WR.UNDOC_FF76` (rule R187). -/
def execWrUndocFF76 (_a : Addr) (v : Byte) (_m : Snapshot) (s : State) : Result :=
  writeUndoc .ff76 v s

/-- `RD.UNDOC_FF77` (rule R186). -/
def execRdUndocFF77 (_a : Addr) (_m : Snapshot) (s : State) : Result :=
  readByte (s.block.undoc.readBack s.params .ff77) s

/-- `WR.UNDOC_FF77` (rule R187). -/
def execWrUndocFF77 (_a : Addr) (v : Byte) (_m : Snapshot) (s : State) : Result :=
  writeUndoc .ff77 v s

/-- `RD.IE` (rule R192). -/
def execRdIe (_a : Addr) (_m : Snapshot) (s : State) : Result := readByte s.block.ie s

/-- `WR.IE` (rule R193): all eight bits are stored. -/
def execWrIe (_a : Addr) (v : Byte) (_m : Snapshot) (s : State) : Result :=
  writeBlock { s.block with ie := v } s

/-- `RD.VRAMSEL` (rule R198). -/
def execRdVramSel (_a : Addr) (_m : Snapshot) (s : State) : Result :=
  readByte (vramSelReadBack s.params s.block.vbk) s

/-- `WR.VRAMSEL` (rule R199). -/
def execWrVramSel (_a : Addr) (v : Byte) (_m : Snapshot) (s : State) : Result :=
  writeBlock { s.block with vbk := vbkField v } s

/-- `RD.WRAMSEL` (rule R200): the raw written value, not the bank used. -/
def execRdWramSel (_a : Addr) (_m : Snapshot) (s : State) : Result :=
  readByte (wramSelReadBack s.params s.block.svbk) s

/-- `WR.WRAMSEL` (rule R201). -/
def execWrWramSel (_a : Addr) (v : Byte) (_m : Snapshot) (s : State) : Result :=
  writeBlock { s.block with svbk := svbkField v } s

/-- `RD.HDMA1` (rule R202). -/
def execRdHdma1 (_a : Addr) (_m : Snapshot) (s : State) : Result := readByte Config.hdmaRead s

/-- `WR.HDMA1` (rule R203). -/
def execWrHdma1 (_a : Addr) (v : Byte) (_m : Snapshot) (s : State) : Result :=
  writeHdma .hdma1 v s

/-- `RD.HDMA2` (rule R202). -/
def execRdHdma2 (_a : Addr) (_m : Snapshot) (s : State) : Result := readByte Config.hdmaRead s

/-- `WR.HDMA2` (rule R203). -/
def execWrHdma2 (_a : Addr) (v : Byte) (_m : Snapshot) (s : State) : Result :=
  writeHdma .hdma2 v s

/-- `RD.HDMA3` (rule R202). -/
def execRdHdma3 (_a : Addr) (_m : Snapshot) (s : State) : Result := readByte Config.hdmaRead s

/-- `WR.HDMA3` (rule R203). -/
def execWrHdma3 (_a : Addr) (v : Byte) (_m : Snapshot) (s : State) : Result :=
  writeHdma .hdma3 v s

/-- `RD.HDMA4` (rule R202). -/
def execRdHdma4 (_a : Addr) (_m : Snapshot) (s : State) : Result := readByte Config.hdmaRead s

/-- `WR.HDMA4` (rule R203). -/
def execWrHdma4 (_a : Addr) (v : Byte) (_m : Snapshot) (s : State) : Result :=
  writeHdma .hdma4 v s

end Sys2Proof.Machine
end

