-- ==== Sys2Proof/Machine/Dispatch.lean ====
section
/-! DEFINITION. The dispatch: one arm per constructor of `Instr`, one direct call of its meaning. -/

namespace Sys2Proof.Machine

def exec (i : Instr) (s : State) : Host.Outcome State Fault Refusal :=
  match i with
  | .rdSpeed a m => Sys2Proof.Machine.execRdSpeed a m s
  | .wrSpeed a v m => Sys2Proof.Machine.execWrSpeed a v m s
  | .rdInfrared a m => Sys2Proof.Machine.execRdInfrared a m s
  | .wrInfrared a v m => Sys2Proof.Machine.execWrInfrared a v m s
  | .rdWramSel a m => Sys2Proof.Machine.execRdWramSel a m s
  | .wrWramSel a v m => Sys2Proof.Machine.execWrWramSel a v m s
  | .rdBgpi a m => Sys2Proof.Machine.execRdBgpi a m s
  | .wrBgpi a v m => Sys2Proof.Machine.execWrBgpi a v m s
  | .rdUnacc a m => Sys2Proof.Machine.execRdUnacc a m s
  | .wrUnacc a v m => Sys2Proof.Machine.execWrUnacc a v m s
  | .rdBgpd a m => Sys2Proof.Machine.execRdBgpd a m s
  | .wrBgpd a v m => Sys2Proof.Machine.execWrBgpd a v m s
  | .rdObpi a m => Sys2Proof.Machine.execRdObpi a m s
  | .wrObpi a v m => Sys2Proof.Machine.execWrObpi a v m s
  | .rdObpd a m => Sys2Proof.Machine.execRdObpd a m s
  | .wrObpd a v m => Sys2Proof.Machine.execWrObpd a v m s
  | .rdVramSel a m => Sys2Proof.Machine.execRdVramSel a m s
  | .wrVramSel a v m => Sys2Proof.Machine.execWrVramSel a v m s
  | .rdHdma1 a m => Sys2Proof.Machine.execRdHdma1 a m s
  | .wrHdma1 a v m => Sys2Proof.Machine.execWrHdma1 a v m s
  | .rdHdma2 a m => Sys2Proof.Machine.execRdHdma2 a m s
  | .wrHdma2 a v m => Sys2Proof.Machine.execWrHdma2 a v m s
  | .rdHdma3 a m => Sys2Proof.Machine.execRdHdma3 a m s
  | .wrHdma3 a v m => Sys2Proof.Machine.execWrHdma3 a v m s
  | .rdHdma4 a m => Sys2Proof.Machine.execRdHdma4 a m s
  | .wrHdma4 a v m => Sys2Proof.Machine.execWrHdma4 a v m s
  | .rdHdma5 a m => Sys2Proof.Machine.execRdHdma5 a m s
  | .wrHdma5 a v m => Sys2Proof.Machine.execWrHdma5 a v m s
  | .rdVram a m => Sys2Proof.Machine.execRdVram a m s
  | .wrVram a v m => Sys2Proof.Machine.execWrVram a v m s
  | .rdBootRom a m => Sys2Proof.Machine.execRdBootRom a m s
  | .wrBootRom a v m => Sys2Proof.Machine.execWrBootRom a v m s
  | .rdRom0 a m => Sys2Proof.Machine.execRdRom0 a m s
  | .rdRomX a m => Sys2Proof.Machine.execRdRomX a m s
  | .wrRamEn a v m => Sys2Proof.Machine.execWrRamEn a v m s
  | .wrRomLo a v m => Sys2Proof.Machine.execWrRomLo a v m s
  | .wrBankHiRom a v m => Sys2Proof.Machine.execWrBankHiRom a v m s
  | .wrBankHiRam a v m => Sys2Proof.Machine.execWrBankHiRam a v m s
  | .wrMode a v m => Sys2Proof.Machine.execWrMode a v m s
  | .rdExtRam a m => Sys2Proof.Machine.execRdExtRam a m s
  | .wrExtRam a v m => Sys2Proof.Machine.execWrExtRam a v m s
  | .rdWram0 a m => Sys2Proof.Machine.execRdWram0 a m s
  | .wrWram0 a v m => Sys2Proof.Machine.execWrWram0 a v m s
  | .rdIram a m => Sys2Proof.Machine.execRdIram a m s
  | .wrIram a v m => Sys2Proof.Machine.execWrIram a v m s
  | .rdWramX a m => Sys2Proof.Machine.execRdWramX a m s
  | .wrWramX a v m => Sys2Proof.Machine.execWrWramX a v m s
  | .rdOam a m => Sys2Proof.Machine.execRdOam a m s
  | .wrOam a v m => Sys2Proof.Machine.execWrOam a v m s
  | .rdEmpty0D a m => Sys2Proof.Machine.execRdEmpty0D a m s
  | .wrEmpty0D a v m => Sys2Proof.Machine.execWrEmpty0D a v m s
  | .rdEmpty0C a m => Sys2Proof.Machine.execRdEmpty0C a m s
  | .wrEmpty0C a v m => Sys2Proof.Machine.execWrEmpty0C a v m s
  | .rdWave a m => Sys2Proof.Machine.execRdWave a m s
  | .wrWave a v m => Sys2Proof.Machine.execWrWave a v m s
  | .rdIoPort a m => Sys2Proof.Machine.execRdIoPort a m s
  | .wrIoPort a v m => Sys2Proof.Machine.execWrIoPort a v m s
  | .rdBootReg a m => Sys2Proof.Machine.execRdBootReg a m s
  | .wrBootReg a v m => Sys2Proof.Machine.execWrBootReg a v m s
  | .rdUndocFF6C a m => Sys2Proof.Machine.execRdUndocFF6C a m s
  | .wrUndocFF6C a v m => Sys2Proof.Machine.execWrUndocFF6C a v m s
  | .rdUndocFF72 a m => Sys2Proof.Machine.execRdUndocFF72 a m s
  | .wrUndocFF72 a v m => Sys2Proof.Machine.execWrUndocFF72 a v m s
  | .rdUndocFF73 a m => Sys2Proof.Machine.execRdUndocFF73 a m s
  | .wrUndocFF73 a v m => Sys2Proof.Machine.execWrUndocFF73 a v m s
  | .rdUndocFF74 a m => Sys2Proof.Machine.execRdUndocFF74 a m s
  | .wrUndocFF74 a v m => Sys2Proof.Machine.execWrUndocFF74 a v m s
  | .rdUndocFF75 a m => Sys2Proof.Machine.execRdUndocFF75 a m s
  | .wrUndocFF75 a v m => Sys2Proof.Machine.execWrUndocFF75 a v m s
  | .rdUndocFF76 a m => Sys2Proof.Machine.execRdUndocFF76 a m s
  | .wrUndocFF76 a v m => Sys2Proof.Machine.execWrUndocFF76 a v m s
  | .rdUndocFF77 a m => Sys2Proof.Machine.execRdUndocFF77 a m s
  | .wrUndocFF77 a v m => Sys2Proof.Machine.execWrUndocFF77 a v m s
  | .rdEmpty1 a m => Sys2Proof.Machine.execRdEmpty1 a m s
  | .wrEmpty1 a v m => Sys2Proof.Machine.execWrEmpty1 a v m s
  | .rdHram a m => Sys2Proof.Machine.execRdHram a m s
  | .wrHram a v m => Sys2Proof.Machine.execWrHram a v m s
  | .rdIe a m => Sys2Proof.Machine.execRdIe a m s
  | .wrIe a v m => Sys2Proof.Machine.execWrIe a v m s
  | .step n => Sys2Proof.Machine.execStep n s
  | .stept n => Sys2Proof.Machine.execStept n s

end Sys2Proof.Machine
end

