-- ==== Sys2Proof/Machine/Step.lean ====
section
/-! DEFINITION. One step: the next input is taken (rules R60, R66, R268). A transaction is resolved
in the state before it and its instruction runs (rules R62, R63); `REPLACE` builds a new block (rule
R266); with nothing presented the block waits unchanged (rule R268). -/

namespace Sys2Proof.Machine

/-- One transaction, resolved in the state it is presented in (rules R62, R63); an address no rule
takes is `F_UNMAPPED` (rule R145). -/
def runTransaction (t : Transaction) (s : State) : Host.Outcome State Fault Refusal :=
  match select s.view t with
  | some i => exec i s
  | none => raiseFault (.unmapped t.addr)

/-- One step of the machine. -/
def step (s : State) : Host.Outcome State Fault Refusal :=
  match s.inputs with
  | [] => .next s
  | .txn t :: _ => runTransaction t s.taken
  | .replace c initMem save :: _ => .next (s.taken.replace c initMem save)

/-- `s` with the transaction of a table word presented next (log entry 2): the very next step takes
and runs it. -/
def State.withFetchWord (s : State) (nbits w : Nat) : State := s.presentWord (tableRecord nbits w)

end Sys2Proof.Machine
end

