-- ==== Sys2Proof/Machine/Port.lean ====
section
/-! DEFINITION. The access primitives of `20_memory.md` rules R62 and R63, written from their
pseudocode: `MemRead` and `MemWrite` as the region's read or write rule applied to what `Resolve`
delivers. `step` goes another way, by the instruction of the decode table; that the two agree is a
statement about the model, not part of it. -/

namespace Sys2Proof.Machine

/-- `RegionRead(region, index, off, a)`: the RD rule of the region (`41_regions.md`). -/
def regionRead (r : Region) (a : Addr) (s : State) : Result :=
  match r with
  | .unacc => readByte s.params.sentinelValue s
  | .bootRom off =>
    match bootByte s.config off with
    | some b => readByte b s
    | none => raiseFault (.unmapped a)
  | .cart _ => readByte (mbc1Read a s) s
  | .vram bank off => readCell .vram (bank * 0x2000 + off) a s
  | .extRam bank off => readCell .extRam (bank * 0x2000 + off) a s
  | .iram off => readCell .iram off a s
  | .wram bank off => readCell .wram (bank * 0x1000 + off) a s
  | .oam off => readCell .oam off a s
  | .empty0d _ => readByte Config.empty0dRead s
  | .empty0c off => readCell .empty0 (empty0Fold s.params.empty0FoldPeriod off) a s
  | .wave off => readCell .wave off a s
  | .ioPort index => extRead (.ioPort index) a s
  | .bootReg => readByte s.params.bootRegRead s
  | .undoc u => readByte (s.block.undoc.readBack s.params u) s
  | .empty1 _ => readByte Config.empty1Read s
  | .hram off => readCell .hram off a s
  | .ie => readByte s.block.ie s
  | .vramSel => readByte (vramSelReadBack s.params s.block.vbk) s
  | .wramSel => readByte (wramSelReadBack s.params s.block.svbk) s
  | .hdma _ => readByte Config.hdmaRead s
  | .speed => extRead .speed a s
  | .infrared => extRead .infrared a s
  | .bgpi => extRead .bgpi a s
  | .bgpd => extRead .bgpd a s
  | .obpi => extRead .obpi a s
  | .obpd => extRead .obpd a s
  | .hdma5 => extRead .hdma5 a s

/-- `RegionWrite(region, index, off, a, v)`: the WR rule of the region (`41_regions.md`). -/
def regionWrite (r : Region) (a : Addr) (v : Byte) (s : State) : Result :=
  match r with
  | .unacc => ignoreWrite s
  | .bootRom _ => ignoreWrite s
  | .cart _ => mbc1Write a v s
  | .vram bank off => writeCell .vram (bank * 0x2000 + off) a v s
  | .extRam bank off => writeCell .extRam (bank * 0x2000 + off) a v s
  | .iram off => writeCell .iram off a v s
  | .wram bank off => writeCell .wram (bank * 0x1000 + off) a v s
  | .oam off => writeCell .oam off a v s
  | .empty0d _ => ignoreWrite s
  | .empty0c off => writeCell .empty0 (empty0Fold s.params.empty0FoldPeriod off) a v s
  | .wave off => writeCell .wave off a v s
  | .ioPort index => extWrite (.ioPort index) a v s
  | .bootReg => if bootOffBit v then writeBlock { s.block with bootOff := true } s else ignoreWrite s
  | .undoc u => writeUndoc u v s
  | .empty1 _ => ignoreWrite s
  | .hram off => writeCell .hram off a v s
  | .ie => writeBlock { s.block with ie := v } s
  | .vramSel => writeBlock { s.block with vbk := vbkField v } s
  | .wramSel => writeBlock { s.block with svbk := svbkField v } s
  | .hdma n => writeHdma n v s
  | .speed => extWrite .speed a v s
  | .infrared => extWrite .infrared a v s
  | .bgpi => extWrite .bgpi a v s
  | .bgpd => extWrite .bgpd a v s
  | .obpi => extWrite .obpi a v s
  | .obpd => extWrite .obpd a v s
  | .hdma5 => extWrite .hdma5 a v s

/-- `MemRead(a, 1)` under `m` in `s` (rule R62). -/
def memRead (a : Addr) (m : Snapshot) (s : State) : Result :=
  match resolve s.view m a with
  | some r => regionRead r a s
  | none => raiseFault (.unmapped a)

/-- `MemWrite(a, 1, v)` under `m` in `s`: resolved in the state before the write (rule R63). -/
def memWrite (a : Addr) (v : Byte) (m : Snapshot) (s : State) : Result :=
  match resolve s.view m a with
  | some r => regionWrite r a v s
  | none => raiseFault (.unmapped a)

end Sys2Proof.Machine
end

