-- ==== Sys2Proof/Safety.lean ====
section
/-! DEFINITION. The terms claims are made in: what step 1 and the overlay leave to the common table,
the cell and the leaf of a region, the invariant of the state, what an instruction stores to, and what
it means that a transaction stored one byte and changed nothing else. -/

namespace Sys2Proof

/-- Step 1 takes no such address under the snapshot: in CGB mode it is none of the thirteen of rule R8
(rules R122 to R126). Out of CGB mode every address is free. -/
abbrev Config.Params.Free (p : Config.Params) (m : Snapshot) (a : Addr) : Prop :=
  m.inCGBMode = true → a ∉ p.cgbAddrs

/-- The RAM cell of a region, by the physical addresses of rule R49; `none` for a region that is no
RAM. -/
def Region.cell (p : Config.Params) : Region → Option (Machine.RamArray × Nat)
  | .vram bank off => some (.vram, bank * 0x2000 + off)
  | .extRam bank off => some (.extRam, bank * 0x2000 + off)
  | .iram off => some (.iram, off)
  | .wram bank off => some (.wram, bank * 0x1000 + off)
  | .oam off => some (.oam, off)
  | .empty0c off => some (.empty0, empty0Fold p.empty0FoldPeriod off)
  | .wave off => some (.wave, off)
  | .hram off => some (.hram, off)
  | _ => none

/-- The external leaf a region forwards to (rules R206 to R210); `none` for a region of the block's
own. -/
def Region.leaf : Region → Option Config.Leaf
  | .speed => some .speed
  | .infrared => some .infrared
  | .bgpi => some .bgpi
  | .bgpd => some .bgpd
  | .obpi => some .obpi
  | .obpd => some .obpd
  | .hdma5 => some .hdma5
  | .ioPort index => some (.ioPort index)
  | _ => none

/-- The index and offset ranges of rule R147. -/
def Region.inBounds (v : View) : Region → Bool
  | .bootRom off => decide (off < v.bootSize)
  | .cart off => decide (off ≤ 0x7FFF)
  | .vram bank off => decide (bank ≤ 1 ∧ off ≤ 0x1FFF)
  | .extRam bank off => decide (bank < v.ramBanks ∧ off ≤ 0x1FFF)
  | .iram off => decide (off ≤ 0x1FFF)
  | .wram bank off => decide (bank ≤ 7 ∧ off ≤ 0xFFF)
  | .oam off => decide (off ≤ 0x9F)
  | .empty0d off => decide (off ≤ 0x5F)
  | .empty0c off => decide (off ≤ 0x5F)
  | .wave off => decide (off ≤ 0xF)
  | .ioPort index => decide (index ≤ 0x4B)
  | .empty1 off => decide (off ≤ 0x33)
  | .hram off => decide (off ≤ 0x7E)
  | _ => true

end Sys2Proof

namespace Sys2Proof.Machine

/-- An array holds only cells it has, in canonical form. -/
def Rams.Good (ramBanks : Nat) (r : Rams) : Prop :=
  ∀ x : RamArray, (r.get x).wf ∧ (r.get x).bounded (x.size ramBanks)

/-- The invariant of the machine: every array is canonical and within its bounds, there is one
enable flag per external RAM bank (rule R24), and `romBank[4:0]` is never `0` (rule R25 (a)). -/
def State.Inv (s : State) : Prop :=
  s.block.rams.Good s.config.ramBanks
  ∧ s.block.ramEnabled.length = s.config.ramBanks
  ∧ s.block.romBank.toNat % 32 ≠ 0

/-- The RAM cell an instruction stores to, computed as its meaning computes it; `none` for every
instruction that stores to no RAM cell. -/
def storesTo (s : State) : Instr → Option (RamArray × Nat)
  | .wrVram a _ m => some (.vram, vramPhys (vramBank m s.block.vbk) a)
  | .wrExtRam a _ _ => some (.extRam, extRamPhys s.block.ramBankSel.toNat a)
  | .wrIram a _ _ => some (.iram, iramOff a)
  | .wrWram0 a _ _ => some (.wram, wramPhys 0 a)
  | .wrWramX a _ _ => some (.wram, wramPhys (wramBank s.block.svbk) a)
  | .wrOam a _ _ => some (.oam, oamOff a)
  | .wrEmpty0C a _ _ => some (.empty0, empty0Fold s.params.empty0FoldPeriod (empty0Off a))
  | .wrWave a _ _ => some (.wave, waveOff a)
  | .wrHram a _ _ => some (.hram, hramOff a)
  | _ => none

/-- From `s` to `t` the byte `v` was stored in cell `k` of array `x` and nothing else changed: that
cell reads `v`, every other cell of every array reads as before, and every register, the
configuration, the inputs and the observations are as before. -/
def StoredOnly (s t : State) (x : RamArray) (k : Nat) (v : Byte) : Prop :=
  (∀ y j, t.cell y j = if y = x ∧ j = k then v else s.cell y j)
  ∧ t = { s with block := { s.block with rams := t.block.rams } }

/-- The RAM cell a transaction at `a` reaches in state `s` under snapshot `m`; `none` where it
reaches no RAM (rules R49, R75, R76). -/
def State.reaches (s : State) (m : Snapshot) (a : Addr) : Option (RamArray × Nat) :=
  (resolve s.view m a).bind (Region.cell s.params)

/-- No boot overlay covers the address (rules R128, R129): not booting, the latch set, past the boot
ROM (which has no byte where there is none), or in the cartridge header. -/
abbrev State.Uncovered (s : State) (m : Snapshot) (a : Addr) : Prop :=
  m.bootingActive = false ∨ s.block.bootOff = true ∨ s.config.bootSize ≤ a.toNat
    ∨ 0x0100 ≤ a.toNat ∧ a.toNat ≤ 0x01FF

/-- Nothing but bus transactions is presented: no `REPLACE` (rule R266) among the inputs. -/
def State.OnlyTransactions (s : State) : Prop := ∀ i ∈ s.inputs, ∃ t, i = Input.txn t

end Sys2Proof.Machine
end

