-- ==== Sys2Proof/Certificates/Slice0/Obligations.lean ====
section
/-! DEFINITION. The statements for the provers. Conditions are on addresses as numbers and on the
fields the rules name; memory is read through `State.cell`, and `s.present t` is `s` with the
transaction `t` presented next. Statements hold for every instantiation of the parameters of rules R7
to R9 that rule R8 and log entry 22 allow (`Params.Valid`); an address of the common table is `Free`
where no CGB-mode register was put at it (rule R8). Where a statement rests on a choice of the model or
on a decision of the spec, its docstring says so. -/

open Sys2Proof Sys2Proof.Machine

/-! ### Encoding and decoding -/

/-- Words written out from the record layout (log entry 1) decode to the transaction they stand for:
one of each format, and rows of six families (rules R90, R91, R109). That `WRAMSEL` is at `0xFF70` is log
entry 5 (rule R8, decision D5), the codes of the modes are log entry 6 (rule R7, decision D18), the
latch that is off at `0xFF50` is decision D8 (log entries 11, 13). -/
def Obligations.WrittenWordsDecode : Prop :=
  decode View.reset 0x0000004000#40 = .ok (.rdRomX 0x4000 ⟨false, false, false, .mode0⟩)
  ∧ decode View.reset 0x0100202000#40 = .ok (.wrRomLo 0x2000 0x20 ⟨false, false, false, .mode0⟩)
  ∧ decode View.reset 0x000D5A8000#40 = .error .reservedBits
  ∧ decode View.reset 0x4D005A8000#40 = .ok (.wrVram 0x8000 0x5A ⟨true, true, false, .mode2⟩)
  ∧ decode View.reset 0x600000FE00#40 = .ok (.rdUnacc 0xFE00 ⟨false, false, false, .mode3⟩)
  ∧ decode View.reset 0x8000004000#40 = .error .reservedBits
  ∧ decode View.reset 0x110001FF50#40 = .ok (.wrBootReg 0xFF50 0x01 ⟨false, false, true, .mode0⟩)
  ∧ decode View.reset 0x0C0000FF70#40 = .ok (.rdWramSel 0xFF70 ⟨true, true, false, .mode0⟩)
  ∧ decode View.reset 0x0200000004#40 = .ok (.step 4)
  ∧ decode View.reset 0x03FFFFFFFF#40 = .ok (.stept 0xFFFFFFFF)

/-- The decoder gives back every well-formed instruction from its own word, with every operand at
every value, whatever the parameters are (rules R90, R106, R109; the layout of the word is log
entry 1). -/
def Obligations.DecodeOfEncode : Prop :=
  ∀ (v : View) (i : Instr), v.params.Valid → i.wf v = true → decode v (encode v.params i) = .ok i

/-- What decodes is well formed and is encoded as the very word it was decoded from: a word has one
meaning, whatever the parameters are (rules R90, R106; the layout of the word is log entry 1). -/
def Obligations.EncodeOfDecode : Prop :=
  ∀ (v : View) (w : RecordWord) (i : Instr), v.params.Valid → decode v w = .ok i →
    i.wf v = true ∧ encode v.params i = w

/-- For every transaction and every view exactly one instruction of the decode table takes it (rule
R106: "exactly one exists for every `A`, every mode snapshot and every state"). -/
def Obligations.OneInstructionPerTransaction : Prop :=
  ∀ (v : View) (t : Transaction), v.params.Valid → ∃ i : Instr, (i.wf v = true ∧ i.transaction = t)
    ∧ ∀ j : Instr, j.wf v = true ∧ j.transaction = t → j = i

/-! ### Resolution -/

/-- Resolution is total and delivers an index and an offset in the ranges of rule R147 (rules R120,
R146, R147). -/
def Obligations.ResolutionTotalAndInBounds : Prop :=
  ∀ (v : View) (m : Snapshot) (a : Addr), ∃ r, resolve v m a = some r ∧ r.inBounds v = true

/-- In CGB mode each of the thirteen register addresses, wherever the parameters put it, is its
register; out of it each that lies in the filler's range is filler (rules R8, R122 to R126, R148). The
default addresses are allowed, and all lie in that range (rule R8; they are log entry 5). -/
def Obligations.CgbRegistersOnlyInCgbMode : Prop :=
  (∀ (v : View) (m : Snapshot) (p : Config.Params), v.params = p → p.Valid →
    (m.inCGBMode = true →
      resolve v m p.addrSpeed = some .speed ∧ resolve v m p.addrVramSel = some .vramSel
      ∧ resolve v m p.addrHdma1 = some (.hdma .hdma1) ∧ resolve v m p.addrHdma2 = some (.hdma .hdma2)
      ∧ resolve v m p.addrHdma3 = some (.hdma .hdma3) ∧ resolve v m p.addrHdma4 = some (.hdma .hdma4)
      ∧ resolve v m p.addrHdma5 = some .hdma5 ∧ resolve v m p.addrInfrared = some .infrared
      ∧ resolve v m p.addrBgpi = some .bgpi ∧ resolve v m p.addrObpi = some .obpi
      ∧ resolve v m p.addrWramSel = some .wramSel
      ∧ resolve v m p.addrBgpd = some (if m.videoMode = .mode3 then .unacc else .bgpd)
      ∧ resolve v m p.addrObpd = some (if m.videoMode = .mode3 then .unacc else .obpd))
    ∧ (m.inCGBMode = false → ∀ r a, a = p.addrOf r → 0xFF4C ≤ a.toNat → a.toNat ≤ 0xFF7F →
      resolve v m a = some (.empty1 (a.toNat - 0xFF4C))))
  ∧ ∀ d : Config.Params, d = Config.Params.default →
    d.Valid ∧ (∀ r, 0xFF4C ≤ (d.addrOf r).toNat ∧ (d.addrOf r).toNat ≤ 0xFF7F)
    ∧ d.addrSpeed = 0xFF4D ∧ d.addrVramSel = 0xFF4F ∧ d.addrHdma1 = 0xFF51 ∧ d.addrHdma2 = 0xFF52
    ∧ d.addrHdma3 = 0xFF53 ∧ d.addrHdma4 = 0xFF54 ∧ d.addrHdma5 = 0xFF55 ∧ d.addrInfrared = 0xFF56
    ∧ d.addrBgpi = 0xFF68 ∧ d.addrBgpd = 0xFF69 ∧ d.addrObpi = 0xFF6A ∧ d.addrObpd = 0xFF6B
    ∧ d.addrWramSel = 0xFF70

/-- No boot ROM is a legal configuration: no address is ever under an overlay, the cartridge answers
its whole window, and the boot register still exists while booting (rule R275; the latch is decision
D8, log entry 13). -/
def Obligations.NoBootRomIsLegal : Prop :=
  ∀ (s : State) (m : Snapshot) (a : Addr), s.params.Valid → s.config.bootRom = none →
    (∀ off, resolve s.view m a ≠ some (.bootRom off))
    ∧ (a.toNat ≤ 0x7FFF → s.params.Free m a → resolve s.view m a = some (.cart a.toNat))
    ∧ (m.bootingActive = true → s.block.bootOff = false → resolve s.view m 0xFF50 = some .bootReg)

/-- Two bus addresses reach one cell in the cases of rule R76 and no others: under one snapshot and
state, only the echo and the fold; and a banked work RAM address under two values of `svbk` only
where the values are equal or `0` and `1`. That the flat and the banked work RAM share no cell is
decision D16 (rule R48, log entry 17); the fold is decision D3, and its period, `16` by default, is
log entry 7; that the fold's flag is `isCGB` is decision D4 (log entry 12). -/
def Obligations.AliasesExactly : Prop :=
  (∀ (s : State) (m : Snapshot) (a b : Addr), a.toNat < b.toNat →
    ((∃ c, s.reaches m a = some c ∧ s.reaches m b = some c) ↔
      s.params.Free m a ∧ s.params.Free m b
      ∧ ((0xC000 ≤ a.toNat ∧ a.toNat ≤ 0xDDFF ∧ b.toNat = a.toNat + 0x2000)
        ∨ (m.isCGB = true ∧ 0xFEC0 ≤ a.toNat ∧ b.toNat ≤ 0xFEFF
          ∧ (a.toNat - 0xFEC0) % s.params.empty0FoldPeriod
            = (b.toNat - 0xFEC0) % s.params.empty0FoldPeriod))))
  ∧ (∀ (s : State) (x : BitVec 3) (m : Snapshot) (a : Addr), m.inCGBMode = true →
      s.params.Free m a →
      (0xD000 ≤ a.toNat ∧ a.toNat ≤ 0xDFFF ∨ 0xF000 ≤ a.toNat ∧ a.toNat ≤ 0xFDFF) →
      (s.reaches m a = (s.withBlock { s.block with svbk := x }).reaches m a ↔
        s.block.svbk = x ∨ (s.block.svbk.toNat ≤ 1 ∧ x.toNat ≤ 1)))

/-! ### Steps -/

/-- A step runs the decoded instruction: where the next input is a transaction and decoding selects
`i` for it in the state it is presented in, the step is `exec i` in that state with the transaction
taken off the inputs; a word presented, or a table word placed by `withFetchWord`, is that
transaction; with nothing presented the state is as it was (rules R60, R62, R63, R106, R268;
presenting words is log entries 1 and 2, waiting is log entry 15). -/
def Obligations.StepRunsDecodedInstruction : Prop :=
  (∀ (s : State) (i : Instr),
    (∀ t rest, s.inputs = .txn t :: rest → select s.view t = some i →
      step s = exec i { s with inputs := rest })
    ∧ (∀ w, decode s.view w = .ok i → step (s.presentWord w) = exec i s)
    ∧ (∀ nbits w, decode s.view (tableRecord nbits w) = .ok i →
        step (s.withFetchWord nbits w) = exec i s))
  ∧ ∀ s : State, s.inputs = [] → step s = .next s

/-- The access primitives: a `RD` is `MemRead` and a `WR` is `MemWrite`, each resolved in the state
before it and then the region's own rule; a read changes no field of the block (rules R62, R63). -/
def Obligations.PortIsMemReadAndMemWrite : Prop :=
  ∀ (s : State) (a : Addr) (v : Byte) (m : Snapshot),
    step (s.present (.rd a m)) = memRead a m s
    ∧ step (s.present (.wr a v m)) = memWrite a v m s
    ∧ ∀ t, memRead a m s = .next t → t.block = s.block

/-- No step stops: in every state, whatever is presented, a step answers a next state. So neither
fault is reached through the port (rules R146, R268, R271, R280). The premise on the parameters is
kept by every step (`StepKeepsInvariant`); it keeps the fold inside the cells of rule R43 (log entry
22). -/
def Obligations.NoStepStops : Prop :=
  ∀ s : State, s.params.Valid → ∃ t, step s = .next t

/-- A run takes every input presented to it and ends with none: whatever finite sequence of
transactions and replacements is presented (rules R66, R72, R268). -/
def Obligations.RunTakesEveryInput : Prop :=
  ∀ s : State, s.params.Valid → ∃ t, core.run s.inputs.length s = .next t ∧ t.inputs = []

/-- What every step keeps: canonical and bounded arrays, one enable flag for each external RAM bank
(rule R24), `romBank[4:0]` never `0` (rule R25), and the parameters, `REPLACE` among the steps.
Canonical form is the model's own (log entry 9), as is that `REPLACE` keeps the parameters (log
entry 20). -/
def Obligations.StepKeepsInvariant : Prop :=
  ∀ s t : State, step s = .next t → (s.Inv → t.Inv) ∧ t.params = s.params

/-- The invariant holds after reset, for every choice of the parameters, every configuration, every
contents of memory and every save file (rules R25, R50, R300). -/
def Obligations.ResetMeetsInvariant : Prop :=
  (∀ p c init save, (State.resetOf p c init save).Inv ∧ (State.resetOf p c init save).params = p)
  ∧ State.reset.Inv ∧ State.reset.params.Valid

/-! ### Reset and replacement -/

/-- The registers after reset, for every choice of the parameters and every configuration (rules R21,
R50, R301), and the parameters `State.reset` is built with, those of rules R7 and R9 (log entries 6 to
8). All registers but the banking mode rest on the spec's own decisions D8 and D10 (log entry 11). -/
def Obligations.RegistersAfterReset : Prop :=
  (∀ (p : Config.Params) (c : Config.Cartridge) (init : Rams) (save : Option (List Byte)) (b : Block),
    b = (State.resetOf p c init save).block →
    b.bankingMode = .rom16KRam8K ∧ b.romBank = 1 ∧ b.ramBankSel = 0
    ∧ b.ramEnabled.length = c.ramBanks ∧ (∀ k, b.ramFlag k = false)
    ∧ b.bootOff = false ∧ b.vbk = 0 ∧ b.svbk = 0
    ∧ (∀ n, b.hdma.get n = 0x00) ∧ (∀ r, b.undoc.get r = 0x00) ∧ b.ie = 0x00)
  ∧ ∀ d : Config.Params, d = State.reset.params →
    d.sentinelValue = 0xFF ∧ d.bootRegRead = 0xFF ∧ d.empty0FoldPeriod = 16
    ∧ d.vmMode0 = 0 ∧ d.vmMode1 = 1 ∧ d.vmMode2 = 2 ∧ d.vmMode3 = 3
    ∧ d.undocOrFF6C = 0xFE ∧ d.undocOrFF72 = 0x00 ∧ d.undocOrFF73 = 0x00 ∧ d.undocOrFF74 = 0x00
    ∧ d.undocOrFF75 = 0x8F ∧ d.vramSelReadOr = 0xFE ∧ d.wramSelReadOr = 0xF8

/-- Every RAM cell after reset holds `InitMem`'s byte, but external RAM holds the save file's bytes,
bank after bank, where one was loaded (rules R302, R303, decision D11; where a save file's byte
lies, and what a file too short leaves, is log entry 9). -/
def Obligations.MemoryAfterReset : Prop :=
  ∀ (p : Config.Params) (c : Config.Cartridge) (init : Rams) (save : Option (List Byte)) (x : RamArray)
    (k : Nat), k < x.size c.ramBanks →
    (State.resetOf p c init save).cell x k =
      match x, save with
      | .extRam, some bytes => (bytes[k]?).getD ((init.get .extRam).read k)
      | _, _ => (init.get x).read k

/-- What the first transactions after reset see (rule R304; it rests on decisions D8, D10, D14 and
D1), whatever the parameters are, where no CGB-mode register was put at the address. -/
def Obligations.FirstTransactionsAfterReset : Prop :=
  ∀ (p : Config.Params) (c : Config.Cartridge) (init : Rams) (save : Option (List Byte)) (m : Snapshot)
    (s : State), s = State.resetOf p c init save →
    (p.Free m 0x0000 → ∀ b bytes, c.bootRom = some (b :: bytes) → m.bootingActive = true →
      step (s.present (.rd 0x0000 m)) = .next (s.returning b))
    ∧ (p.Free m 0x0000 → ∀ b bytes, c.bootRom = none ∨ m.bootingActive = false → c.rom = b :: bytes →
      step (s.present (.rd 0x0000 m)) = .next (s.returning b))
    ∧ (p.Free m 0x4000 → ∀ b, c.bootSize ≤ 0x4000 ∨ m.bootingActive = false → 2 ≤ c.romBanks →
      c.rom[0x4000]? = some b → step (s.present (.rd 0x4000 m)) = .next (s.returning b))
    ∧ (p.Free m 0x4000 → c.bootSize ≤ 0x4000 ∨ m.bootingActive = false → c.romBanks ≤ 1 →
      step (s.present (.rd 0x4000 m)) = .next (s.returning 0xFF))
    ∧ (p.Free m 0xA000 → step (s.present (.rd 0xA000 m)) = .next (s.returning p.sentinelValue))
    ∧ (p.Free m 0xFFFF → step (s.present (.rd 0xFFFF m)) = .next (s.returning 0x00))

/-- `REPLACE` builds a new block: the configuration, every register and every cell are those of the
new block after reset, whatever the old ones were; what is presented after it stays presented (rules
R266, R300, R315). The model's choices in it: that the observations of the old run are gone is log
entry 19 (rule R268, decision D30), the free value's counter going on is log entry 4, the parameters
staying is log entry 20. -/
def Obligations.ReplaceBuildsNewBlock : Prop :=
  ∀ (s : State) (c : Config.Cartridge) (init : Rams) (save : Option (List Byte))
    (rest : List Input), s.inputs = .replace c init save :: rest →
    step s = .next
      { params := s.params, config := c, block := (State.resetOf s.params c init save).block,
        inputs := rest, reads := [], events := [], leafReads := s.leafReads }

/-- A save file written from external RAM and loaded into a block with as many banks gives the same
external RAM, whatever `InitMem` is, and enables no bank (rules R246, R303; that the file holds the
banks one after the other is R303's, its exact layout log entry 9). -/
def Obligations.SaveFileRestoresExternalRam : Prop :=
  ∀ (s : State) (p : Config.Params) (c : Config.Cartridge) (init : Rams),
    c.ramBanks = s.config.ramBanks →
    (State.resetOf p c init (some s.saveImage)).saveImage = s.saveImage
    ∧ ∀ k, (State.resetOf p c init (some s.saveImage)).block.ramFlag k = false

/-! ### The MBC1 controller -/

/-- `WR.ROMLO`: the low five bits, `0` forced to `1`; bits 6 and 5 kept; no clamp to the bank count,
in both modes; nothing else changes (rules R96, R232). -/
def Obligations.RomLoWrite : Prop :=
  ∀ (s : State) (a : Addr) (v : Byte) (m : Snapshot), ∃ b : BitVec 7,
    b.toNat = s.block.romBank.toNat / 32 * 32 + (if v.toNat % 32 = 0 then 1 else v.toNat % 32)
    ∧ exec (.wrRomLo a v m) s = .next { s with block := { s.block with romBank := b } }

/-- `WR.BANKHI`. In mode `Rom16KRam8K` (`WR.BANKHI.ROM`) `v[1:0]` goes to bits 6 and 5 of the ROM
bank and the others are kept, so a non-zero low field stays so. In mode `Rom4MRam32K`
(`WR.BANKHI.RAM`) it is the external RAM bank selected, unchecked against the bank count. Nothing
else changes, the ROM bank register and the enable flags in the second case among it (rules R233,
R234). -/
def Obligations.BankHiWrites : Prop :=
  ∀ (s : State) (a : Addr) (v : Byte) (m : Snapshot),
    (∃ b : BitVec 7, b.toNat = v.toNat % 4 * 32 + s.block.romBank.toNat % 32
      ∧ exec (.wrBankHiRom a v m) s = .next { s with block := { s.block with romBank := b } })
    ∧ ∃ b : BitVec 2, b.toNat = v.toNat % 4
      ∧ exec (.wrBankHiRam a v m) s = .next { s with block := { s.block with ramBankSel := b } }

/-- `WR.MODE`: the byte `0x01` selects `Rom4MRam32K`, every other byte `Rom16KRam8K`; nothing else
changes, which is decision D15 (rules R98, R235; log entry 14). -/
def Obligations.ModeWrite : Prop :=
  ∀ (s : State) (a : Addr) (v : Byte) (m : Snapshot),
    exec (.wrMode a v m) s = .next { s with block := { s.block with
      bankingMode := if v.toNat = 1 then .rom4MRam32K else .rom16KRam8K } }

/-- `WR.RAMEN` sets the flag of the bank selected now to `v[3] or v[1]`; every other flag is as
before, and with no such bank nothing changes (rules R24, R95, R231; the missing bank is decision
D13). The premise is part of the invariant. -/
def Obligations.RamEnableWrite : Prop :=
  ∀ (s : State) (a : Addr) (v : Byte) (m : Snapshot),
    s.block.ramEnabled.length = s.config.ramBanks →
    ∃ l : List Bool, exec (.wrRamEn a v m) s =
        .next { s with block := { s.block with ramEnabled := l } }
      ∧ l.length = s.config.ramBanks
      ∧ ∀ b, b < s.config.ramBanks → l[b]? =
        if b = s.block.ramBankSel.toNat then some (v.getLsbD 3 || v.getLsbD 1)
        else s.block.ramEnabled[b]?

/-- A write that the overlay does not cover reaches the register of its window, `BANKHI` by the
banking mode (rules R93, R129, R165, R233, R234; the overlay's condition has decision D8's latch). -/
def Obligations.CartridgeWritesSelectRegister : Prop :=
  ∀ (s : State) (a : Addr) (v : Byte) (m : Snapshot), a.toNat ≤ 0x7FFF →
    s.Uncovered m a → s.params.Free m a →
    select s.view (.wr a v m) = some
      (if a.toNat < 0x2000 then .wrRamEn a v m
       else if a.toNat < 0x4000 then .wrRomLo a v m
       else if a.toNat < 0x6000 then
         (if s.block.bankingMode = .rom16KRam8K then .wrBankHiRom a v m else .wrBankHiRam a v m)
       else .wrMode a v m)

/-- Cartridge reads: the fixed window shows the image at the address itself, whatever the registers
hold; the switchable window the bank of `romBank`, all seven bits, in both banking modes; past the
bank count or the image they read `0xFF` (rules R94, R100, R129, R237 to R239, R242;
decisions D14 and D15, log entry 14; the latch in the overlay's condition is decision D8, log entry
13). -/
def Obligations.CartridgeReads : Prop :=
  ∀ (s : State) (a : Addr) (m : Snapshot), a.toNat ≤ 0x7FFF →
    s.Uncovered m a → s.params.Free m a →
    (a.toNat ≤ 0x3FFF →
      select s.view (.rd a m) = some (.rdRom0 a m)
      ∧ exec (.rdRom0 a m) s = .next (s.returning ((s.config.rom[a.toNat]?).getD 0xFF)))
    ∧ (0x4000 ≤ a.toNat →
      select s.view (.rd a m) = some (.rdRomX a m)
      ∧ exec (.rdRomX a m) s = .next (s.returning
        (if s.config.romBanks ≤ s.block.romBank.toNat then 0xFF
         else (s.config.rom[s.block.romBank.toNat * 0x4000 + (a.toNat - 0x4000)]?).getD 0xFF)))

/-- The ROM bank register is `hi2` beside `lo5`: `WR.ROMLO` and `WR.BANKHI.ROM`, in either order and
from any state, leave `hi2 * 32 + lo5`, with `lo5` forced from `0` to `1`; the first of the two
changes its own bits alone (rule R99). -/
def Obligations.SplitBankWrite : Prop :=
  ∀ (s : State) (a b : Addr) (v w : Byte) (m m' : Snapshot),
    ∃ (r : BitVec 7) (t u : State),
      r.toNat = w.toNat % 4 * 32 + (if v.toNat % 32 = 0 then 1 else v.toNat % 32)
      ∧ exec (.wrRomLo a v m) s = .next t
      ∧ t.block.romBank.toNat / 32 = s.block.romBank.toNat / 32
      ∧ exec (.wrBankHiRom b w m') t =
          .next { s with block := { s.block with romBank := r } }
      ∧ exec (.wrBankHiRom b w m') s = .next u
      ∧ u.block.romBank.toNat % 32 = s.block.romBank.toNat % 32
      ∧ exec (.wrRomLo a v m) u = .next { s with block := { s.block with romBank := r } }

/-- The controller outside its window: a read answers `0xFF` and never stops, a write is the fault
`F_MBC_ADDR`, and the decoder never hands the controller such an address (rules R236, R240;
that the write is a fault is decision D20, log entry 21). -/
def Obligations.ControllerOutsideItsWindow : Prop :=
  ∀ (s : State) (a : Addr) (v : Byte),
    (0x7FFF < a.toNat → mbc1Read a s = 0xFF ∧ mbc1Write a v s = .fault (.mbcAddr a))
    ∧ ∀ (m : Snapshot) (off : Nat), resolve s.view m a = some (.cart off) → a.toNat ≤ 0x7FFF

/-- Enable after select: enabling and then selecting another bank shows that bank's own flag, so
with that flag false the window reads the sentinel; selecting first and then enabling opens it (rules
R131, R168, R231, R234, R312; the sentinel is decision D1, the gate and the enable decisions D12, D13). -/
def Obligations.EnableAfterSelect : Prop :=
  ∀ (s : State) (a b c : Addr) (v w : Byte) (m : Snapshot), s.Inv → v.toNat = 0x0A →
    w.toNat < s.config.ramBanks → w.toNat ≤ 3 → w.toNat ≠ s.block.ramBankSel.toNat →
    0xA000 ≤ c.toNat → c.toNat ≤ 0xBFFF → s.params.Free m c →
    (∃ t u, exec (.wrRamEn a v m) s = .next t ∧ exec (.wrBankHiRam b w m) t = .next u
      ∧ (s.block.ramFlag w.toNat = false →
          step (u.present (.rd c m)) = .next (u.returning s.params.sentinelValue)))
    ∧ ∃ t u, exec (.wrBankHiRam b w m) s = .next t ∧ exec (.wrRamEn a v m) t = .next u
      ∧ step (u.present (.rd c m)) =
          .next (u.returning (s.cell .extRam (w.toNat * 0x2000 + (c.toNat - 0xA000))))

/-! ### What each instruction does -/

/-- An access is locked out exactly when the snapshot presented with it says so, or the selected
external RAM bank does not exist or is not enabled. Then `RD.UNACC` returns the sentinel,
`SENTINEL_VALUE`, and `WR.UNACC` changes nothing, whatever the cause (rules R71, R125, R127, R130,
R131, R136, R160, R161, R317; one sentinel for every cause is decision D1, the missing bank D12). -/
def Obligations.LockedAccess : Prop :=
  ∀ (s : State) (a : Addr) (v : Byte) (m : Snapshot), s.params.Valid →
    (resolve s.view m a = some .unacc ↔
      (m.inCGBMode = true ∧ m.videoMode = .mode3 ∧ (a = s.params.addrBgpd ∨ a = s.params.addrObpd))
      ∨ s.params.Free m a ∧
        ((m.videoMode = .mode3 ∧ 0x8000 ≤ a.toNat ∧ a.toNat ≤ 0x9FFF)
        ∨ ((s.config.ramBanks ≤ s.block.ramBankSel.toNat
            ∨ s.block.ramFlag s.block.ramBankSel.toNat = false)
          ∧ 0xA000 ≤ a.toNat ∧ a.toNat ≤ 0xBFFF)
        ∨ ((m.videoMode = .mode2 ∨ m.videoMode = .mode3) ∧ 0xFE00 ≤ a.toNat ∧ a.toNat ≤ 0xFE9F)))
    ∧ (resolve s.view m a = some .unacc →
      select s.view (.rd a m) = some (.rdUnacc a m) ∧ select s.view (.wr a v m) = some (.wrUnacc a v m))
    ∧ exec (.rdUnacc a m) s = .next (s.returning s.params.sentinelValue)
    ∧ exec (.wrUnacc a v m) s = .next s

/-- `RD.BOOTROM` returns the boot ROM's byte at the address, `WR.BOOTROM` changes nothing and does
not reach the cartridge (rules R128, R162, R163, R313; the index is decision D25, the latch D8). -/
def Obligations.BootRomOverlay : Prop :=
  ∀ (s : State) (bytes : List Byte) (a : Addr) (v : Byte) (m : Snapshot),
    m.bootingActive = true → s.block.bootOff = false → s.config.bootRom = some bytes →
    a.toNat ≤ 0x7FFF → ¬(0x0100 ≤ a.toNat ∧ a.toNat ≤ 0x01FF) → s.params.Free m a →
    ∀ h : a.toNat < bytes.length,
    select s.view (.rd a m) = some (.rdBootRom a m)
    ∧ exec (.rdBootRom a m) s = .next (s.returning bytes[a.toNat])
    ∧ select s.view (.wr a v m) = some (.wrBootRom a v m)
    ∧ exec (.wrBootRom a v m) s = .next s

/-- `RD.VRAM` and `WR.VRAM` reach bank `vbk` in CGB mode and bank `0` otherwise, at the offset
`a - 0x8000`, outside `Mode3` (rules R127, R130, R166, R167). -/
def Obligations.VideoRam : Prop :=
  ∀ (s : State) (a : Addr) (v : Byte) (m : Snapshot) (k : Nat), s.params.Valid →
    m.videoMode ≠ .mode3 → 0x8000 ≤ a.toNat → a.toNat ≤ 0x9FFF →
    k = (if m.inCGBMode then s.block.vbk.toNat else 0) * 0x2000 + (a.toNat - 0x8000) →
    select s.view (.rd a m) = some (.rdVram a m)
    ∧ exec (.rdVram a m) s = .next (s.returning (s.cell .vram k))
    ∧ select s.view (.wr a v m) = some (.wrVram a v m)
    ∧ ∃ t, exec (.wrVram a v m) s = .next t ∧ StoredOnly s t .vram k v

/-- `RD.EXTRAM` and `WR.EXTRAM` reach the selected bank where it exists and is enabled, at the offset
`a - 0xA000` (rules R101, R131, R168, R169; the bank count's part in the gate is decision D12). -/
def Obligations.ExternalRam : Prop :=
  ∀ (s : State) (a : Addr) (v : Byte) (m : Snapshot) (k : Nat),
    s.block.ramBankSel.toNat < s.config.ramBanks →
    s.block.ramFlag s.block.ramBankSel.toNat = true → 0xA000 ≤ a.toNat → a.toNat ≤ 0xBFFF →
    s.params.Free m a →
    k = s.block.ramBankSel.toNat * 0x2000 + (a.toNat - 0xA000) →
    select s.view (.rd a m) = some (.rdExtRam a m)
    ∧ exec (.rdExtRam a m) s = .next (s.returning (s.cell .extRam k))
    ∧ select s.view (.wr a v m) = some (.wrExtRam a v m)
    ∧ ∃ t, exec (.wrExtRam a v m) s = .next t ∧ StoredOnly s t .extRam k v

/-- Out of CGB mode `RD.IRAM` and `WR.IRAM` reach one flat block of `0x2000` bytes, at
`a - 0xC000` and again at `a - 0xE000` through the echo (rules R132 to R135, R170, R171). That a
write leaves the banked work RAM as it was is decision D16 (rule R48, log entry 17). -/
def Obligations.FlatWorkRam : Prop :=
  ∀ (s : State) (a : Addr) (v : Byte) (m : Snapshot) (k : Nat), m.inCGBMode = false →
    0xC000 ≤ a.toNat → a.toNat ≤ 0xFDFF →
    k = (if a.toNat < 0xE000 then a.toNat - 0xC000 else a.toNat - 0xE000) →
    select s.view (.rd a m) = some (.rdIram a m)
    ∧ exec (.rdIram a m) s = .next (s.returning (s.cell .iram k))
    ∧ select s.view (.wr a v m) = some (.wrIram a v m)
    ∧ ∃ t, exec (.wrIram a v m) s = .next t ∧ StoredOnly s t .iram k v

/-- In CGB mode work RAM is banked. `RD.WRAM0` and `WR.WRAM0` reach bank `0`, at `0xC000-0xCFFF` and
its echo; `RD.WRAMX` and `WR.WRAMX` reach bank `svbk`, with `0` meaning bank `1`, at `0xD000-0xDFFF`
and its echo (rules R102, R132 to R135, R172, R173; eight banks are log entry 8). That a write leaves
the flat work RAM as it was is decision D16 (rule R48, log entry 17). -/
def Obligations.BankedWorkRam : Prop :=
  ∀ (s : State) (a : Addr) (v : Byte) (m : Snapshot) (bank k : Nat), m.inCGBMode = true →
    s.params.Free m a → bank = (if s.block.svbk.toNat = 0 then 1 else s.block.svbk.toNat) →
    ((0xC000 ≤ a.toNat ∧ a.toNat ≤ 0xCFFF ∧ k = a.toNat - 0xC000
        ∨ 0xE000 ≤ a.toNat ∧ a.toNat ≤ 0xEFFF ∧ k = a.toNat - 0xE000) →
      select s.view (.rd a m) = some (.rdWram0 a m)
      ∧ exec (.rdWram0 a m) s = .next (s.returning (s.cell .wram k))
      ∧ select s.view (.wr a v m) = some (.wrWram0 a v m)
      ∧ ∃ t, exec (.wrWram0 a v m) s = .next t ∧ StoredOnly s t .wram k v)
    ∧ ((0xD000 ≤ a.toNat ∧ a.toNat ≤ 0xDFFF ∧ k = bank * 0x1000 + (a.toNat - 0xD000)
        ∨ 0xF000 ≤ a.toNat ∧ a.toNat ≤ 0xFDFF ∧ k = bank * 0x1000 + (a.toNat - 0xF000)) →
      select s.view (.rd a m) = some (.rdWramX a m)
      ∧ exec (.rdWramX a m) s = .next (s.returning (s.cell .wram k))
      ∧ select s.view (.wr a v m) = some (.wrWramX a v m)
      ∧ ∃ t, exec (.wrWramX a v m) s = .next t ∧ StoredOnly s t .wram k v)

/-- `RD.OAM` and `WR.OAM` reach the sprite attribute table at the offset `a - 0xFE00`, in `Mode0`
and `Mode1` (rules R136, R174, R175; plain storage is decision D23, rule R41, log entry 17). -/
def Obligations.SpriteTable : Prop :=
  ∀ (s : State) (a : Addr) (v : Byte) (m : Snapshot),
    (m.videoMode = .mode0 ∨ m.videoMode = .mode1) → 0xFE00 ≤ a.toNat → a.toNat ≤ 0xFE9F →
    s.params.Free m a →
    select s.view (.rd a m) = some (.rdOam a m)
    ∧ exec (.rdOam a m) s = .next (s.returning (s.cell .oam (a.toNat - 0xFE00)))
    ∧ select s.view (.wr a v m) = some (.wrOam a v m)
    ∧ ∃ t, exec (.wrOam a v m) s = .next t ∧ StoredOnly s t .oam (a.toNat - 0xFE00) v

/-- On DMG hardware `0xFEA0-0xFEFF` reads `0x00` in every video mode and discards writes (rules R177,
R178). That the flag tested is `isCGB` is decision D4. -/
def Obligations.EmptyRegionDmg : Prop :=
  ∀ (s : State) (a : Addr) (v : Byte) (m : Snapshot), m.isCGB = false → 0xFEA0 ≤ a.toNat →
    a.toNat ≤ 0xFEFF → s.params.Free m a →
    select s.view (.rd a m) = some (.rdEmpty0D a m)
    ∧ exec (.rdEmpty0D a m) s = .next (s.returning 0x00)
    ∧ select s.view (.wr a v m) = some (.wrEmpty0D a v m)
    ∧ exec (.wrEmpty0D a v m) s = .next s

/-- On CGB hardware `0xFEA0-0xFEBF` are 32 cells of their own and the addresses above them fold, with
period `EMPTY0_FOLD_PERIOD`, onto the cells from `0x20` on: with its default, `16`, four blocks of
sixteen are one block of sixteen cells (rules R103, R137, R179, R180; the fold is decision D3, log
entry 7; the flag is decision D4). -/
def Obligations.EmptyRegionCgb : Prop :=
  ∀ (s : State) (a : Addr) (v : Byte) (m : Snapshot) (k : Nat), s.params.Valid → m.isCGB = true →
    0xFEA0 ≤ a.toNat → a.toNat ≤ 0xFEFF → s.params.Free m a →
    k = (if a.toNat < 0xFEC0 then a.toNat - 0xFEA0
      else 0x20 + (a.toNat - 0xFEC0) % s.params.empty0FoldPeriod) →
    select s.view (.rd a m) = some (.rdEmpty0C a m)
    ∧ exec (.rdEmpty0C a m) s = .next (s.returning (s.cell .empty0 k))
    ∧ select s.view (.wr a v m) = some (.wrEmpty0C a v m)
    ∧ ∃ t, exec (.wrEmpty0C a v m) s = .next t ∧ StoredOnly s t .empty0 k v

/-- `RD.WAVE` and `WR.WAVE` reach wave RAM at the offset `a - 0xFF30`, before the port table, in
every mode (rules R138, R149, R181, R182; plain storage is decision D23). -/
def Obligations.WaveRam : Prop :=
  ∀ (s : State) (a : Addr) (v : Byte) (m : Snapshot), 0xFF30 ≤ a.toNat → a.toNat ≤ 0xFF3F →
    s.params.Free m a →
    select s.view (.rd a m) = some (.rdWave a m)
    ∧ exec (.rdWave a m) s = .next (s.returning (s.cell .wave (a.toNat - 0xFF30)))
    ∧ select s.view (.wr a v m) = some (.wrWave a v m)
    ∧ ∃ t, exec (.wrWave a v m) s = .next t ∧ StoredOnly s t .wave (a.toNat - 0xFF30) v

/-- `RD.HRAM` and `WR.HRAM` reach high RAM at the offset `a - 0xFF80`, gated by no mode (rules R143,
R190, R191). -/
def Obligations.HighRam : Prop :=
  ∀ (s : State) (a : Addr) (v : Byte) (m : Snapshot), 0xFF80 ≤ a.toNat → a.toNat ≤ 0xFFFE →
    s.params.Free m a →
    resolve s.view m a = some (.hram (a.toNat - 0xFF80))
    ∧ select s.view (.rd a m) = some (.rdHram a m)
    ∧ exec (.rdHram a m) s = .next (s.returning (s.cell .hram (a.toNat - 0xFF80)))
    ∧ select s.view (.wr a v m) = some (.wrHram a v m)
    ∧ ∃ t, exec (.wrHram a v m) s = .next t ∧ StoredOnly s t .hram (a.toNat - 0xFF80) v

/-- `RD.IE` and `WR.IE`: all eight bits are stored and read back, in every mode (rules R34, R144,
R192, R193; plain storage is decision D23). -/
def Obligations.InterruptEnable : Prop :=
  ∀ (s : State) (v : Byte) (m : Snapshot), s.params.Free m 0xFFFF →
    select s.view (.rd 0xFFFF m) = some (.rdIe 0xFFFF m)
    ∧ exec (.rdIe 0xFFFF m) s = .next (s.returning s.block.ie)
    ∧ select s.view (.wr 0xFFFF v m) = some (.wrIe 0xFFFF v m)
    ∧ exec (.wrIe 0xFFFF v m) s = .next { s with block := { s.block with ie := v } }

/-- While booting `0xFF50` is the boot register, which reads `BOOT_REG_READ`; otherwise it is filler,
which reads `0xFF` (rules R121, R140, R142, R183, R308; that there is such a parameter is decision
D9, the latch D8). -/
def Obligations.BootRegisterRead : Prop :=
  ∀ (s : State) (m : Snapshot), s.params.Valid →
    select s.view (.rd 0xFF50 m) = some
      (if m.bootingActive = true ∧ s.block.bootOff = false then .rdBootReg 0xFF50 m
       else .rdEmpty1 0xFF50 m)
    ∧ exec (.rdBootReg 0xFF50 m) s = .next (s.returning s.params.bootRegRead)
    ∧ exec (.rdEmpty1 0xFF50 m) s = .next (s.returning 0xFF)

/-- `WR.BOOTREG`: with `v[0] = 1` the latch is set and nothing else changes; with `v[0] = 0` nothing
does. No instruction clears the latch, and once it is set no transaction reaches the register or the
overlay: a read of `0x0000` returns the cartridge's byte whatever `bootingActive` says, and a second
write at `0xFF50` is the filler's and is discarded (rule R184; the latch is decision D8; that the read
of an empty image gives `0xFF` is decision D14, log entry 14). -/
def Obligations.BootLatch : Prop :=
  ∀ (s : State) (a : Addr) (v : Byte) (m : Snapshot), s.params.Valid →
    (v.getLsbD 0 = true →
      exec (.wrBootReg a v m) s = .next { s with block := { s.block with bootOff := true } })
    ∧ (v.getLsbD 0 = false → exec (.wrBootReg a v m) s = .next s)
    ∧ (s.block.bootOff = true →
      (∀ i t, exec i s = .next t → t.block.bootOff = true)
      ∧ (∀ off, resolve s.view m a ≠ some (.bootRom off)) ∧ resolve s.view m a ≠ some .bootReg
      ∧ (s.params.Free m 0x0000 →
        step (s.present (.rd 0x0000 m)) = .next (s.returning ((s.config.rom[0]?).getD 0xFF)))
      ∧ select s.view (.wr 0xFF50 v m) = some (.wrEmpty1 0xFF50 v m)
      ∧ step (s.present (.wr 0xFF50 v m)) = .next s)

/-- After the latch is set no sequence of transactions, under whatever snapshots, brings the overlay
back: a read of the fixed window outside it returns the cartridge image's byte (rules R29, R237,
R265, R308; the latch is decision D8; that it returns `0xFF` past the image is decision D14, log
entry 14). -/
def Obligations.OverlayNeverReturns : Prop :=
  ∀ (s t : State) (n : Nat) (a : Addr) (m : Snapshot), s.block.bootOff = true →
    s.OnlyTransactions → core.run n s = .next t → a.toNat ≤ 0x3FFF → s.params.Free m a →
    t.block.bootOff = true
    ∧ step (t.present (.rd a m)) = .next (t.returning ((s.config.rom[a.toNat]?).getD 0xFF))

/-- The undocumented registers on CGB hardware: each write stores its byte and nothing else, and each
read gives the stored byte with that register's mask, `UNDOC_OR[a]` (rules R9, R141, R185, R187; the
masks' defaults are log entry 8, the flag is decision D4). -/
def Obligations.UndocumentedRegisters : Prop :=
  ∀ (s : State) (v : Byte) (m : Snapshot), s.params.Valid → m.isCGB = true →
    let u := s.block.undoc
    (select s.view (.rd 0xFF6C m) = some (.rdUndocFF6C 0xFF6C m)
      ∧ exec (.rdUndocFF6C 0xFF6C m) s = .next (s.returning (u.ff6c ||| s.params.undocOrFF6C))
      ∧ select s.view (.wr 0xFF6C v m) = some (.wrUndocFF6C 0xFF6C v m)
      ∧ exec (.wrUndocFF6C 0xFF6C v m) s =
          .next { s with block := { s.block with undoc := { u with ff6c := v } } })
    ∧ (select s.view (.rd 0xFF72 m) = some (.rdUndocFF72 0xFF72 m)
      ∧ exec (.rdUndocFF72 0xFF72 m) s = .next (s.returning (u.ff72 ||| s.params.undocOrFF72))
      ∧ select s.view (.wr 0xFF72 v m) = some (.wrUndocFF72 0xFF72 v m)
      ∧ exec (.wrUndocFF72 0xFF72 v m) s =
          .next { s with block := { s.block with undoc := { u with ff72 := v } } })
    ∧ (select s.view (.rd 0xFF73 m) = some (.rdUndocFF73 0xFF73 m)
      ∧ exec (.rdUndocFF73 0xFF73 m) s = .next (s.returning (u.ff73 ||| s.params.undocOrFF73))
      ∧ select s.view (.wr 0xFF73 v m) = some (.wrUndocFF73 0xFF73 v m)
      ∧ exec (.wrUndocFF73 0xFF73 v m) s =
          .next { s with block := { s.block with undoc := { u with ff73 := v } } })
    ∧ (select s.view (.rd 0xFF74 m) = some (.rdUndocFF74 0xFF74 m)
      ∧ exec (.rdUndocFF74 0xFF74 m) s = .next (s.returning (u.ff74 ||| s.params.undocOrFF74))
      ∧ select s.view (.wr 0xFF74 v m) = some (.wrUndocFF74 0xFF74 v m)
      ∧ exec (.wrUndocFF74 0xFF74 v m) s =
          .next { s with block := { s.block with undoc := { u with ff74 := v } } })
    ∧ (select s.view (.rd 0xFF75 m) = some (.rdUndocFF75 0xFF75 m)
      ∧ exec (.rdUndocFF75 0xFF75 m) s = .next (s.returning (u.ff75 ||| s.params.undocOrFF75))
      ∧ select s.view (.wr 0xFF75 v m) = some (.wrUndocFF75 0xFF75 v m)
      ∧ exec (.wrUndocFF75 0xFF75 v m) s =
          .next { s with block := { s.block with undoc := { u with ff75 := v } } })
    ∧ select s.view (.rd 0xFF76 m) = some (.rdUndocFF76 0xFF76 m)
    ∧ select s.view (.rd 0xFF77 m) = some (.rdUndocFF77 0xFF77 m)
    ∧ select s.view (.wr 0xFF76 v m) = some (.wrUndocFF76 0xFF76 v m)
    ∧ select s.view (.wr 0xFF77 v m) = some (.wrUndocFF77 0xFF77 v m)

/-- `0xFF76` and `0xFF77` always read `0x00`, whatever was written (rule R186): the reads in every
state, and after each of the two writes, which store their byte and change nothing else. -/
def Obligations.UndocumentedZeroRegisters : Prop :=
  ∀ (s : State) (v : Byte) (a : Addr) (m : Snapshot),
    exec (.rdUndocFF76 a m) s = .next (s.returning 0x00)
    ∧ exec (.rdUndocFF77 a m) s = .next (s.returning 0x00)
    ∧ (∃ t, exec (.wrUndocFF76 a v m) s = .next t
      ∧ t = { s with block := { s.block with undoc := { s.block.undoc with ff76 := v } } }
      ∧ exec (.rdUndocFF76 a m) t = .next (t.returning 0x00))
    ∧ ∃ t, exec (.wrUndocFF77 a v m) s = .next t
      ∧ t = { s with block := { s.block with undoc := { s.block.undoc with ff77 := v } } }
      ∧ exec (.rdUndocFF77 a m) t = .next (t.returning 0x00)

/-- The filler reads `0xFF` whatever the state and whatever the parameters, and discards writes; it is
every address of its range that nothing before it takes (rules R142, R188; the discarded write is rule
R189's inference). That the undocumented addresses are filler by `isCGB` is decision D4 (log entry 12),
the latch in the condition on `0xFF50` is decision D8 (log entry 13). -/
def Obligations.FillerRegion : Prop :=
  ∀ (s : State) (a : Addr) (v : Byte) (m : Snapshot),
    exec (.rdEmpty1 a m) s = .next (s.returning 0xFF)
    ∧ exec (.wrEmpty1 a v m) s = .next s
    ∧ (0xFF4C ≤ a.toNat → a.toNat ≤ 0xFF7F → s.params.Free m a →
        (a.toNat = 0xFF50 → m.bootingActive = false ∨ s.block.bootOff = true) →
        (m.isCGB = true → a.toNat ≠ 0xFF6C ∧ ¬(0xFF72 ≤ a.toNat ∧ a.toNat ≤ 0xFF77)) →
        select s.view (.rd a m) = some (.rdEmpty1 a m)
        ∧ select s.view (.wr a v m) = some (.wrEmpty1 a v m))

/-- The bank selects in CGB mode: VRAMSEL keeps `v[0]` and WRAMSEL `v[2:0]`, raw; they read back with
their masks, `VRAMSEL_READ_OR` and `WRAMSEL_READ_OR` (rules R9, R198 to R201; the fields and the masks'
defaults are log entry 8). With the default masks the other bits read as `1`. -/
def Obligations.BankSelectRegisters : Prop :=
  ∀ (s : State) (v : Byte) (m : Snapshot) (a b : Addr), s.params.Valid → m.inCGBMode = true →
    a = s.params.addrVramSel → b = s.params.addrWramSel →
    ∃ (x : BitVec 1) (y : BitVec 3) (p q : Byte),
      x.toNat = v.toNat % 2 ∧ y.toNat = v.toNat % 8
      ∧ p = s.block.vbk.setWidth 8 ||| s.params.vramSelReadOr
      ∧ q = s.block.svbk.setWidth 8 ||| s.params.wramSelReadOr
      ∧ (s.params = Config.Params.default →
        p.toNat = 0xFE + s.block.vbk.toNat ∧ q.toNat = 0xF8 + s.block.svbk.toNat)
      ∧ select s.view (.rd a m) = some (.rdVramSel a m)
      ∧ exec (.rdVramSel a m) s = .next (s.returning p)
      ∧ select s.view (.wr a v m) = some (.wrVramSel a v m)
      ∧ exec (.wrVramSel a v m) s = .next { s with block := { s.block with vbk := x } }
      ∧ select s.view (.rd b m) = some (.rdWramSel b m)
      ∧ exec (.rdWramSel b m) s = .next (s.returning q)
      ∧ select s.view (.wr b v m) = some (.wrWramSel b v m)
      ∧ exec (.wrWramSel b v m) s = .next { s with block := { s.block with svbk := y } }

/-- `HDMA1` to `HDMA4` read `0xFF`, always; a write stores its byte in its own register and changes
nothing else (rules R202, R203; that the bytes are kept is decision D29, log entry 17). -/
def Obligations.HdmaRegisters : Prop :=
  ∀ (s : State) (a : Addr) (v : Byte) (m : Snapshot),
    let h := s.block.hdma
    exec (.rdHdma1 a m) s = .next (s.returning 0xFF)
    ∧ exec (.rdHdma2 a m) s = .next (s.returning 0xFF)
    ∧ exec (.rdHdma3 a m) s = .next (s.returning 0xFF)
    ∧ exec (.rdHdma4 a m) s = .next (s.returning 0xFF)
    ∧ exec (.wrHdma1 a v m) s =
        .next { s with block := { s.block with hdma := { h with hdma1 := v } } }
    ∧ exec (.wrHdma2 a v m) s =
        .next { s with block := { s.block with hdma := { h with hdma2 := v } } }
    ∧ exec (.wrHdma3 a v m) s =
        .next { s with block := { s.block with hdma := { h with hdma3 := v } } }
    ∧ exec (.wrHdma4 a v m) s =
        .next { s with block := { s.block with hdma := { h with hdma4 := v } } }

/-- The leaf registers. A read is forwarded with its full address and returns what the leaf answers,
a free value; a write is one event with the full address and the byte. Nothing else changes, the
block above all (rules R206, R207). The free value and its counter are log entry 4 (rule R210, decision
D22), a read recorded as an event is log entry 19. -/
def Obligations.LeafRegisters : Prop :=
  ∀ (s : State) (a : Addr) (v : Byte) (m : Snapshot),
    let answered := fun leaf : Config.Leaf =>
      { s with
        reads := s.reads ++ [Config.leafAnswer s.leafReads leaf a]
        events := s.events ++ [.extRead leaf a]
        leafReads := s.leafReads + 1 }
    let sent := fun leaf : Config.Leaf => { s with events := s.events ++ [.extWrite leaf a v] }
    exec (.rdSpeed a m) s = .next (answered .speed)
    ∧ exec (.rdInfrared a m) s = .next (answered .infrared)
    ∧ exec (.rdBgpi a m) s = .next (answered .bgpi)
    ∧ exec (.rdBgpd a m) s = .next (answered .bgpd)
    ∧ exec (.rdObpi a m) s = .next (answered .obpi)
    ∧ exec (.rdObpd a m) s = .next (answered .obpd)
    ∧ exec (.rdHdma5 a m) s = .next (answered .hdma5)
    ∧ exec (.wrSpeed a v m) s = .next (sent .speed)
    ∧ exec (.wrInfrared a v m) s = .next (sent .infrared)
    ∧ exec (.wrBgpi a v m) s = .next (sent .bgpi)
    ∧ exec (.wrBgpd a v m) s = .next (sent .bgpd)
    ∧ exec (.wrObpi a v m) s = .next (sent .obpi)
    ∧ exec (.wrObpd a v m) s = .next (sent .obpd)
    ∧ exec (.wrHdma5 a v m) s = .next (sent .hdma5)

/-- The I/O port table: every address of `0xFF00-0xFF4B` but the wave range is the entry
`a - 0xFF00`, in every mode; a read returns what the entry answers, a free value, a write is one
event, and the block does not change (rules R139, R208, R209; the free value and its counter are log
entry 4 (rule R210, decision D22), a read recorded as an event log entry 19). -/
def Obligations.PortTable : Prop :=
  ∀ (s : State) (a : Addr) (v : Byte) (m : Snapshot) (leaf : Config.Leaf), 0xFF00 ≤ a.toNat →
    a.toNat ≤ 0xFF4B → ¬(0xFF30 ≤ a.toNat ∧ a.toNat ≤ 0xFF3F) →
    s.params.Free m a → leaf = .ioPort (a.toNat - 0xFF00) →
    resolve s.view m a = some (.ioPort (a.toNat - 0xFF00))
    ∧ select s.view (.rd a m) = some (.rdIoPort a m)
    ∧ exec (.rdIoPort a m) s = .next { s with
        reads := s.reads ++ [Config.leafAnswer s.leafReads leaf a]
        events := s.events ++ [.extRead leaf a]
        leafReads := s.leafReads + 1 }
    ∧ select s.view (.wr a v m) = some (.wrIoPort a v m)
    ∧ exec (.wrIoPort a v m) s = .next { s with events := s.events ++ [.extWrite leaf a v] }

/-- `STEPT n` forwards `n`, any value, to the timer leaf, and changes nothing else (rule R261). -/
def Obligations.StepBeforeTimer : Prop :=
  ∀ (s : State) (n : Cycles),
    exec (.stept n) s = .next { s with events := s.events ++ [.extStep .timer n] }

/-- `STEP n` forwards `n`, any value, to the DMA leaf and then to the HDMA5 leaf, whatever the state,
and changes nothing else (rule R260; the order is decision D19). -/
def Obligations.StepForwardsToEngines : Prop :=
  ∀ (s : State) (n : Cycles),
    exec (.step n) s =
      .next { s with events := s.events ++ [.extStep .dma n, .extStep .hdma5 n] }

/-! ### Frames and whole-machine rules -/

/-- Discarded writes: a `WR` that resolves to `UNACC`, `BOOTROM`, `EMPTY0D` or `EMPTY1` leaves the
whole machine as it was; a `WR` that resolves to `CART` is the controller's write contract (rules
R68, R274). -/
def Obligations.DiscardedWritesLeaveNoTrace : Prop :=
  ∀ (s : State) (a : Addr) (v : Byte) (m : Snapshot) (r : Region),
    resolve s.view m a = some r →
    ((r = .unacc ∨ (∃ off, r = .bootRom off) ∨ (∃ off, r = .empty0d off) ∨ ∃ off, r = .empty1 off) →
      step (s.present (.wr a v m)) = .next s)
    ∧ ((∃ off, r = .cart off) → step (s.present (.wr a v m)) = mbc1Write a v s)

/-- Reads have no side effect. A `RD` that resolves to a region the block owns appends the byte it
returns and changes nothing else, and repeated it returns the same byte. A `RD` that resolves to the
I/O port table, `SPEED`, `INFRARED`, `BGPI`, `BGPD`, `OBPI`, `OBPD` or `HDMA5` is forwarded to that
region's own leaf and changes no field of the block either (rules R28, R67). -/
def Obligations.ReadsHaveNoSideEffect : Prop :=
  ∀ (s : State) (a : Addr) (m : Snapshot) (r : Region), s.params.Valid →
    resolve s.view m a = some r →
    (r.leaf = none → ∃ b, step (s.present (.rd a m)) = .next (s.returning b)
      ∧ step ((s.returning b).present (.rd a m)) = .next ((s.returning b).returning b))
    ∧ ∀ leaf, r.leaf = some leaf → step (s.present (.rd a m)) = extRead leaf a s
      ∧ ∃ t, extRead leaf a s = .next t ∧ t.block = s.block ∧ t.params = s.params
        ∧ t.config = s.config ∧ t.inputs = s.inputs

/-- The frame on memory, for every instruction: each cell of each array but the one its meaning
stores to, if any, reads as before (rules R36 to R44). That a store to the flat work RAM is none to the
banked one, and the other way round, is decision D16 (rule R48, log entry 17). -/
def Obligations.MemoryFrame : Prop :=
  ∀ (s t : State) (i : Instr), exec i s = .next t →
    ∀ x k, storesTo s i ≠ some (x, k) → t.cell x k = s.cell x k

/-- The frame on registers, for every instruction: no instruction changes the parameters, the
configuration or the inputs, and each register changes only by the instructions that write it (rules
R21 to R34, R45). -/
def Obligations.RegisterFrame : Prop :=
  ∀ (s t : State) (i : Instr), exec i s = .next t →
    t.params = s.params ∧ t.config = s.config ∧ t.inputs = s.inputs
    ∧ (t.block.bankingMode = s.block.bankingMode ∨ ∃ a v m, i = .wrMode a v m)
    ∧ (t.block.romBank = s.block.romBank
      ∨ (∃ a v m, i = .wrRomLo a v m) ∨ ∃ a v m, i = .wrBankHiRom a v m)
    ∧ (t.block.ramBankSel = s.block.ramBankSel ∨ ∃ a v m, i = .wrBankHiRam a v m)
    ∧ (t.block.ramEnabled = s.block.ramEnabled ∨ ∃ a v m, i = .wrRamEn a v m)
    ∧ (∀ b, b ≠ s.block.ramBankSel.toNat → t.block.ramFlag b = s.block.ramFlag b)
    ∧ (t.block.bootOff = s.block.bootOff ∨ t.block.bootOff = true ∧ ∃ a v m, i = .wrBootReg a v m)
    ∧ (t.block.vbk = s.block.vbk ∨ ∃ a v m, i = .wrVramSel a v m)
    ∧ (t.block.svbk = s.block.svbk ∨ ∃ a v m, i = .wrWramSel a v m)
    ∧ (t.block.hdma.hdma1 = s.block.hdma.hdma1 ∨ ∃ a v m, i = .wrHdma1 a v m)
    ∧ (t.block.hdma.hdma2 = s.block.hdma.hdma2 ∨ ∃ a v m, i = .wrHdma2 a v m)
    ∧ (t.block.hdma.hdma3 = s.block.hdma.hdma3 ∨ ∃ a v m, i = .wrHdma3 a v m)
    ∧ (t.block.hdma.hdma4 = s.block.hdma.hdma4 ∨ ∃ a v m, i = .wrHdma4 a v m)
    ∧ (t.block.undoc.ff6c = s.block.undoc.ff6c ∨ ∃ a v m, i = .wrUndocFF6C a v m)
    ∧ (t.block.undoc.ff72 = s.block.undoc.ff72 ∨ ∃ a v m, i = .wrUndocFF72 a v m)
    ∧ (t.block.undoc.ff73 = s.block.undoc.ff73 ∨ ∃ a v m, i = .wrUndocFF73 a v m)
    ∧ (t.block.undoc.ff74 = s.block.undoc.ff74 ∨ ∃ a v m, i = .wrUndocFF74 a v m)
    ∧ (t.block.undoc.ff75 = s.block.undoc.ff75 ∨ ∃ a v m, i = .wrUndocFF75 a v m)
    ∧ (t.block.undoc.ff76 = s.block.undoc.ff76 ∨ ∃ a v m, i = .wrUndocFF76 a v m)
    ∧ (t.block.undoc.ff77 = s.block.undoc.ff77 ∨ ∃ a v m, i = .wrUndocFF77 a v m)
    ∧ (t.block.ie = s.block.ie ∨ ∃ a v m, i = .wrIe a v m)

/-- No field changes but by a `WR` to its own window under its own condition: the whole-machine rule
of R28, R265, R301 and R316, over every transaction. The four windows of the controller count only
where the overlay does not cover them (rules R35, R313) and the upper ROM bank bits only while the
banking mode is `Rom16KRam8K` (rule R233); the CGB-mode registers are where the parameters put them
(rule R8, decision D5). The latch in the overlay's condition and at `0xFF50` is decision D8 (log entry
13), the undocumented registers' flag is decision D4 (log entry 12), and which cell is another's across
the modes of work RAM is decision D16 (rule R48, log entry 17). -/
def Obligations.FieldsChangeOnlyInTheirWindows : Prop :=
  (∀ (s t : State) (a : Addr) (m : Snapshot), step (s.present (.rd a m)) = .next t →
    t.block = s.block)
  ∧ (∀ (s t : State) (n : Cycles), (step (s.present (.step n)) = .next t
      ∨ step (s.present (.stept n)) = .next t) → t.block = s.block)
  ∧ ∀ (s t : State) (a : Addr) (v : Byte) (m : Snapshot), step (s.present (.wr a v m)) = .next t →
    (t.block.bankingMode ≠ s.block.bankingMode →
        0x6000 ≤ a.toNat ∧ a.toNat ≤ 0x7FFF ∧ s.Uncovered m a)
    ∧ (t.block.romBank ≠ s.block.romBank →
        (0x2000 ≤ a.toNat ∧ a.toNat ≤ 0x3FFF
          ∨ 0x4000 ≤ a.toNat ∧ a.toNat ≤ 0x5FFF ∧ s.block.bankingMode = .rom16KRam8K)
        ∧ s.Uncovered m a)
    ∧ (t.block.ramBankSel ≠ s.block.ramBankSel →
        0x4000 ≤ a.toNat ∧ a.toNat ≤ 0x5FFF ∧ s.block.bankingMode = .rom4MRam32K ∧ s.Uncovered m a)
    ∧ (t.block.ramEnabled ≠ s.block.ramEnabled → a.toNat ≤ 0x1FFF ∧ s.Uncovered m a)
    ∧ (t.block.bootOff ≠ s.block.bootOff →
        a.toNat = 0xFF50 ∧ m.bootingActive = true ∧ s.block.bootOff = false ∧ v.getLsbD 0 = true)
    ∧ (t.block.vbk ≠ s.block.vbk → a = s.params.addrVramSel ∧ m.inCGBMode = true)
    ∧ (t.block.svbk ≠ s.block.svbk → a = s.params.addrWramSel ∧ m.inCGBMode = true)
    ∧ (t.block.hdma.hdma1 ≠ s.block.hdma.hdma1 → a = s.params.addrHdma1 ∧ m.inCGBMode = true)
    ∧ (t.block.hdma.hdma2 ≠ s.block.hdma.hdma2 → a = s.params.addrHdma2 ∧ m.inCGBMode = true)
    ∧ (t.block.hdma.hdma3 ≠ s.block.hdma.hdma3 → a = s.params.addrHdma3 ∧ m.inCGBMode = true)
    ∧ (t.block.hdma.hdma4 ≠ s.block.hdma.hdma4 → a = s.params.addrHdma4 ∧ m.inCGBMode = true)
    ∧ (∀ r, t.block.undoc.get r ≠ s.block.undoc.get r → a.toNat = r.addr ∧ m.isCGB = true)
    ∧ (t.block.ie ≠ s.block.ie → a.toNat = 0xFFFF)
    ∧ ∀ x k, t.cell x k ≠ s.cell x k → s.reaches m a = some (x, k) ∧ t.cell x k = v

/-- A read returns the most recent write to the same cell: after a `WR` that reaches RAM, a `RD` of
whatever address under whatever snapshot that reaches RAM returns the byte written if it reaches the
same cell, and otherwise the byte that cell held (rule R72). Across the two values of `inCGBMode`, that
flat and banked work RAM are different cells is decision D16 (rule R48, log entry 17). -/
def Obligations.ReadReturnsLastWrite : Prop :=
  ∀ (s : State) (a b : Addr) (v : Byte) (m m' : Snapshot) (c d : RamArray × Nat), s.params.Valid →
    s.reaches m a = some c → s.reaches m' b = some d →
    ∃ t, step (s.present (.wr a v m)) = .next t
      ∧ step (t.present (.rd b m')) =
          .next (t.returning (if d = c then v else s.cell d.1 d.2))

/-- The bytes of `hdma[1..4]`, `undoc[0xFF76]` and `undoc[0xFF77]` cannot be read back from the block:
two states that differ in them alone resolve every address alike; of a region the block owns they
answer a `RD` with the same byte and the same events, and a `RD` of a leaf is in both the same forwarded
read (rules R46, R186, R202). The answer of a leaf is not the block's: rule R204 shows the `HDMA5` leaf
the `hdma` bytes, and that the model's free answer does not depend on them is log entry 4's choice, on
which this statement does not rest. -/
def Obligations.HiddenBytesAreNeverRead : Prop :=
  ∀ (s : State) (h : HdmaBytes) (x y : Byte) (a : Addr) (m : Snapshot) (r : Region),
    let hide := fun b : Block => { b with
      hdma := h, undoc := { b.undoc with ff76 := x, ff77 := y } }
    let s' := s.withBlock (hide s.block)
    resolve s.view m a = some r →
    resolve s'.view m a = some r
    ∧ (r.leaf = none → ∀ t, step (s.present (.rd a m)) = .next t →
      step (s'.present (.rd a m)) = .next (t.withBlock (hide t.block)))
    ∧ ∀ leaf, r.leaf = some leaf →
      step (s.present (.rd a m)) = extRead leaf a s ∧ step (s'.present (.rd a m)) = extRead leaf a s'

/-- The banking mode has no effect on any read (rules R21, R242; taking KB literally here is
decision D15). Of a leaf, too, the answer is the same, because the free answer depends on the leaf, the
address and the counter alone, which is log entry 4's choice. -/
def Obligations.BankingModeNeverAffectsReads : Prop :=
  ∀ (s t : State) (b : BankingMode) (a : Addr) (m : Snapshot),
    step (s.present (.rd a m)) = .next t →
    step ((s.withBlock { s.block with bankingMode := b }).present (.rd a m)) =
      .next (t.withBlock { t.block with bankingMode := b })
end

