-- ==== Sys2Proof/Laws/Encode.lean ====
section
/-! SUPPORT. The fields of a record word, and that records and words are two readings of one thing. -/

namespace Sys2Proof

/-- Four codes of two bits that differ are all there are: each is its own mode's, and no other is
left. -/
theorem VideoMode.codes (c0 c1 c2 c3 : BitVec 2) :
    [c0, c1, c2, c3].Nodup → ∀ b, b ≠ c0 → b ≠ c1 → b ≠ c2 → b = c3 := by
  revert c0 c1 c2 c3; decide

theorem VideoMode.ofBits_toBits (p : Config.Params) (hv : p.Valid) (v : VideoMode) :
    VideoMode.ofBits p (v.toBits p) = v := by
  have h := hv.2.2.1
  simp only [List.nodup_cons, List.mem_cons, List.not_mem_nil, or_false, not_or] at h
  obtain ⟨⟨h1, h2, h3⟩, ⟨h4, h5⟩, h6, -⟩ := h
  cases v <;>
    simp [VideoMode.ofBits, VideoMode.toBits, Ne.symm h1, Ne.symm h2, Ne.symm h3, Ne.symm h4,
      Ne.symm h5, Ne.symm h6]

theorem VideoMode.toBits_ofBits (p : Config.Params) (hv : p.Valid) (b : BitVec 2) :
    (VideoMode.ofBits p b).toBits p = b := by
  unfold VideoMode.ofBits
  split
  · next h => exact h.symm
  split
  · next h => exact h.symm
  split
  · next h => exact h.symm
  · next h0 h1 h2 => exact (VideoMode.codes _ _ _ _ hv.2.2.1 b h0 h1 h2).symm

/-- The side band put together and taken apart. -/
theorem side_fields (c : BitVec 2) (x y z : Bool) :
    let b : BitVec 5 := c ++ BitVec.ofBool x ++ BitVec.ofBool y ++ BitVec.ofBool z
    b.getLsbD 0 = z ∧ b.getLsbD 1 = y ∧ b.getLsbD 2 = x ∧ b.extractLsb' 3 2 = c := by
  revert c x y z; decide

theorem side_rebuilt (b : BitVec 5) :
    b.extractLsb' 3 2 ++ BitVec.ofBool (b.getLsbD 2) ++ BitVec.ofBool (b.getLsbD 1)
      ++ BitVec.ofBool (b.getLsbD 0) = b := by
  revert b; decide

theorem Snapshot.ofBits_toBits (p : Config.Params) (hv : p.Valid) (m : Snapshot) :
    Snapshot.ofBits p (m.toBits p) = m := by
  obtain ⟨h0, h1, h2, h3⟩ := side_fields (m.videoMode.toBits p) m.bootingActive m.inCGBMode m.isCGB
  simp only [Snapshot.ofBits, Snapshot.toBits, h0, h1, h2, h3, VideoMode.ofBits_toBits p hv]

theorem Snapshot.toBits_ofBits (p : Config.Params) (hv : p.Valid) (b : BitVec 5) :
    (Snapshot.ofBits p b).toBits p = b := by
  simp only [Snapshot.ofBits, Snapshot.toBits, VideoMode.toBits_ofBits p hv, side_rebuilt]

theorem recordWord_toNat (side : BitVec 5) (f : BitVec 2) (low : BitVec 32) :
    (recordWord side f low).toNat = low.toNat + 2 ^ 32 * f.toNat + 2 ^ 34 * side.toNat := by
  have := side.isLt; have := f.isLt; have := low.isLt
  simp only [recordWord, BitVec.toNat_ofNat]
  omega

theorem field_toNat (w : RecordWord) (start len : Nat) :
    (w.extractLsb' start len).toNat = w.toNat / 2 ^ start % 2 ^ len := by
  simp [Nat.shiftRight_eq_div_pow]

theorem top_recordWord (side : BitVec 5) (f : BitVec 2) (low : BitVec 32) :
    (recordWord side f low).extractLsb' 39 1 = 0 := by
  apply BitVec.eq_of_toNat_eq
  have := side.isLt; have := f.isLt; have := low.isLt
  rw [field_toNat, recordWord_toNat]; simp; omega
theorem side_recordWord (side : BitVec 5) (f : BitVec 2) (low : BitVec 32) :
    (recordWord side f low).extractLsb' 34 5 = side := by
  apply BitVec.eq_of_toNat_eq
  have := side.isLt; have := f.isLt; have := low.isLt
  rw [field_toNat, recordWord_toNat]; omega
theorem format_recordWord (side : BitVec 5) (f : BitVec 2) (low : BitVec 32) :
    (recordWord side f low).extractLsb' 32 2 = f := by
  apply BitVec.eq_of_toNat_eq
  have := side.isLt; have := f.isLt; have := low.isLt
  rw [field_toNat, recordWord_toNat]; omega
theorem low_recordWord (side : BitVec 5) (f : BitVec 2) (low : BitVec 32) (start len : Nat) (h : start + len ≤ 32) :
    (recordWord side f low).extractLsb' start len = low.extractLsb' start len := by
  apply BitVec.eq_of_getLsbD_eq
  intro i hi
  have := low.isLt
  simp only [BitVec.getLsbD_extractLsb', hi, decide_true, Bool.true_and]
  simp only [BitVec.getLsbD, recordWord_toNat]
  rw [show low.toNat + 2 ^ 32 * f.toNat + 2 ^ 34 * side.toNat = 2^32 * (f.toNat + 4 * side.toNat) + low.toNat by omega]
  rw [Nat.testBit_two_pow_mul_add _ low.isLt, if_pos (by omega)]

theorem decodeRecord_encodeRecord (p : Config.Params) (hv : p.Valid) (t : Transaction) :
    decodeRecord p (encodeRecord p t) = .ok t := by
  cases t with
  | rd a m =>
    have ha : (BitVec.ofNat 32 a.toNat).extractLsb' 0 16 = a := by
      apply BitVec.eq_of_toNat_eq; have := a.isLt; simp; omega
    have hd : (BitVec.ofNat 32 a.toNat).extractLsb' 16 8 = 0 := by
      apply BitVec.eq_of_toNat_eq; have := a.isLt; simp [Nat.shiftRight_eq_div_pow]; omega
    have hp : (BitVec.ofNat 32 a.toNat).extractLsb' 24 8 = 0 := by
      apply BitVec.eq_of_toNat_eq; have := a.isLt; simp [Nat.shiftRight_eq_div_pow]; omega
    simp only [decodeRecord, encodeRecord, top_recordWord, side_recordWord, format_recordWord,
      low_recordWord _ _ _ 0 16 (by omega), low_recordWord _ _ _ 16 8 (by omega),
      low_recordWord _ _ _ 24 8 (by omega), ha, hd, hp, Snapshot.ofBits_toBits p hv]
    simp
  | wr a v m =>
    have ha : (BitVec.ofNat 32 (a.toNat + 2 ^ 16 * v.toNat)).extractLsb' 0 16 = a := by
      apply BitVec.eq_of_toNat_eq; have := a.isLt; have := v.isLt; simp; omega
    have hd : (BitVec.ofNat 32 (a.toNat + 2 ^ 16 * v.toNat)).extractLsb' 16 8 = v := by
      apply BitVec.eq_of_toNat_eq; have := a.isLt; have := v.isLt; simp [Nat.shiftRight_eq_div_pow]; omega
    have hp : (BitVec.ofNat 32 (a.toNat + 2 ^ 16 * v.toNat)).extractLsb' 24 8 = 0 := by
      apply BitVec.eq_of_toNat_eq; have := a.isLt; have := v.isLt; simp [Nat.shiftRight_eq_div_pow]; omega
    simp only [decodeRecord, encodeRecord, top_recordWord, side_recordWord, format_recordWord,
      low_recordWord _ _ _ 0 16 (by omega), low_recordWord _ _ _ 16 8 (by omega),
      low_recordWord _ _ _ 24 8 (by omega), ha, hd, hp, Snapshot.ofBits_toBits p hv]
    simp
  | step n =>
    simp [decodeRecord, encodeRecord, top_recordWord, side_recordWord, format_recordWord,
      low_recordWord]
  | stept n =>
    simp [decodeRecord, encodeRecord, top_recordWord, side_recordWord, format_recordWord,
      low_recordWord]

/-- A word that is a record is the encoding of that record. -/
theorem encodeRecord_decodeRecord (p : Config.Params) (hv : p.Valid) (w : RecordWord) (t : Transaction)
    (h : decodeRecord p w = .ok t) : encodeRecord p t = w := by
  have hz : ∀ {n : Nat} (b : BitVec n), b = 0 ↔ b.toNat = 0 := fun b => by
    rw [← BitVec.toNat_inj]; simp
  have hw := w.isLt
  unfold decodeRecord at h
  simp only at h
  split at h
  · cases h
  next htop =>
  have htop := (hz _).mp (not_not.mp htop)
  rw [field_toNat] at htop
  have hside : (w.extractLsb' 34 5).toNat = w.toNat / 2 ^ 34 := by rw [field_toNat]; omega
  have hf : (w.extractLsb' 32 2).toNat = w.toNat / 2 ^ 32 % 2 ^ 2 := field_toNat w 32 2
  have ha : (w.extractLsb' 0 16).toNat = w.toNat / 2 ^ 0 % 2 ^ 16 := field_toNat w 0 16
  have hd : (w.extractLsb' 16 8).toNat = w.toNat / 2 ^ 16 % 2 ^ 8 := field_toNat w 16 8
  have hp : (w.extractLsb' 24 8).toNat = w.toNat / 2 ^ 24 % 2 ^ 8 := field_toNat w 24 8
  have hc : (w.extractLsb' 0 32).toNat = w.toNat / 2 ^ 0 % 2 ^ 32 := field_toNat w 0 32
  have hf4 := (w.extractLsb' 32 2).isLt
  have e0 : (0 : BitVec 2).toNat = 0 := rfl
  have e1 : (1 : BitVec 2).toNat = 1 := rfl
  have e2 : (2 : BitVec 2).toNat = 2 := rfl
  have e3 : (3 : BitVec 2).toNat = 3 := rfl
  have e5 : (0 : BitVec 5).toNat = 0 := rfl
  have format_ne : ∀ f : BitVec 2, w.extractLsb' 32 2 ≠ f → (w.extractLsb' 32 2).toNat ≠ f.toNat :=
    fun f hne e => hne (BitVec.eq_of_toNat_eq e)
  apply BitVec.eq_of_toNat_eq
  split at h
  · next h0 =>
    rw [h0] at hf
    split at h
    · next hpd =>
      have h1 := (hz _).mp hpd.1
      have h2 := (hz _).mp hpd.2
      cases h
      simp only [encodeRecord, recordWord_toNat, Snapshot.toBits_ofBits p hv, BitVec.toNat_ofNat, hside]
      omega
    · cases h
  · next h0 =>
    have h0 := format_ne _ h0
    split at h
    · next h1 =>
      rw [h1] at hf
      split at h
      · next hpd =>
        have h1 := (hz _).mp hpd
        cases h
        simp only [encodeRecord, recordWord_toNat, Snapshot.toBits_ofBits p hv, BitVec.toNat_ofNat,
          hside]
        omega
      · cases h
    · next h1 =>
      have h1 := format_ne _ h1
      split at h
      · next hs =>
        have hs := (hz _).mp hs
        split at h
        · next h2 =>
          rw [h2] at hf
          cases h
          simp only [encodeRecord, recordWord_toNat]
          omega
        · next h2 =>
          have h2 := format_ne _ h2
          cases h
          simp only [encodeRecord, recordWord_toNat]
          omega
      · cases h

end Sys2Proof
end

