-- ==== Sys2Proof/Laws/State.lean ====
section
/-! SUPPORT. One lemma per field per update of the state and of the block, each true by `rfl`. -/

namespace Sys2Proof.Machine

@[simp] theorem State.withBlock_params (s : State) (b : Block) :
    (s.withBlock b).params = s.params := rfl
@[simp] theorem State.withBlock_config (s : State) (b : Block) :
    (s.withBlock b).config = s.config := rfl
@[simp] theorem State.withBlock_block (s : State) (b : Block) :
    (s.withBlock b).block = b := rfl
@[simp] theorem State.withBlock_inputs (s : State) (b : Block) :
    (s.withBlock b).inputs = s.inputs := rfl
@[simp] theorem State.withBlock_reads (s : State) (b : Block) :
    (s.withBlock b).reads = s.reads := rfl
@[simp] theorem State.withBlock_events (s : State) (b : Block) :
    (s.withBlock b).events = s.events := rfl
@[simp] theorem State.withBlock_leafReads (s : State) (b : Block) :
    (s.withBlock b).leafReads = s.leafReads := rfl

@[simp] theorem State.returning_params (s : State) (b : Byte) :
    (s.returning b).params = s.params := rfl
@[simp] theorem State.returning_config (s : State) (b : Byte) :
    (s.returning b).config = s.config := rfl
@[simp] theorem State.returning_block (s : State) (b : Byte) :
    (s.returning b).block = s.block := rfl
@[simp] theorem State.returning_inputs (s : State) (b : Byte) :
    (s.returning b).inputs = s.inputs := rfl
@[simp] theorem State.returning_reads (s : State) (b : Byte) :
    (s.returning b).reads = s.reads ++ [b] := rfl
@[simp] theorem State.returning_events (s : State) (b : Byte) :
    (s.returning b).events = s.events := rfl
@[simp] theorem State.returning_leafReads (s : State) (b : Byte) :
    (s.returning b).leafReads = s.leafReads := rfl

@[simp] theorem State.sending_params (s : State) (e : LeafEvent) :
    (s.sending e).params = s.params := rfl
@[simp] theorem State.sending_config (s : State) (e : LeafEvent) :
    (s.sending e).config = s.config := rfl
@[simp] theorem State.sending_block (s : State) (e : LeafEvent) :
    (s.sending e).block = s.block := rfl
@[simp] theorem State.sending_inputs (s : State) (e : LeafEvent) :
    (s.sending e).inputs = s.inputs := rfl
@[simp] theorem State.sending_reads (s : State) (e : LeafEvent) :
    (s.sending e).reads = s.reads := rfl
@[simp] theorem State.sending_events (s : State) (e : LeafEvent) :
    (s.sending e).events = s.events ++ [e] := rfl
@[simp] theorem State.sending_leafReads (s : State) (e : LeafEvent) :
    (s.sending e).leafReads = s.leafReads := rfl

@[simp] theorem State.extStep_params (s : State) (l : Config.Leaf) (n : Cycles) :
    (s.extStep l n).params = s.params := rfl
@[simp] theorem State.extStep_config (s : State) (l : Config.Leaf) (n : Cycles) :
    (s.extStep l n).config = s.config := rfl
@[simp] theorem State.extStep_block (s : State) (l : Config.Leaf) (n : Cycles) :
    (s.extStep l n).block = s.block := rfl
@[simp] theorem State.extStep_inputs (s : State) (l : Config.Leaf) (n : Cycles) :
    (s.extStep l n).inputs = s.inputs := rfl
@[simp] theorem State.extStep_reads (s : State) (l : Config.Leaf) (n : Cycles) :
    (s.extStep l n).reads = s.reads := rfl
@[simp] theorem State.extStep_events (s : State) (l : Config.Leaf) (n : Cycles) :
    (s.extStep l n).events = s.events ++ [.extStep l n] := rfl
@[simp] theorem State.extStep_leafReads (s : State) (l : Config.Leaf) (n : Cycles) :
    (s.extStep l n).leafReads = s.leafReads := rfl

@[simp] theorem State.setCell_params (s : State) (x : RamArray) (k : Nat) (v : Byte) :
    (s.setCell x k v).params = s.params := rfl
@[simp] theorem State.setCell_config (s : State) (x : RamArray) (k : Nat) (v : Byte) :
    (s.setCell x k v).config = s.config := rfl
@[simp] theorem State.setCell_block (s : State) (x : RamArray) (k : Nat) (v : Byte) :
    (s.setCell x k v).block = { s.block with rams := s.block.rams.set x ((s.block.rams.get x).write k v) } := rfl
@[simp] theorem State.setCell_inputs (s : State) (x : RamArray) (k : Nat) (v : Byte) :
    (s.setCell x k v).inputs = s.inputs := rfl
@[simp] theorem State.setCell_reads (s : State) (x : RamArray) (k : Nat) (v : Byte) :
    (s.setCell x k v).reads = s.reads := rfl
@[simp] theorem State.setCell_events (s : State) (x : RamArray) (k : Nat) (v : Byte) :
    (s.setCell x k v).events = s.events := rfl
@[simp] theorem State.setCell_leafReads (s : State) (x : RamArray) (k : Nat) (v : Byte) :
    (s.setCell x k v).leafReads = s.leafReads := rfl

@[simp] theorem State.present_params (s : State) (t : Transaction) :
    (s.present t).params = s.params := rfl
@[simp] theorem State.present_config (s : State) (t : Transaction) :
    (s.present t).config = s.config := rfl
@[simp] theorem State.present_block (s : State) (t : Transaction) :
    (s.present t).block = s.block := rfl
@[simp] theorem State.present_inputs (s : State) (t : Transaction) :
    (s.present t).inputs = .txn t :: s.inputs := rfl
@[simp] theorem State.present_reads (s : State) (t : Transaction) :
    (s.present t).reads = s.reads := rfl
@[simp] theorem State.present_events (s : State) (t : Transaction) :
    (s.present t).events = s.events := rfl
@[simp] theorem State.present_leafReads (s : State) (t : Transaction) :
    (s.present t).leafReads = s.leafReads := rfl

@[simp] theorem State.taken_params (s : State) :
    s.taken.params = s.params := rfl
@[simp] theorem State.taken_config (s : State) :
    s.taken.config = s.config := rfl
@[simp] theorem State.taken_block (s : State) :
    s.taken.block = s.block := rfl
@[simp] theorem State.taken_inputs (s : State) :
    s.taken.inputs = s.inputs.tail := rfl
@[simp] theorem State.taken_reads (s : State) :
    s.taken.reads = s.reads := rfl
@[simp] theorem State.taken_events (s : State) :
    s.taken.events = s.events := rfl
@[simp] theorem State.taken_leafReads (s : State) :
    s.taken.leafReads = s.leafReads := rfl

@[simp] theorem State.replace_params (s : State) (c : Config.Cartridge) (i : Rams) (w : Option (List Byte)) :
    (s.replace c i w).params = s.params := rfl
@[simp] theorem State.replace_config (s : State) (c : Config.Cartridge) (i : Rams) (w : Option (List Byte)) :
    (s.replace c i w).config = c := rfl
@[simp] theorem State.replace_block (s : State) (c : Config.Cartridge) (i : Rams) (w : Option (List Byte)) :
    (s.replace c i w).block = Block.reset c.ramBanks i w := rfl
@[simp] theorem State.replace_inputs (s : State) (c : Config.Cartridge) (i : Rams) (w : Option (List Byte)) :
    (s.replace c i w).inputs = s.inputs := rfl
@[simp] theorem State.replace_reads (s : State) (c : Config.Cartridge) (i : Rams) (w : Option (List Byte)) :
    (s.replace c i w).reads = [] := rfl
@[simp] theorem State.replace_events (s : State) (c : Config.Cartridge) (i : Rams) (w : Option (List Byte)) :
    (s.replace c i w).events = [] := rfl
@[simp] theorem State.replace_leafReads (s : State) (c : Config.Cartridge) (i : Rams) (w : Option (List Byte)) :
    (s.replace c i w).leafReads = s.leafReads := rfl

@[simp] theorem State.present_taken (s : State) (t : Transaction) : (s.present t).taken = s := rfl

@[simp] theorem State.present_view (s : State) (t : Transaction) : (s.present t).view = s.view := rfl

@[simp] theorem State.taken_view (s : State) : s.taken.view = s.view := rfl

@[simp] theorem State.taken_cell (s : State) (x : RamArray) (k : Nat) :
    s.taken.cell x k = s.cell x k := rfl

@[simp] theorem State.view_params (s : State) : s.view.params = s.params := rfl

@[simp] theorem Block.romLoWrite_bankingMode (b : Block) (v : Byte) :
    (b.romLoWrite v).bankingMode = b.bankingMode := rfl
@[simp] theorem Block.romLoWrite_romBank (b : Block) (v : Byte) :
    (b.romLoWrite v).romBank = (b.romBank &&& 0x60) ||| lo5 v := rfl
@[simp] theorem Block.romLoWrite_ramBankSel (b : Block) (v : Byte) :
    (b.romLoWrite v).ramBankSel = b.ramBankSel := rfl
@[simp] theorem Block.romLoWrite_ramEnabled (b : Block) (v : Byte) :
    (b.romLoWrite v).ramEnabled = b.ramEnabled := rfl
@[simp] theorem Block.romLoWrite_bootOff (b : Block) (v : Byte) :
    (b.romLoWrite v).bootOff = b.bootOff := rfl
@[simp] theorem Block.romLoWrite_vbk (b : Block) (v : Byte) :
    (b.romLoWrite v).vbk = b.vbk := rfl
@[simp] theorem Block.romLoWrite_svbk (b : Block) (v : Byte) :
    (b.romLoWrite v).svbk = b.svbk := rfl
@[simp] theorem Block.romLoWrite_hdma (b : Block) (v : Byte) :
    (b.romLoWrite v).hdma = b.hdma := rfl
@[simp] theorem Block.romLoWrite_undoc (b : Block) (v : Byte) :
    (b.romLoWrite v).undoc = b.undoc := rfl
@[simp] theorem Block.romLoWrite_ie (b : Block) (v : Byte) :
    (b.romLoWrite v).ie = b.ie := rfl
@[simp] theorem Block.romLoWrite_rams (b : Block) (v : Byte) :
    (b.romLoWrite v).rams = b.rams := rfl

@[simp] theorem Block.bankHiRomWrite_bankingMode (b : Block) (v : Byte) :
    (b.bankHiRomWrite v).bankingMode = b.bankingMode := rfl
@[simp] theorem Block.bankHiRomWrite_romBank (b : Block) (v : Byte) :
    (b.bankHiRomWrite v).romBank = (b.romBank &&& 0x1F) ||| hi2 v := rfl
@[simp] theorem Block.bankHiRomWrite_ramBankSel (b : Block) (v : Byte) :
    (b.bankHiRomWrite v).ramBankSel = b.ramBankSel := rfl
@[simp] theorem Block.bankHiRomWrite_ramEnabled (b : Block) (v : Byte) :
    (b.bankHiRomWrite v).ramEnabled = b.ramEnabled := rfl
@[simp] theorem Block.bankHiRomWrite_bootOff (b : Block) (v : Byte) :
    (b.bankHiRomWrite v).bootOff = b.bootOff := rfl
@[simp] theorem Block.bankHiRomWrite_vbk (b : Block) (v : Byte) :
    (b.bankHiRomWrite v).vbk = b.vbk := rfl
@[simp] theorem Block.bankHiRomWrite_svbk (b : Block) (v : Byte) :
    (b.bankHiRomWrite v).svbk = b.svbk := rfl
@[simp] theorem Block.bankHiRomWrite_hdma (b : Block) (v : Byte) :
    (b.bankHiRomWrite v).hdma = b.hdma := rfl
@[simp] theorem Block.bankHiRomWrite_undoc (b : Block) (v : Byte) :
    (b.bankHiRomWrite v).undoc = b.undoc := rfl
@[simp] theorem Block.bankHiRomWrite_ie (b : Block) (v : Byte) :
    (b.bankHiRomWrite v).ie = b.ie := rfl
@[simp] theorem Block.bankHiRomWrite_rams (b : Block) (v : Byte) :
    (b.bankHiRomWrite v).rams = b.rams := rfl

@[simp] theorem Block.bankHiRamWrite_bankingMode (b : Block) (v : Byte) :
    (b.bankHiRamWrite v).bankingMode = b.bankingMode := rfl
@[simp] theorem Block.bankHiRamWrite_romBank (b : Block) (v : Byte) :
    (b.bankHiRamWrite v).romBank = b.romBank := rfl
@[simp] theorem Block.bankHiRamWrite_ramBankSel (b : Block) (v : Byte) :
    (b.bankHiRamWrite v).ramBankSel = ramSelField v := rfl
@[simp] theorem Block.bankHiRamWrite_ramEnabled (b : Block) (v : Byte) :
    (b.bankHiRamWrite v).ramEnabled = b.ramEnabled := rfl
@[simp] theorem Block.bankHiRamWrite_bootOff (b : Block) (v : Byte) :
    (b.bankHiRamWrite v).bootOff = b.bootOff := rfl
@[simp] theorem Block.bankHiRamWrite_vbk (b : Block) (v : Byte) :
    (b.bankHiRamWrite v).vbk = b.vbk := rfl
@[simp] theorem Block.bankHiRamWrite_svbk (b : Block) (v : Byte) :
    (b.bankHiRamWrite v).svbk = b.svbk := rfl
@[simp] theorem Block.bankHiRamWrite_hdma (b : Block) (v : Byte) :
    (b.bankHiRamWrite v).hdma = b.hdma := rfl
@[simp] theorem Block.bankHiRamWrite_undoc (b : Block) (v : Byte) :
    (b.bankHiRamWrite v).undoc = b.undoc := rfl
@[simp] theorem Block.bankHiRamWrite_ie (b : Block) (v : Byte) :
    (b.bankHiRamWrite v).ie = b.ie := rfl
@[simp] theorem Block.bankHiRamWrite_rams (b : Block) (v : Byte) :
    (b.bankHiRamWrite v).rams = b.rams := rfl

@[simp] theorem Block.modeWrite_bankingMode (b : Block) (v : Byte) :
    (b.modeWrite v).bankingMode = modeSel v := rfl
@[simp] theorem Block.modeWrite_romBank (b : Block) (v : Byte) :
    (b.modeWrite v).romBank = b.romBank := rfl
@[simp] theorem Block.modeWrite_ramBankSel (b : Block) (v : Byte) :
    (b.modeWrite v).ramBankSel = b.ramBankSel := rfl
@[simp] theorem Block.modeWrite_ramEnabled (b : Block) (v : Byte) :
    (b.modeWrite v).ramEnabled = b.ramEnabled := rfl
@[simp] theorem Block.modeWrite_bootOff (b : Block) (v : Byte) :
    (b.modeWrite v).bootOff = b.bootOff := rfl
@[simp] theorem Block.modeWrite_vbk (b : Block) (v : Byte) :
    (b.modeWrite v).vbk = b.vbk := rfl
@[simp] theorem Block.modeWrite_svbk (b : Block) (v : Byte) :
    (b.modeWrite v).svbk = b.svbk := rfl
@[simp] theorem Block.modeWrite_hdma (b : Block) (v : Byte) :
    (b.modeWrite v).hdma = b.hdma := rfl
@[simp] theorem Block.modeWrite_undoc (b : Block) (v : Byte) :
    (b.modeWrite v).undoc = b.undoc := rfl
@[simp] theorem Block.modeWrite_ie (b : Block) (v : Byte) :
    (b.modeWrite v).ie = b.ie := rfl
@[simp] theorem Block.modeWrite_rams (b : Block) (v : Byte) :
    (b.modeWrite v).rams = b.rams := rfl

@[simp] theorem Block.ramEnWrite_bankingMode (b : Block) (n : Nat) (v : Byte) :
    (b.ramEnWrite n v).bankingMode = b.bankingMode := by
  unfold Block.ramEnWrite; split <;> rfl
@[simp] theorem Block.ramEnWrite_romBank (b : Block) (n : Nat) (v : Byte) :
    (b.ramEnWrite n v).romBank = b.romBank := by
  unfold Block.ramEnWrite; split <;> rfl
@[simp] theorem Block.ramEnWrite_ramBankSel (b : Block) (n : Nat) (v : Byte) :
    (b.ramEnWrite n v).ramBankSel = b.ramBankSel := by
  unfold Block.ramEnWrite; split <;> rfl
@[simp] theorem Block.ramEnWrite_ramEnabled (b : Block) (n : Nat) (v : Byte) :
    (b.ramEnWrite n v).ramEnabled =
      if b.ramBankSel.toNat < n then b.ramEnabled.set b.ramBankSel.toNat (ramEnablePred v)
      else b.ramEnabled := by
  unfold Block.ramEnWrite; split <;> rfl
@[simp] theorem Block.ramEnWrite_bootOff (b : Block) (n : Nat) (v : Byte) :
    (b.ramEnWrite n v).bootOff = b.bootOff := by
  unfold Block.ramEnWrite; split <;> rfl
@[simp] theorem Block.ramEnWrite_vbk (b : Block) (n : Nat) (v : Byte) :
    (b.ramEnWrite n v).vbk = b.vbk := by
  unfold Block.ramEnWrite; split <;> rfl
@[simp] theorem Block.ramEnWrite_svbk (b : Block) (n : Nat) (v : Byte) :
    (b.ramEnWrite n v).svbk = b.svbk := by
  unfold Block.ramEnWrite; split <;> rfl
@[simp] theorem Block.ramEnWrite_hdma (b : Block) (n : Nat) (v : Byte) :
    (b.ramEnWrite n v).hdma = b.hdma := by
  unfold Block.ramEnWrite; split <;> rfl
@[simp] theorem Block.ramEnWrite_undoc (b : Block) (n : Nat) (v : Byte) :
    (b.ramEnWrite n v).undoc = b.undoc := by
  unfold Block.ramEnWrite; split <;> rfl
@[simp] theorem Block.ramEnWrite_ie (b : Block) (n : Nat) (v : Byte) :
    (b.ramEnWrite n v).ie = b.ie := by
  unfold Block.ramEnWrite; split <;> rfl
@[simp] theorem Block.ramEnWrite_rams (b : Block) (n : Nat) (v : Byte) :
    (b.ramEnWrite n v).rams = b.rams := by
  unfold Block.ramEnWrite; split <;> rfl

@[simp] theorem RamArray.size_extRam (n : Nat) : RamArray.size n .extRam = n * 0x2000 := rfl
@[simp] theorem RamArray.size_vram (n : Nat) : RamArray.size n .vram = 0x4000 := rfl
@[simp] theorem RamArray.size_wram (n : Nat) : RamArray.size n .wram = 0x8000 := rfl
@[simp] theorem RamArray.size_iram (n : Nat) : RamArray.size n .iram = 0x2000 := rfl
@[simp] theorem RamArray.size_oam (n : Nat) : RamArray.size n .oam = 0xA0 := rfl
@[simp] theorem RamArray.size_hram (n : Nat) : RamArray.size n .hram = 0x7F := rfl
@[simp] theorem RamArray.size_empty0 (n : Nat) : RamArray.size n .empty0 = 0x30 := rfl
@[simp] theorem RamArray.size_wave (n : Nat) : RamArray.size n .wave = 0x10 := rfl

theorem Rams.get_set (r : Rams) (x y : RamArray) (m : Memory) :
    (r.set x m).get y = if y = x then m else r.get y := by
  cases x <;> cases y <;> rfl

@[simp] theorem Rams.get_set_same (r : Rams) (x : RamArray) (m : Memory) :
    (r.set x m).get x = m := by
  cases x <;> rfl

theorem Rams.get_set_other (r : Rams) (x y : RamArray) (m : Memory) (h : y ≠ x) :
    (r.set x m).get y = r.get y := by
  simp [Rams.get_set, h]

@[simp] theorem UndocBytes.get_set (u : UndocBytes) (r q : Config.UndocReg) (v : Byte) :
    (u.set r v).get q = if q = r then v else u.get q := by
  cases r <;> cases q <;> rfl

@[simp] theorem HdmaBytes.get_set (u : HdmaBytes) (r q : Config.HdmaReg) (v : Byte) :
    (u.set r v).get q = if q = r then v else u.get q := by
  cases r <;> cases q <;> rfl

end Sys2Proof.Machine
end

