-- ==== Sys2Proof/Laws/Memory.lean ====
section
/-! SUPPORT. The laws of the sparse memories: read after write, every other cell unchanged, the
canonical form kept, bounds kept, and what a memory made from a list of cells reads. -/

namespace Sys2Proof.Machine

@[simp] theorem Memory.read_nil (k : Nat) : Memory.read [] k = Memory.unlisted := rfl

theorem Memory.read_cons (c : Host.Cell) (m : Memory) (k : Nat) :
    Memory.read (c :: m) k = if c.1 = k then c.2 else Memory.read m k := rfl

theorem Memory.read_without (m : Memory) (k j : Nat) :
    (m.without k).read j = if j = k then Memory.unlisted else m.read j := by
  induction m with
  | nil => simp [Memory.without]
  | cons c r ih =>
    by_cases hc : c.1 = k
    · have : Memory.without (c :: r) k = Memory.without r k := by simp [Memory.without, hc]
      rw [this, ih, Memory.read_cons]
      by_cases hj : j = k
      · simp [hj]
      · simp [hj, hc, Ne.symm hj]
    · have : Memory.without (c :: r) k = c :: Memory.without r k := by simp [Memory.without, hc]
      rw [this, Memory.read_cons, Memory.read_cons, ih]
      by_cases hj : j = k
      · subst hj; simp [hc]
      · simp [hj]

theorem Memory.read_place (m : Memory) (c : Host.Cell) (j : Nat) (h : ∀ d ∈ m, d.1 ≠ c.1) :
    (Memory.place m c).read j = if j = c.1 then c.2 else m.read j := by
  induction m with
  | nil => simp [Memory.place, Memory.read_cons, eq_comm]
  | cons d r ih =>
    have hd : d.1 ≠ c.1 := h d (by simp)
    have hr := ih (fun e he => h e (by simp [he]))
    unfold Memory.place
    split
    · simp [Memory.read_cons, eq_comm]
    · rw [Memory.read_cons, hr, Memory.read_cons]
      by_cases hj : j = c.1
      · subst hj; simp [hd]
      · simp [hj]

theorem Memory.without_ne (m : Memory) (k : Nat) : ∀ d ∈ m.without k, d.1 ≠ k := by
  intro d hd
  simpa using (List.mem_filter.mp hd).2

/-- Read after write: the cell written gives the byte, every other cell what it gave before. -/
theorem Memory.read_write (m : Memory) (k j : Nat) (b : Byte) :
    (m.write k b).read j = if j = k then b else m.read j := by
  unfold Memory.write
  split
  · next hb => simp [Memory.read_without, hb]
  · rw [Memory.read_place _ _ _ (Memory.without_ne m k), Memory.read_without]
    by_cases hj : j = k <;> simp [hj]

@[simp] theorem Memory.read_write_same (m : Memory) (k : Nat) (b : Byte) :
    (m.write k b).read k = b := by
  simp [Memory.read_write]

theorem Memory.mem_place (m : Memory) (c d : Host.Cell) :
    d ∈ Memory.place m c ↔ d = c ∨ d ∈ m := by
  induction m with
  | nil => simp [Memory.place]
  | cons e r ih =>
    unfold Memory.place
    split
    · simp
    · simp [ih]; tauto

theorem Memory.place_sorted (m : Memory) (c : Host.Cell) (hm : m.Pairwise (fun c d => c.1 < d.1))
    (h : ∀ d ∈ m, d.1 ≠ c.1) : (Memory.place m c).Pairwise (fun c d => c.1 < d.1) := by
  induction m with
  | nil => simp [Memory.place]
  | cons e r ih =>
    obtain ⟨he, hr⟩ := List.pairwise_cons.mp hm
    unfold Memory.place
    split
    · next hlt =>
      refine List.pairwise_cons.mpr ⟨fun d hd => ?_, hm⟩
      rcases List.mem_cons.mp hd with rfl | hd
      · exact hlt
      · exact lt_trans hlt (he d hd)
    · next hlt =>
      refine List.pairwise_cons.mpr ⟨fun d hd => ?_, ih hr (fun d hd => h d (by simp [hd]))⟩
      rcases (Memory.mem_place r c d).mp hd with rfl | hd
      · exact lt_of_le_of_ne (not_lt.mp hlt) (h e (by simp))
      · exact he d hd

/-- Every write keeps the canonical form. -/
theorem Memory.write_wf (m : Memory) (k : Nat) (b : Byte) (h : m.wf) : (m.write k b).wf := by
  have hs : (m.without k).Pairwise (fun c d => c.1 < d.1) := h.1.filter _
  have hn : ∀ c ∈ m.without k, c.2 ≠ Memory.unlisted := fun c hc =>
    h.2 c (List.mem_filter.mp hc).1
  unfold Memory.write
  split
  · exact ⟨hs, hn⟩
  · next hb =>
    refine ⟨Memory.place_sorted _ _ hs (Memory.without_ne m k), fun c hc => ?_⟩
    rcases (Memory.mem_place _ _ _).mp hc with rfl | hc
    · exact hb
    · exact hn c hc

/-- A write within the bounds keeps them. -/
theorem Memory.write_bounded (n : Nat) (m : Memory) (k : Nat) (b : Byte) (hk : k < n)
    (h : m.bounded n) : (m.write k b).bounded n := by
  have hw : ∀ c ∈ m.without k, c.1 < n := fun c hc => h c (List.mem_filter.mp hc).1
  unfold Memory.write
  split
  · exact hw
  · intro c hc
    rcases (Memory.mem_place _ _ _).mp hc with rfl | hc
    · exact hk
    · exact hw c hc

theorem Memory.wf_nil : Memory.wf [] := ⟨List.Pairwise.nil, fun _ h => nomatch h⟩

theorem Memory.ofCells_wf (n : Nat) (l : List Host.Cell) : (Memory.ofCells n l).wf := by
  induction l with
  | nil => exact Memory.wf_nil
  | cons c r ih =>
    unfold Memory.ofCells at *
    rw [List.foldr_cons]
    split
    · exact Memory.write_wf _ _ _ ih
    · exact ih

theorem Memory.ofCells_bounded (n : Nat) (l : List Host.Cell) : (Memory.ofCells n l).bounded n := by
  induction l with
  | nil => simp [Memory.ofCells]
  | cons c r ih =>
    unfold Memory.ofCells at *
    rw [List.foldr_cons]
    split
    · next h => exact Memory.write_bounded n _ _ _ h ih
    · exact ih

/-- A memory made from a list reads, within its bounds, what the list says. -/
theorem Memory.read_ofCells (n : Nat) (l : List Host.Cell) (k : Nat) (hk : k < n) :
    (Memory.ofCells n l).read k = Memory.read l k := by
  induction l with
  | nil => rfl
  | cons c r ih =>
    unfold Memory.ofCells at *
    rw [List.foldr_cons, Memory.read_cons]
    split
    · rw [Memory.read_write, ih]
      by_cases h : k = c.1 <;> simp [h, eq_comm]
    · next h =>
      rw [ih, if_neg (by omega)]

/-- What the cells of a byte sequence read, followed by another list. -/
theorem Memory.read_ofBytes (bytes : List Byte) (l : List Host.Cell) (n k : Nat) (h : n ≤ k) :
    Memory.read (Memory.ofBytes n bytes ++ l) k
      = (bytes[k - n]?).getD (Memory.read l k) := by
  induction bytes generalizing n with
  | nil => simp [Memory.ofBytes]
  | cons b r ih =>
    simp only [Memory.ofBytes, List.cons_append, Memory.read_cons]
    by_cases hk : n = k
    · subst hk; simp
    · rw [if_neg hk, ih (n + 1) (by omega)]
      rw [show k - n = (k - (n + 1)) + 1 by omega, List.getElem?_cons_succ]

/-- One array written, within its bounds: all arrays stay good. -/
theorem Rams.set_write_good (ramBanks : Nat) (r : Rams) (x : RamArray) (k : Nat) (v : Byte)
    (hk : k < x.size ramBanks) (h : r.Good ramBanks) :
    (r.set x ((r.get x).write k v)).Good ramBanks := by
  intro y
  rw [Rams.get_set]
  split
  · next hy =>
    subst hy
    exact ⟨Memory.write_wf _ _ _ (h y).1, Memory.write_bounded _ _ _ _ hk (h y).2⟩
  · exact h y

/-- The arrays at reset are good, whatever `InitMem` and the save file are. -/
theorem Rams.atReset_good (ramBanks : Nat) (i : Rams) (w : Option (List Byte)) :
    (Rams.atReset ramBanks i w).Good ramBanks := by
  intro x
  cases x <;> exact ⟨Memory.ofCells_wf _ _, Memory.ofCells_bounded _ _⟩

@[simp] theorem State.cell_setCell (s : State) (x y : RamArray) (k j : Nat) (v : Byte) :
    (s.setCell x k v).cell y j = if y = x ∧ j = k then v else s.cell y j := by
  simp only [State.cell, State.setCell_block, Rams.get_set]
  by_cases hy : y = x
  · subst hy; simp [Memory.read_write]
  · simp [hy]

end Sys2Proof.Machine
end

