-- ==== Sys2Proof/Laws/Resolve.lean ====
section
/-! SUPPORT. What resolution does, said once: for each region the table condition under which an
address resolves to it, and back. Later proofs cite these and do not unfold `resolve`. -/

namespace Sys2Proof

open Config

theorem within_iff (a : Addr) (lo hi : Nat) :
    within a lo hi = true ↔ lo ≤ a.toNat ∧ a.toNat ≤ hi := by
  simp [within]

theorem isAt_iff (a : Addr) (n : Nat) : isAt a n = true ↔ a.toNat = n := by simp [isAt]

/-! ### The registers of step 1 -/

theorem mem_cgbRegs (r : CgbReg) : r ∈ cgbRegs := by cases r <;> decide

theorem mem_cgbAddrs (p : Params) (r : CgbReg) : p.addrOf r ∈ p.cgbAddrs :=
  List.mem_map.mpr ⟨r, mem_cgbRegs r, rfl⟩

/-- The register found at an address is at that address. -/
theorem addrOf_cgbAt (p : Params) (a : Addr) (r : CgbReg) (h : p.cgbAt a = some r) :
    p.addrOf r = a := by
  simpa using List.find?_some h

theorem cgbAt_eq_none (p : Params) (a : Addr) : p.cgbAt a = none ↔ a ∉ p.cgbAddrs := by
  simp [Params.cgbAt, Params.cgbAddrs]

/-- Addresses that differ find each register at its own (rule R8). -/
theorem cgbAt_addrOf (p : Params) (hv : p.Valid) (r : CgbReg) : p.cgbAt (p.addrOf r) = some r := by
  cases h : p.cgbAt (p.addrOf r) with
  | none => exact absurd (mem_cgbAddrs p r) ((cgbAt_eq_none _ _).mp h)
  | some q =>
    exact congrArg some
      (List.inj_on_of_nodup_map hv.1 (mem_cgbRegs q) (mem_cgbRegs r) (addrOf_cgbAt _ _ _ h))

/-- No register of step 1 stands at an address that rule R8 keeps out of its reach. -/
theorem not_mem_cgbAddrs (p : Params) (hv : p.Valid) (a : Addr)
    (h : a.toNat = 0xFF50 ∨ a.toNat ∈ undocRegisters ∨ 0x8000 ≤ a.toNat ∧ a.toNat ≤ 0x9FFF) :
    a ∉ p.cgbAddrs := by
  intro hm
  obtain ⟨r, hr, rfl⟩ := List.mem_map.mp hm
  have := hv.2.1 r hr
  tauto

/-- A step-1 register row says where the address is. -/
theorem cgbReg_iff (v : View) (m : Snapshot) (a : Addr) (r : CgbReg) :
    Table.cgbReg v m a r = true ↔ a = v.params.addrOf r ∧ m.inCGBMode = true := by
  simp [Table.cgbReg]

theorem paletteData_iff (v : View) (m : Snapshot) (a : Addr) (r : CgbReg) :
    Table.paletteData v m a r = true ↔ Table.cgbReg v m a r = true ∧ m.videoMode ≠ .mode3 := by
  simp [Table.paletteData]

/-- Off the step-1 registers of CGB mode. -/
theorem cgbClaims_false_iff (v : View) (m : Snapshot) (a : Addr) :
    Table.cgbClaims v m a = false ↔ (m.inCGBMode = true → a ∉ v.params.cgbAddrs) := by
  cases h : m.inCGBMode <;> simp [Table.cgbClaims, h]

theorem cgbClaims_of_cgbReg (v : View) (m : Snapshot) (a : Addr) (r : CgbReg)
    (h : Table.cgbReg v m a r = true) : Table.cgbClaims v m a = true := by
  obtain ⟨rfl, hg⟩ := (cgbReg_iff v m a r).mp h
  simp [Table.cgbClaims, hg, mem_cgbAddrs]

/-- Out of CGB mode step 1 takes nothing (rule R148). -/
theorem cgbClaims_of_dmgMode (v : View) (m : Snapshot) (a : Addr) (h : m.inCGBMode = false) :
    Table.cgbClaims v m a = false :=
  (cgbClaims_false_iff v m a).mpr fun hg => by rw [h] at hg; cases hg

theorem row_iff (v : View) (m : Snapshot) (a : Addr) (lo hi : Nat) :
    Table.row v m a lo hi = true
      ↔ (lo ≤ a.toNat ∧ a.toNat ≤ hi) ∧ Table.cgbClaims v m a = false := by
  simp [Table.row, within_iff]

/-- The overlay condition of rule R128 is the condition of the table's `BOOTROM` rows. -/
theorem bootRom_iff (v : View) (m : Snapshot) (a : Addr) :
    Table.bootRom v m a = true
      ↔ a.toNat ≤ 0x7FFF ∧ Table.cgbClaims v m a = false ∧ overlayCovers v m a = true := by
  simp only [Table.bootRom, overlayCovers, Bool.and_eq_true, row_iff]
  have := Nat.zero_le a.toNat
  tauto

theorem cart_iff (v : View) (m : Snapshot) (a : Addr) (lo hi : Nat) (h : hi ≤ 0x7FFF) :
    Table.cart v m a lo hi = true
      ↔ (lo ≤ a.toNat ∧ a.toNat ≤ hi) ∧ Table.cgbClaims v m a = false
        ∧ overlayCovers v m a = false := by
  simp only [Table.cart, Bool.and_eq_true, Bool.not_eq_true', row_iff]
  rw [Bool.eq_false_iff (b := Table.bootRom v m a), Bool.eq_false_iff (b := overlayCovers v m a), Ne,
    Ne, bootRom_iff]
  constructor
  · rintro ⟨⟨h1, hc⟩, h2⟩
    exact ⟨h1, hc, fun h3 => h2 ⟨by omega, hc, h3⟩⟩
  · rintro ⟨h1, hc, h2⟩
    exact ⟨⟨h1, hc⟩, fun h3 => h2 h3.2.2⟩

/-- When the external RAM window is shut. -/
theorem extRamOpen_eq_false (v : View) :
    Table.extRamOpen v = false ↔ v.ramBanks ≤ v.ramBankSel.toNat ∨ v.selEnabled = false := by
  simp only [Table.extRamOpen, Bool.and_eq_false_iff, decide_eq_false_iff_not, Nat.not_lt]

/-- In CGB mode the address of a step-1 register is that register (rules R122 to R126). -/
theorem resolve_cgbReg (v : View) (m : Snapshot) (a : Addr) (r : CgbReg) (hv : v.params.Valid)
    (h : Table.cgbReg v m a r = true) : resolve v m a = some (cgbRegion m r) := by
  obtain ⟨rfl, hg⟩ := (cgbReg_iff v m a r).mp h
  simp [resolve, hg, resolveCgb, cgbAt_addrOf _ hv]

/-- Off step 1, resolution is the common table. -/
theorem resolve_common (v : View) (m : Snapshot) (a : Addr) (h : Table.cgbClaims v m a = false)
    (h' : ¬(0x8000 ≤ a.toNat ∧ a.toNat ≤ 0x9FFF)) : resolve v m a = resolveCommon v m a := by
  cases hg : m.inCGBMode
  · simp [resolve, hg]
  · have hn := (cgbAt_eq_none _ _).mpr ((cgbClaims_false_iff v m a).mp h hg)
    have hw : ¬within a 0x8000 0x9FFF = true := by rwa [within_iff]
    simp [resolve, hg, resolveCgb, hn, hw]

/-! ### Each region, from its table condition -/

theorem resolve_bgpd (v : View) (m : Snapshot) (a : Addr) (hv : v.params.Valid)
    (h : Table.paletteData v m a .bgpd = true) : resolve v m a = some .bgpd := by
  obtain ⟨h, hm⟩ := (paletteData_iff v m a _).mp h
  rw [resolve_cgbReg v m a _ hv h, cgbRegion, if_neg hm]

theorem resolve_obpd (v : View) (m : Snapshot) (a : Addr) (hv : v.params.Valid)
    (h : Table.paletteData v m a .obpd = true) : resolve v m a = some .obpd := by
  obtain ⟨h, hm⟩ := (paletteData_iff v m a _).mp h
  rw [resolve_cgbReg v m a _ hv h, cgbRegion, if_neg hm]

/-- The VRAM window, in either mode (rules R127, R130). -/
theorem resolve_vramWindow (v : View) (m : Snapshot) (a : Addr)
    (h : 0x8000 ≤ a.toNat ∧ a.toNat ≤ 0x9FFF) (hc : Table.cgbClaims v m a = false) :
    resolve v m a = some (if m.videoMode = .mode3 then .unacc
      else .vram (vramBank m v.vbk) (a.toNat - 0x8000)) := by
  have hw : within a 0x8000 0x9FFF = true := (within_iff a _ _).mpr h
  cases hg : m.inCGBMode
  · have hl : ¬within a 0x0000 0x7FFF = true := by rw [within_iff]; omega
    simp [resolve, hg, resolveCommon, hl, hw, vramBank]
  · have hn := (cgbAt_eq_none _ _).mpr ((cgbClaims_false_iff v m a).mp hc hg)
    simp [resolve, hg, resolveCgb, hn, hw]

theorem resolve_vram (v : View) (m : Snapshot) (a : Addr) (h : Table.vram v m a = true) :
    resolve v m a = some (.vram (vramBank m v.vbk) (a.toNat - 0x8000)) := by
  simp only [Table.vram, Bool.and_eq_true, row_iff, decide_eq_true_eq] at h
  rw [resolve_vramWindow v m a h.1.1 h.1.2, if_neg h.2]

theorem resolve_bootRom (v : View) (m : Snapshot) (a : Addr) (h : Table.bootRom v m a = true) :
    resolve v m a = some (.bootRom a.toNat) := by
  rw [bootRom_iff] at h
  rw [resolve_common v m a h.2.1 (by omega)]
  simp only [resolveCommon, within_iff]
  rw [if_pos (by omega), if_pos h.2.2]

theorem resolve_cart (v : View) (m : Snapshot) (a : Addr) (lo hi : Nat) (hi' : hi ≤ 0x7FFF)
    (h : Table.cart v m a lo hi = true) : resolve v m a = some (.cart a.toNat) := by
  rw [cart_iff _ _ _ _ _ hi'] at h
  rw [resolve_common v m a h.2.1 (by omega)]
  simp only [resolveCommon, within_iff]
  rw [if_pos (by omega), h.2.2]
  rfl

theorem resolve_extRam (v : View) (m : Snapshot) (a : Addr) (h : Table.extRam v m a = true) :
    resolve v m a = some (.extRam v.ramBankSel.toNat (a.toNat - 0xA000)) := by
  simp only [Table.extRam, Table.extRamOpen, Bool.and_eq_true, row_iff, decide_eq_true_eq] at h
  obtain ⟨⟨h, hc⟩, hb, he⟩ := h
  rw [resolve_common v m a hc (by omega)]
  simp only [resolveCommon, within_iff]
  rw [if_neg (by omega), if_neg (by omega), if_pos h, if_pos ⟨by omega, hb, he⟩]

theorem resolve_wram0 (v : View) (m : Snapshot) (a : Addr) (h : Table.wram0 v m a = true) :
    resolve v m a = some (.wram 0 (a.toNat % 0x1000)) := by
  simp only [Table.wram0, Bool.and_eq_true, Bool.or_eq_true, row_iff, ← or_and_right] at h
  obtain ⟨⟨h, hc⟩, hg⟩ := h
  rw [resolve_common v m a hc (by omega)]
  simp only [resolveCommon, within_iff, hg, if_true]
  obtain h | h := h <;> simp (disch := omega) only [if_neg, if_pos] <;>
    (simp only [Option.some.injEq, Region.wram.injEq, true_and]; omega)

theorem resolve_wramX (v : View) (m : Snapshot) (a : Addr) (h : Table.wramX v m a = true) :
    resolve v m a = some (.wram (wramBank v.svbk) (a.toNat % 0x1000)) := by
  simp only [Table.wramX, Bool.and_eq_true, Bool.or_eq_true, row_iff, ← or_and_right] at h
  obtain ⟨⟨h, hc⟩, hg⟩ := h
  rw [resolve_common v m a hc (by omega)]
  simp only [resolveCommon, within_iff, hg, if_true]
  obtain h | h := h <;> simp (disch := omega) only [if_neg, if_pos] <;>
    (simp only [Option.some.injEq, Region.wram.injEq, true_and]; omega)

theorem resolve_iram (v : View) (m : Snapshot) (a : Addr) (h : Table.iram v m a = true) :
    resolve v m a = some (.iram (a.toNat % 0x2000)) := by
  simp only [Table.iram, Bool.and_eq_true, Bool.or_eq_true, row_iff, Bool.not_eq_true',
    ← or_and_right] at h
  obtain ⟨⟨h, hc⟩, hg⟩ := h
  rw [resolve_common v m a hc (by omega)]
  simp only [resolveCommon, within_iff, hg, Bool.false_eq_true, if_false]
  obtain ((h | h) | h) | h := h <;> simp (disch := omega) only [if_neg, if_pos] <;>
    (simp only [Option.some.injEq, Region.iram.injEq]; omega)

theorem resolve_oam (v : View) (m : Snapshot) (a : Addr) (h : Table.oam v m a = true) :
    resolve v m a = some (.oam (a.toNat - 0xFE00)) := by
  simp only [Table.oam, Bool.and_eq_true, Bool.or_eq_true, row_iff, decide_eq_true_eq] at h
  obtain ⟨⟨h, hc⟩, hv⟩ := h
  rw [resolve_common v m a hc (by omega)]
  simp only [resolveCommon, within_iff]
  obtain hv | hv := hv <;> simp (disch := omega) only [if_neg, if_pos] <;> simp [hv]

theorem resolve_empty0 (v : View) (m : Snapshot) (a : Addr)
    (h : 0xFEA0 ≤ a.toNat ∧ a.toNat ≤ 0xFEFF) (hc : Table.cgbClaims v m a = false) :
    resolve v m a = some (if m.isCGB then .empty0c (a.toNat - 0xFEA0)
      else .empty0d (a.toNat - 0xFEA0)) := by
  rw [resolve_common v m a hc (by omega)]
  simp only [resolveCommon, within_iff]
  simp (disch := omega) only [if_neg, if_pos]

theorem resolve_empty0d (v : View) (m : Snapshot) (a : Addr) (h : Table.empty0d v m a = true) :
    resolve v m a = some (.empty0d (a.toNat - 0xFEA0)) := by
  simp only [Table.empty0d, Bool.and_eq_true, row_iff, Bool.not_eq_true'] at h
  rw [resolve_empty0 v m a h.1.1 h.1.2, h.2]
  rfl

theorem resolve_empty0c (v : View) (m : Snapshot) (a : Addr) (h : Table.empty0c v m a = true) :
    resolve v m a = some (.empty0c (a.toNat - 0xFEA0)) := by
  simp only [Table.empty0c, Bool.and_eq_true, row_iff] at h
  rw [resolve_empty0 v m a h.1.1 h.1.2, h.2]
  rfl

theorem resolve_wave (v : View) (m : Snapshot) (a : Addr) (h : Table.wave v m a = true) :
    resolve v m a = some (.wave (a.toNat - 0xFF30)) := by
  obtain ⟨h, hc⟩ := (row_iff _ _ _ _ _).mp h
  rw [resolve_common v m a hc (by omega)]
  simp only [resolveCommon, within_iff]
  simp (disch := omega) only [if_neg, if_pos]

theorem resolve_ioPort (v : View) (m : Snapshot) (a : Addr) (h : Table.ioPort v m a = true) :
    resolve v m a = some (.ioPort (a.toNat - 0xFF00)) := by
  simp only [Table.ioPort, Bool.or_eq_true, row_iff, ← or_and_right] at h
  rw [resolve_common v m a h.2 (by omega)]
  simp only [resolveCommon, within_iff]
  simp (disch := omega) only [if_neg, if_pos]

theorem resolve_hram (v : View) (m : Snapshot) (a : Addr) (h : Table.hram v m a = true) :
    resolve v m a = some (.hram (a.toNat - 0xFF80)) := by
  obtain ⟨h, hc⟩ := (row_iff _ _ _ _ _).mp h
  rw [resolve_common v m a hc (by omega)]
  simp only [resolveCommon, within_iff]
  simp (disch := omega) only [if_neg, if_pos]

theorem resolve_ie (v : View) (m : Snapshot) (a : Addr) (h : Table.ie v m a = true) :
    resolve v m a = some .ie := by
  obtain ⟨h, hc⟩ := (row_iff _ _ _ _ _).mp h
  rw [resolve_common v m a hc (by omega)]
  simp only [resolveCommon, within_iff, isAt_iff]
  simp (disch := omega) only [if_neg, if_pos]

theorem resolve_unacc (v : View) (m : Snapshot) (a : Addr)
    (hp : Table.cgbClaims v m a = true → v.params.Valid)
    (h : Table.unacc v m a = true) : resolve v m a = some .unacc := by
  simp only [Table.unacc, Bool.and_eq_true, Bool.or_eq_true, row_iff, Bool.not_eq_true',
    decide_eq_true_eq] at h
  obtain ((⟨h | h, hv⟩ | ⟨⟨h, hc⟩, hv⟩) | ⟨⟨h, hc⟩, hr⟩) | ⟨⟨h, hc⟩, hv⟩ := h
  · rw [resolve_cgbReg v m a _ (hp (cgbClaims_of_cgbReg _ _ _ _ h)) h, cgbRegion, if_pos hv]
  · rw [resolve_cgbReg v m a _ (hp (cgbClaims_of_cgbReg _ _ _ _ h)) h, cgbRegion, if_pos hv]
  · rw [resolve_vramWindow v m a h hc, if_pos hv]
  · have hr : ¬(v.ramBanks > 0 ∧ v.ramBankSel.toNat < v.ramBanks ∧ v.selEnabled = true) := by
      rintro ⟨-, h1, h2⟩
      simp [Table.extRamOpen, h1, h2] at hr
    rw [resolve_common v m a hc (by omega)]
    simp only [resolveCommon, within_iff]
    rw [if_neg (by omega), if_neg (by omega), if_pos h, if_neg hr]
  · rw [resolve_common v m a hc (by omega)]
    simp only [resolveCommon, within_iff]
    simp (disch := omega) only [if_neg, if_pos hv, if_pos h]

theorem undocAt_addr (a : Addr) (r : UndocReg) (h : a.toNat = r.addr) : undocAt a = some r := by
  cases r <;> simp_all [undocAt, isAt, UndocReg.addr]

theorem undocAt_none (a : Addr) (h : a.toNat ∉ undocRegisters) : undocAt a = none := by
  simp only [undocRegisters, List.mem_cons, List.not_mem_nil, or_false, not_or] at h
  simp [undocAt, isAt, h]

theorem undocAt_some (a : Addr) (r : UndocReg) (h : undocAt a = some r) : a.toNat = r.addr := by
  unfold undocAt at h
  simp only [isAt_iff] at h
  split_ifs at h <;> cases h <;> assumption

/-- In the upper I/O range, outside the step-1 registers of CGB mode. -/
theorem resolve_upperIo (v : View) (m : Snapshot) (a : Addr)
    (h : 0xFF4C ≤ a.toNat ∧ a.toNat ≤ 0xFF7F) (hc : Table.cgbClaims v m a = false) :
    resolve v m a = some (resolveUpperIo v m a) := by
  rw [resolve_common v m a hc (by omega)]
  simp only [resolveCommon, within_iff]
  simp (disch := omega) only [if_neg, if_pos]

theorem resolve_bootReg (v : View) (m : Snapshot) (a : Addr) (h : Table.bootReg v m a = true) :
    resolve v m a = some .bootReg := by
  simp only [Table.bootReg, Bool.and_eq_true, row_iff] at h
  obtain ⟨⟨h, hc⟩, hb⟩ := h
  have h0 : isAt a 0xFF50 = true := (isAt_iff _ _).mpr (by omega)
  rw [resolve_upperIo v m a (by omega) hc]
  simp [resolveUpperIo, h0, hb]

theorem resolve_undoc (v : View) (m : Snapshot) (a : Addr) (r : UndocReg)
    (h : Table.undoc v m a r = true) : resolve v m a = some (.undoc r) := by
  simp only [Table.undoc, Bool.and_eq_true, row_iff] at h
  obtain ⟨⟨h, hc⟩, hg⟩ := h
  have hr : 0xFF6C ≤ r.addr ∧ r.addr ≤ 0xFF77 := by cases r <;> decide
  rw [resolve_upperIo v m a (by omega) hc]
  have : isAt a 0xFF50 = false := by simp only [isAt, decide_eq_false_iff_not]; omega
  simp [resolveUpperIo, this, hg, undocAt_addr a r (by omega)]

theorem resolve_empty1 (v : View) (m : Snapshot) (a : Addr) (h : Table.empty1 v m a = true) :
    resolve v m a = some (.empty1 (a.toNat - 0xFF4C)) := by
  simp only [Table.empty1, Bool.and_eq_true, row_iff, Bool.not_eq_true'] at h
  obtain ⟨⟨⟨h, hc⟩, hb⟩, hu⟩ := h
  have hb : ¬(isAt a 0xFF50 && booting m v.bootOff) = true := by
    intro h0
    rw [Bool.and_eq_true, isAt_iff] at h0
    have : Table.bootReg v m a = true := by
      rw [Table.bootReg, Bool.and_eq_true, row_iff]; exact ⟨⟨by omega, hc⟩, h0.2⟩
    rw [hb] at this; cases this
  rw [resolve_upperIo v m a h hc, resolveUpperIo, if_neg hb]
  cases hcg : m.isCGB
  · rfl
  · simp only [hcg, Bool.true_and, decide_eq_false_iff_not] at hu
    rw [undocAt_none a hu]

/-! ### Back: the table condition of what an address resolved to -/

/-- The table condition under which an address resolves to a region, with its index and offset. -/
def Region.rule (v : View) (m : Snapshot) (a : Addr) : Region → Prop
  | .unacc => Table.unacc v m a = true
  | .bootRom off => Table.bootRom v m a = true ∧ off = a.toNat
  | .cart off => Table.cart v m a 0x0000 0x7FFF = true ∧ off = a.toNat
  | .vram bank off => Table.vram v m a = true ∧ bank = vramBank m v.vbk ∧ off = a.toNat - 0x8000
  | .extRam bank off => Table.extRam v m a = true ∧ bank = v.ramBankSel.toNat ∧ off = a.toNat - 0xA000
  | .iram off => Table.iram v m a = true ∧ off = a.toNat % 0x2000
  | .wram bank off => off = a.toNat % 0x1000
      ∧ (Table.wram0 v m a = true ∧ bank = 0 ∨ Table.wramX v m a = true ∧ bank = wramBank v.svbk)
  | .oam off => Table.oam v m a = true ∧ off = a.toNat - 0xFE00
  | .empty0d off => Table.empty0d v m a = true ∧ off = a.toNat - 0xFEA0
  | .empty0c off => Table.empty0c v m a = true ∧ off = a.toNat - 0xFEA0
  | .wave off => Table.wave v m a = true ∧ off = a.toNat - 0xFF30
  | .ioPort index => Table.ioPort v m a = true ∧ index = a.toNat - 0xFF00
  | .bootReg => Table.bootReg v m a = true
  | .undoc r => Table.undoc v m a r = true
  | .empty1 off => Table.empty1 v m a = true ∧ off = a.toNat - 0xFF4C
  | .hram off => Table.hram v m a = true ∧ off = a.toNat - 0xFF80
  | .ie => Table.ie v m a = true
  | .vramSel => Table.cgbReg v m a .vramSel = true
  | .wramSel => Table.cgbReg v m a .wramSel = true
  | .hdma .hdma1 => Table.cgbReg v m a .hdma1 = true
  | .hdma .hdma2 => Table.cgbReg v m a .hdma2 = true
  | .hdma .hdma3 => Table.cgbReg v m a .hdma3 = true
  | .hdma .hdma4 => Table.cgbReg v m a .hdma4 = true
  | .speed => Table.cgbReg v m a .speed = true
  | .infrared => Table.cgbReg v m a .infrared = true
  | .bgpi => Table.cgbReg v m a .bgpi = true
  | .bgpd => Table.paletteData v m a .bgpd = true
  | .obpi => Table.cgbReg v m a .obpi = true
  | .obpd => Table.paletteData v m a .obpd = true
  | .hdma5 => Table.cgbReg v m a .hdma5 = true

/-- What a branch that answered was. -/
theorem ite_inv {α : Type} {c : Prop} [Decidable c] {x y : Option α} {r : α}
    (h : (if c then x else y) = some r) : (c ∧ x = some r) ∨ (¬c ∧ y = some r) := by
  by_cases hc : c
  · rw [if_pos hc] at h; exact .inl ⟨hc, h⟩
  · rw [if_neg hc] at h; exact .inr ⟨hc, h⟩

/-- Step 1 answers by a step-1 register or the VRAM window. -/
theorem resolveCgb_inv (v : View) (m : Snapshot) (a : Addr) (r : Region) (hg : m.inCGBMode = true)
    (h : resolveCgb v m a = some r) : r.rule v m a := by
  unfold resolveCgb at h
  split at h
  · next q hq =>
    have hrow : Table.cgbReg v m a q = true :=
      (cgbReg_iff _ _ _ _).mpr ⟨(addrOf_cgbAt _ _ _ hq).symm, hg⟩
    cases h
    cases q with
    | bgpd =>
      by_cases hv : m.videoMode = .mode3
      · rw [cgbRegion, if_pos hv]; simp [Region.rule, Table.unacc, hrow, hv]
      · rw [cgbRegion, if_neg hv]; exact (paletteData_iff _ _ _ _).mpr ⟨hrow, hv⟩
    | obpd =>
      by_cases hv : m.videoMode = .mode3
      · rw [cgbRegion, if_pos hv]; simp [Region.rule, Table.unacc, hrow, hv]
      · rw [cgbRegion, if_neg hv]; exact (paletteData_iff _ _ _ _).mpr ⟨hrow, hv⟩
    | _ => exact hrow
  · next hn =>
    have hc : Table.cgbClaims v m a = false :=
      (cgbClaims_false_iff _ _ _).mpr fun _ => (cgbAt_eq_none _ _).mp hn
    obtain ⟨h1, h⟩ | ⟨-, h⟩ := ite_inv h
    · have h2 : Table.row v m a 0x8000 0x9FFF = true :=
        (row_iff _ _ _ _ _).mpr ⟨(within_iff _ _ _).mp h1, hc⟩
      by_cases hv : m.videoMode = .mode3
      · rw [if_pos hv] at h; cases h; simp [Region.rule, Table.unacc, h2, hv]
      · rw [if_neg hv] at h; cases h; simp [Region.rule, Table.vram, h2, hv]
    · cases h

/-- Where step 1 answers nothing the address is none of its registers. -/
theorem resolveCgb_none (v : View) (m : Snapshot) (a : Addr) (h : resolveCgb v m a = none) :
    a ∉ v.params.cgbAddrs ∧ ¬(0x8000 ≤ a.toNat ∧ a.toNat ≤ 0x9FFF) := by
  unfold resolveCgb at h
  split at h
  · cases h
  · next hn =>
    refine ⟨(cgbAt_eq_none _ _).mp hn, fun hr => ?_⟩
    rw [if_pos ((within_iff _ _ _).mpr hr)] at h
    cases h

/-- The upper I/O range answers by the first of its three rules. -/
theorem resolveUpperIo_inv (v : View) (m : Snapshot) (a : Addr)
    (h : 0xFF4C ≤ a.toNat ∧ a.toNat ≤ 0xFF7F) (hc : Table.cgbClaims v m a = false) :
    (resolveUpperIo v m a).rule v m a := by
  unfold resolveUpperIo
  split
  · next hb =>
    rw [Bool.and_eq_true, isAt_iff] at hb
    have hr : Table.row v m a 0xFF50 0xFF50 = true := (row_iff _ _ _ _ _).mpr ⟨by omega, hc⟩
    simp [Region.rule, Table.bootReg, hr, hb.2]
  · next hb =>
    have hb : Table.bootReg v m a = false := by
      rw [Bool.eq_false_iff]
      intro h0
      rw [Table.bootReg, Bool.and_eq_true, row_iff] at h0
      exact hb (by rw [Bool.and_eq_true, isAt_iff]; exact ⟨by omega, h0.2⟩)
    split
    · next q hcg hu =>
      have hq := undocAt_some _ _ hu
      have hr : Table.row v m a q.addr q.addr = true := (row_iff _ _ _ _ _).mpr ⟨by omega, hc⟩
      simp [Region.rule, Table.undoc, hr, hcg]
    · next hno =>
      refine ⟨?_, rfl⟩
      simp only [Table.empty1, Bool.and_eq_true, row_iff, Bool.not_eq_true', hc, hb]
      refine ⟨⟨⟨h, trivial⟩, trivial⟩, ?_⟩
      cases hcg : m.isCGB
      · rfl
      · simp only [Bool.true_and, decide_eq_false_iff_not]
        intro hmem
        simp only [undocRegisters, List.mem_cons, List.not_mem_nil, or_false] at hmem
        obtain h | h | h | h | h | h | h := hmem
        · exact hno .ff6c hcg (undocAt_addr a .ff6c h)
        · exact hno .ff72 hcg (undocAt_addr a .ff72 h)
        · exact hno .ff73 hcg (undocAt_addr a .ff73 h)
        · exact hno .ff74 hcg (undocAt_addr a .ff74 h)
        · exact hno .ff75 hcg (undocAt_addr a .ff75 h)
        · exact hno .ff76 hcg (undocAt_addr a .ff76 h)
        · exact hno .ff77 hcg (undocAt_addr a .ff77 h)

theorem free_of_not_locked (vm : VideoMode) (h : ¬(vm = .mode2 ∨ vm = .mode3)) :
    vm = .mode0 ∨ vm = .mode1 := by
  cases vm <;> simp at h ⊢

/-- The common table answers by the rule of its region. -/
theorem resolveCommon_inv (v : View) (m : Snapshot) (a : Addr) (r : Region)
    (hc : Table.cgbClaims v m a = false)
    (hv : m.inCGBMode = true → ¬(0x8000 ≤ a.toNat ∧ a.toNat ≤ 0x9FFF))
    (h : resolveCommon v m a = some r) : r.rule v m a := by
  have row_of : ∀ lo hi, within a lo hi = true → Table.row v m a lo hi = true :=
    fun lo hi hw => (row_iff _ _ _ _ _).mpr ⟨(within_iff _ _ _).mp hw, hc⟩
  unfold resolveCommon at h
  obtain ⟨h0, h⟩ | ⟨-, h⟩ := ite_inv h
  · have h0 := (within_iff _ _ _).mp h0
    split_ifs at h with hb <;> cases h
    · exact ⟨(bootRom_iff _ _ _).mpr ⟨h0.2, hc, hb⟩, rfl⟩
    · exact ⟨(cart_iff _ _ _ _ _ (by omega)).mpr ⟨h0, hc, by simpa using hb⟩, rfl⟩
  obtain ⟨h1, h⟩ | ⟨-, h⟩ := ite_inv h
  · have hg : m.inCGBMode = false := by
      cases hg : m.inCGBMode
      · rfl
      · exact absurd ((within_iff _ _ _).mp h1) (hv hg)
    split_ifs at h with hm <;> cases h
    · simp [Region.rule, Table.unacc, row_of _ _ h1, hm]
    · simp [Region.rule, Table.vram, row_of _ _ h1, hm, vramBank, hg]
  obtain ⟨h2, h⟩ | ⟨-, h⟩ := ite_inv h
  · split_ifs at h with hm <;> cases h
    · simp [Region.rule, Table.extRam, Table.extRamOpen, row_of _ _ h2, hm.2.1, hm.2.2]
    · have : Table.extRamOpen v = false := by
        rw [Bool.eq_false_iff]
        intro ho
        simp only [Table.extRamOpen, Bool.and_eq_true, decide_eq_true_eq] at ho
        exact hm ⟨by omega, ho.1, ho.2⟩
      simp [Region.rule, Table.unacc, row_of _ _ h2, this]
  iterate 4
    obtain ⟨h3, h⟩ | ⟨-, h⟩ := ite_inv h
    · have h3' := (within_iff _ _ _).mp h3
      split_ifs at h with hm <;> cases h <;>
        simp [Region.rule, Table.wram0, Table.wramX, Table.iram, row_of _ _ h3, hm] <;> omega
  obtain ⟨h4, h⟩ | ⟨-, h⟩ := ite_inv h
  · split_ifs at h with hm <;> cases h
    · rcases hm with hm | hm <;> simp [Region.rule, Table.unacc, row_of _ _ h4, hm]
    · simp [Region.rule, Table.oam, row_of _ _ h4, free_of_not_locked _ hm]
  obtain ⟨h5, h⟩ | ⟨-, h⟩ := ite_inv h
  · split_ifs at h with hm <;> cases h <;>
      simp [Region.rule, Table.empty0c, Table.empty0d, row_of _ _ h5, hm]
  obtain ⟨h6, h⟩ | ⟨hw, h⟩ := ite_inv h
  · cases h; exact ⟨row_of _ _ h6, rfl⟩
  obtain ⟨h7, h⟩ | ⟨-, h⟩ := ite_inv h
  · cases h
    simp only [within_iff] at hw h7
    refine ⟨?_, rfl⟩
    simp only [Table.ioPort, Bool.or_eq_true, row_iff, ← or_and_right]
    exact ⟨by omega, hc⟩
  obtain ⟨h8, h⟩ | ⟨-, h⟩ := ite_inv h
  · cases h; exact resolveUpperIo_inv v m a ((within_iff _ _ _).mp h8) hc
  obtain ⟨h9, h⟩ | ⟨-, h⟩ := ite_inv h
  · cases h; exact ⟨row_of _ _ h9, rfl⟩
  obtain ⟨h10, h⟩ | ⟨-, h⟩ := ite_inv h
  · cases h
    have := (isAt_iff _ _).mp h10
    exact (row_iff _ _ _ _ _).mpr ⟨by omega, hc⟩
  · cases h

/-- Where an address resolves to, the region's table condition holds, with that index and offset. -/
theorem resolve_inv (v : View) (m : Snapshot) (a : Addr) (r : Region)
    (h : resolve v m a = some r) : r.rule v m a := by
  unfold resolve at h
  split at h
  · next hg =>
    split at h
    · next hr => exact resolveCgb_inv v m a r hg (hr.trans h)
    · next hn =>
      obtain ⟨h1, h2⟩ := resolveCgb_none v m a hn
      exact resolveCommon_inv v m a r ((cgbClaims_false_iff _ _ _).mpr fun _ => h1) (fun _ => h2) h
  · next hg =>
    have hg' : m.inCGBMode = false := by simpa using hg
    exact resolveCommon_inv v m a r (cgbClaims_of_dmgMode _ _ _ hg') (fun h => absurd h hg) h

end Sys2Proof
end

