-- ==== Sys2Proof/Laws/Ops.lean ====
section
/-! SUPPORT. One lemma per shared operation: everything it can do when it answers a next state, and
when it does. Later proofs cite these and do not unfold the operation. -/

namespace Sys2Proof.Machine

/-! ### What an operation did when it answered a next state -/

@[simp] theorem readByte_next (b : Byte) (s t : State) :
    readByte b s = .next t ↔ t = s.returning b := by
  simp [readByte, eq_comm]

@[simp] theorem ignoreWrite_next (s t : State) : ignoreWrite s = .next t ↔ t = s := by
  simp [ignoreWrite, eq_comm]

@[simp] theorem writeBlock_next (b : Block) (s t : State) :
    writeBlock b s = .next t ↔ t = s.withBlock b := by
  simp [writeBlock, eq_comm]

@[simp] theorem raiseFault_next (f : Fault) (t : State) : ¬raiseFault f = .next t := by
  simp [raiseFault]

@[simp] theorem readCell_next (x : RamArray) (k : Nat) (a : Addr) (s t : State) :
    readCell x k a s = .next t
      ↔ k < x.size s.config.ramBanks ∧ t = s.returning (s.cell x k) := by
  unfold readCell
  split
  · next h => simp [h]
  · next h => simp [h]

@[simp] theorem writeCell_next (x : RamArray) (k : Nat) (a : Addr) (v : Byte) (s t : State) :
    writeCell x k a v s = .next t
      ↔ k < x.size s.config.ramBanks ∧ t = s.setCell x k v := by
  unfold writeCell
  split
  · next h => simp [h, eq_comm]
  · next h => simp [h]

@[simp] theorem extRead_next (leaf : Config.Leaf) (a : Addr) (s t : State) :
    extRead leaf a s = .next t
      ↔ t = { (s.sending (.extRead leaf a)).returning (Config.leafAnswer s.leafReads leaf a) with
          leafReads := s.leafReads + 1 } := by
  simp [extRead, eq_comm]

@[simp] theorem extWrite_next (leaf : Config.Leaf) (a : Addr) (v : Byte) (s t : State) :
    extWrite leaf a v s = .next t ↔ t = s.sending (.extWrite leaf a v) := by
  simp [extWrite, eq_comm]

/-! ### When an operation completes -/

theorem readCell_of_lt (x : RamArray) (k : Nat) (a : Addr) (s : State)
    (h : k < x.size s.config.ramBanks) : readCell x k a s = .next (s.returning (s.cell x k)) := by
  simp [readCell, h, readByte]

theorem writeCell_of_lt (x : RamArray) (k : Nat) (a : Addr) (v : Byte) (s : State)
    (h : k < x.size s.config.ramBanks) : writeCell x k a v s = .next (s.setCell x k v) := by
  simp [writeCell, h]

/-- Inside the boot ROM there is a byte. -/
theorem bootByte_of_lt (c : Config.Cartridge) (off : Nat) (h : off < c.bootSize) :
    ∃ b, bootByte c off = some b := by
  unfold bootByte
  exact ⟨_, List.getElem?_eq_getElem h⟩

/-- Storing a byte is storing it only. -/
theorem setCell_storedOnly (s : State) (x : RamArray) (k : Nat) (v : Byte) :
    StoredOnly s (s.setCell x k v) x k v := by
  refine ⟨fun y j => ?_, rfl⟩
  rw [State.cell_setCell]

/-! ### The view -/

/-- The view of `State.reset` that `decodeTableWord` takes. -/
theorem view_reset : State.reset.view = View.reset := by decide

/-- What resolution reads is not memory: a stored byte changes no view (rule R75). -/
@[simp] theorem State.setCell_view (s : State) (x : RamArray) (k : Nat) (v : Byte) :
    (s.setCell x k v).view = s.view := by
  cases x <;> rfl

@[simp] theorem State.returning_view (s : State) (b : Byte) : (s.returning b).view = s.view := rfl

@[simp] theorem State.sending_view (s : State) (e : LeafEvent) : (s.sending e).view = s.view := rfl

/-! ### A presented transaction is the one the next step runs -/

theorem present_taken (s : State) (t : Transaction) : (s.present t).taken = s := rfl

theorem step_present (s : State) (t : Transaction) : step (s.present t) = runTransaction t s := rfl

theorem step_of_inputs (s : State) (t : Transaction) (r : List Input) (h : s.inputs = .txn t :: r) :
    step s = runTransaction t s.taken := by
  simp [step, h]

theorem runTransaction_of_select (s : State) (t : Transaction) (i : Instr)
    (h : select s.view t = some i) : runTransaction t s = exec i s := by
  simp [runTransaction, h]

theorem select_rd (v : View) (m : Snapshot) (a : Addr) (r : Region) (h : resolve v m a = some r) :
    select v (.rd a m) = some (readInstr a m r) := by
  simp [select, h]

theorem select_wr (v : View) (m : Snapshot) (a : Addr) (w : Byte) (r : Region)
    (h : resolve v m a = some r) : select v (.wr a w m) = some (writeInstr v a w m r) := by
  simp [select, h]

end Sys2Proof.Machine
end

