-- ==== Sys2Proof/Laws/Select.lean ====
section
/-! SUPPORT. Choosing an instruction, said once: a well-formed instruction is the one its transaction
selects, what a transaction selects is well formed, and every transaction selects one. -/

namespace Sys2Proof

open Machine

/-! ### The cartridge window: which instruction an address is -/

theorem readInstr_rom0 (a : Addr) (m : Snapshot) (off : Nat) (h : a.toNat ≤ 0x3FFF) :
    readInstr a m (.cart off) = .rdRom0 a m :=
  if_pos ((within_iff a 0 0x3FFF).mpr ⟨Nat.zero_le _, h⟩)

theorem readInstr_romX (a : Addr) (m : Snapshot) (off : Nat) (h : 0x4000 ≤ a.toNat) :
    readInstr a m (.cart off) = .rdRomX a m :=
  if_neg (by rw [within_iff]; omega)

theorem writeInstr_ramEn (v : View) (a : Addr) (w : Byte) (m : Snapshot) (off : Nat)
    (h : a.toNat ≤ 0x1FFF) : writeInstr v a w m (.cart off) = .wrRamEn a w m :=
  if_pos ((within_iff a 0 0x1FFF).mpr ⟨Nat.zero_le _, h⟩)

theorem writeInstr_romLo (v : View) (a : Addr) (w : Byte) (m : Snapshot) (off : Nat)
    (h : 0x2000 ≤ a.toNat ∧ a.toNat ≤ 0x3FFF) :
    writeInstr v a w m (.cart off) = .wrRomLo a w m := by
  simp only [writeInstr, within_iff]
  rw [if_neg (by omega), if_pos h]

theorem writeInstr_bankHi (v : View) (a : Addr) (w : Byte) (m : Snapshot) (off : Nat)
    (h : 0x4000 ≤ a.toNat ∧ a.toNat ≤ 0x5FFF) :
    writeInstr v a w m (.cart off) =
      if v.bankingMode = .rom16KRam8K then .wrBankHiRom a w m else .wrBankHiRam a w m := by
  simp only [writeInstr, within_iff]
  rw [if_neg (by omega), if_neg (by omega), if_pos h]
  cases v.bankingMode <;> rfl

theorem writeInstr_mode (v : View) (a : Addr) (w : Byte) (m : Snapshot) (off : Nat)
    (h : 0x6000 ≤ a.toNat) : writeInstr v a w m (.cart off) = .wrMode a w m := by
  simp only [writeInstr, within_iff]
  rw [if_neg (by omega), if_neg (by omega), if_neg (by omega)]

theorem wramBank_ne_zero (svbk : BitVec 3) : wramBank svbk ≠ 0 := by
  unfold wramBank
  split <;> omega

/-! ### The row of the table and the region resolved to are one -/


theorem select_of_wf (v : View) (hv : v.params.Valid) (i : Instr) (h : i.wf v = true) :
    select v i.transaction = some i := by
  cases i with
  | rdVram a m => exact select_rd v m a _ (resolve_vram v m a h)
  | wrVram a w m => exact select_wr v m a w _ (resolve_vram v m a h)
  | rdSpeed a m => exact select_rd v m a _ (resolve_cgbReg v m a .speed hv h)
  | wrSpeed a w m => exact select_wr v m a w _ (resolve_cgbReg v m a .speed hv h)
  | rdInfrared a m => exact select_rd v m a _ (resolve_cgbReg v m a .infrared hv h)
  | wrInfrared a w m => exact select_wr v m a w _ (resolve_cgbReg v m a .infrared hv h)
  | rdWramSel a m => exact select_rd v m a _ (resolve_cgbReg v m a .wramSel hv h)
  | wrWramSel a w m => exact select_wr v m a w _ (resolve_cgbReg v m a .wramSel hv h)
  | rdVramSel a m => exact select_rd v m a _ (resolve_cgbReg v m a .vramSel hv h)
  | wrVramSel a w m => exact select_wr v m a w _ (resolve_cgbReg v m a .vramSel hv h)
  | rdBgpi a m => exact select_rd v m a _ (resolve_cgbReg v m a .bgpi hv h)
  | wrBgpi a w m => exact select_wr v m a w _ (resolve_cgbReg v m a .bgpi hv h)
  | rdBgpd a m => exact select_rd v m a _ (resolve_bgpd v m a hv h)
  | wrBgpd a w m => exact select_wr v m a w _ (resolve_bgpd v m a hv h)
  | rdObpi a m => exact select_rd v m a _ (resolve_cgbReg v m a .obpi hv h)
  | wrObpi a w m => exact select_wr v m a w _ (resolve_cgbReg v m a .obpi hv h)
  | rdObpd a m => exact select_rd v m a _ (resolve_obpd v m a hv h)
  | wrObpd a w m => exact select_wr v m a w _ (resolve_obpd v m a hv h)
  | rdUnacc a m => exact select_rd v m a _ (resolve_unacc v m a (fun _ => hv) h)
  | wrUnacc a w m => exact select_wr v m a w _ (resolve_unacc v m a (fun _ => hv) h)
  | rdHdma1 a m => exact select_rd v m a _ (resolve_cgbReg v m a .hdma1 hv h)
  | wrHdma1 a w m => exact select_wr v m a w _ (resolve_cgbReg v m a .hdma1 hv h)
  | rdHdma2 a m => exact select_rd v m a _ (resolve_cgbReg v m a .hdma2 hv h)
  | wrHdma2 a w m => exact select_wr v m a w _ (resolve_cgbReg v m a .hdma2 hv h)
  | rdHdma3 a m => exact select_rd v m a _ (resolve_cgbReg v m a .hdma3 hv h)
  | wrHdma3 a w m => exact select_wr v m a w _ (resolve_cgbReg v m a .hdma3 hv h)
  | rdHdma4 a m => exact select_rd v m a _ (resolve_cgbReg v m a .hdma4 hv h)
  | wrHdma4 a w m => exact select_wr v m a w _ (resolve_cgbReg v m a .hdma4 hv h)
  | rdHdma5 a m => exact select_rd v m a _ (resolve_cgbReg v m a .hdma5 hv h)
  | wrHdma5 a w m => exact select_wr v m a w _ (resolve_cgbReg v m a .hdma5 hv h)
  | rdBootRom a m => exact select_rd v m a _ (resolve_bootRom v m a h)
  | wrBootRom a w m => exact select_wr v m a w _ (resolve_bootRom v m a h)
  | rdRom0 a m =>
    have ha := (cart_iff _ _ _ _ _ (by omega)).mp h
    rw [Instr.transaction, select_rd v m a _ (resolve_cart v m a _ _ (by omega) h),
      readInstr_rom0 _ _ _ ha.1.2]
  | rdRomX a m =>
    have ha := (cart_iff _ _ _ _ _ (by omega)).mp h
    rw [Instr.transaction, select_rd v m a _ (resolve_cart v m a _ _ (by omega) h),
      readInstr_romX _ _ _ ha.1.1]
  | wrRamEn a w m =>
    have ha := (cart_iff _ _ _ _ _ (by omega)).mp h
    rw [Instr.transaction, select_wr v m a _ _ (resolve_cart v m a _ _ (by omega) h),
      writeInstr_ramEn _ _ _ _ _ ha.1.2]
  | wrRomLo a w m =>
    have ha := (cart_iff _ _ _ _ _ (by omega)).mp h
    rw [Instr.transaction, select_wr v m a _ _ (resolve_cart v m a _ _ (by omega) h),
      writeInstr_romLo _ _ _ _ _ ha.1]
  | wrBankHiRom a w m =>
    simp only [Instr.wf, Bool.and_eq_true, decide_eq_true_eq] at h
    have ha := (cart_iff _ _ _ _ _ (by omega)).mp h.1
    rw [Instr.transaction, select_wr v m a _ _ (resolve_cart v m a _ _ (by omega) h.1),
      writeInstr_bankHi _ _ _ _ _ ha.1, if_pos h.2]
  | wrBankHiRam a w m =>
    simp only [Instr.wf, Bool.and_eq_true, decide_eq_true_eq] at h
    have ha := (cart_iff _ _ _ _ _ (by omega)).mp h.1
    rw [Instr.transaction, select_wr v m a _ _ (resolve_cart v m a _ _ (by omega) h.1),
      writeInstr_bankHi _ _ _ _ _ ha.1, if_neg (by simp [h.2])]
  | wrMode a w m =>
    have ha := (cart_iff _ _ _ _ _ (by omega)).mp h
    rw [Instr.transaction, select_wr v m a _ _ (resolve_cart v m a _ _ (by omega) h),
      writeInstr_mode _ _ _ _ _ ha.1.1]
  | rdExtRam a m => exact select_rd v m a _ (resolve_extRam v m a h)
  | wrExtRam a w m => exact select_wr v m a w _ (resolve_extRam v m a h)
  | rdWram0 a m => exact select_rd v m a _ (resolve_wram0 v m a h)
  | wrWram0 a w m => exact select_wr v m a w _ (resolve_wram0 v m a h)
  | rdIram a m => exact select_rd v m a _ (resolve_iram v m a h)
  | wrIram a w m => exact select_wr v m a w _ (resolve_iram v m a h)
  | rdWramX a m =>
    exact (select_rd v m a _ (resolve_wramX v m a h)).trans
      (congrArg some (if_neg (wramBank_ne_zero v.svbk)))
  | wrWramX a w m =>
    exact (select_wr v m a w _ (resolve_wramX v m a h)).trans
      (congrArg some (if_neg (wramBank_ne_zero v.svbk)))
  | rdOam a m => exact select_rd v m a _ (resolve_oam v m a h)
  | wrOam a w m => exact select_wr v m a w _ (resolve_oam v m a h)
  | rdEmpty0D a m => exact select_rd v m a _ (resolve_empty0d v m a h)
  | wrEmpty0D a w m => exact select_wr v m a w _ (resolve_empty0d v m a h)
  | rdEmpty0C a m => exact select_rd v m a _ (resolve_empty0c v m a h)
  | wrEmpty0C a w m => exact select_wr v m a w _ (resolve_empty0c v m a h)
  | rdWave a m => exact select_rd v m a _ (resolve_wave v m a h)
  | wrWave a w m => exact select_wr v m a w _ (resolve_wave v m a h)
  | rdIoPort a m => exact select_rd v m a _ (resolve_ioPort v m a h)
  | wrIoPort a w m => exact select_wr v m a w _ (resolve_ioPort v m a h)
  | rdBootReg a m => exact select_rd v m a _ (resolve_bootReg v m a h)
  | wrBootReg a w m => exact select_wr v m a w _ (resolve_bootReg v m a h)
  | rdUndocFF6C a m => exact select_rd v m a _ (resolve_undoc v m a _ h)
  | wrUndocFF6C a w m => exact select_wr v m a w _ (resolve_undoc v m a _ h)
  | rdUndocFF72 a m => exact select_rd v m a _ (resolve_undoc v m a _ h)
  | wrUndocFF72 a w m => exact select_wr v m a w _ (resolve_undoc v m a _ h)
  | rdUndocFF73 a m => exact select_rd v m a _ (resolve_undoc v m a _ h)
  | wrUndocFF73 a w m => exact select_wr v m a w _ (resolve_undoc v m a _ h)
  | rdUndocFF74 a m => exact select_rd v m a _ (resolve_undoc v m a _ h)
  | wrUndocFF74 a w m => exact select_wr v m a w _ (resolve_undoc v m a _ h)
  | rdUndocFF75 a m => exact select_rd v m a _ (resolve_undoc v m a _ h)
  | wrUndocFF75 a w m => exact select_wr v m a w _ (resolve_undoc v m a _ h)
  | rdUndocFF76 a m => exact select_rd v m a _ (resolve_undoc v m a _ h)
  | wrUndocFF76 a w m => exact select_wr v m a w _ (resolve_undoc v m a _ h)
  | rdUndocFF77 a m => exact select_rd v m a _ (resolve_undoc v m a _ h)
  | wrUndocFF77 a w m => exact select_wr v m a w _ (resolve_undoc v m a _ h)
  | rdEmpty1 a m => exact select_rd v m a _ (resolve_empty1 v m a h)
  | wrEmpty1 a w m => exact select_wr v m a w _ (resolve_empty1 v m a h)
  | rdHram a m => exact select_rd v m a _ (resolve_hram v m a h)
  | wrHram a w m => exact select_wr v m a w _ (resolve_hram v m a h)
  | rdIe a m => exact select_rd v m a _ (resolve_ie v m a h)
  | wrIe a w m => exact select_wr v m a w _ (resolve_ie v m a h)
  | step n => rfl
  | stept n => rfl

theorem readInstr_wf (v : View) (m : Snapshot) (a : Addr) (r : Region) (h : r.rule v m a) :
    (readInstr a m r).wf v = true := by
  cases r with
  | cart off =>
    obtain ⟨h, -⟩ := h
    have := (cart_iff _ _ _ _ _ (by omega)).mp h
    by_cases hl : a.toNat ≤ 0x3FFF
    · rw [readInstr_rom0 _ _ _ hl]
      exact (cart_iff _ _ _ _ _ (by omega)).mpr ⟨⟨this.1.1, hl⟩, this.2⟩
    · rw [readInstr_romX _ _ _ (by omega)]
      exact (cart_iff _ _ _ _ _ (by omega)).mpr ⟨⟨by omega, this.1.2⟩, this.2⟩
  | wram bank off =>
    obtain ⟨-, ⟨h, rfl⟩ | ⟨h, rfl⟩⟩ := h
    · simpa [readInstr, Instr.wf] using h
    · have := wramBank_ne_zero v.svbk
      simpa [readInstr, Instr.wf, this] using h
  | undoc r => cases r <;> exact h
  | hdma r => cases r <;> exact h
  | _ => first | exact h | exact h.1

theorem writeInstr_wf (v : View) (m : Snapshot) (a : Addr) (w : Byte) (r : Region) (h : r.rule v m a) :
    (writeInstr v a w m r).wf v = true := by
  cases r with
  | cart off =>
    obtain ⟨h, -⟩ := h
    have := (cart_iff _ _ _ _ _ (by omega)).mp h
    by_cases h1 : a.toNat ≤ 0x1FFF
    · rw [writeInstr_ramEn _ _ _ _ _ h1]
      exact (cart_iff _ _ _ _ _ (by omega)).mpr ⟨⟨this.1.1, h1⟩, this.2⟩
    by_cases h2 : a.toNat ≤ 0x3FFF
    · rw [writeInstr_romLo _ _ _ _ _ ⟨by omega, h2⟩]
      exact (cart_iff _ _ _ _ _ (by omega)).mpr ⟨⟨by omega, h2⟩, this.2⟩
    by_cases h3 : a.toNat ≤ 0x5FFF
    · rw [writeInstr_bankHi _ _ _ _ _ ⟨by omega, h3⟩]
      have hc : Table.cart v m a 0x4000 0x5FFF = true :=
        (cart_iff _ _ _ _ _ (by omega)).mpr ⟨⟨by omega, h3⟩, this.2⟩
      cases hm : v.bankingMode <;> simp [Instr.wf, hc, hm]
    · rw [writeInstr_mode _ _ _ _ _ (by omega)]
      exact (cart_iff _ _ _ _ _ (by omega)).mpr ⟨⟨by omega, this.1.2⟩, this.2⟩
  | wram bank off =>
    obtain ⟨-, ⟨h, rfl⟩ | ⟨h, rfl⟩⟩ := h
    · simpa [writeInstr, Instr.wf] using h
    · have := wramBank_ne_zero v.svbk
      simpa [writeInstr, Instr.wf, this] using h
  | undoc r => cases r <;> exact h
  | hdma r => cases r <;> exact h
  | _ => first | exact h | exact h.1

theorem readInstr_transaction (m : Snapshot) (a : Addr) (r : Region) : (readInstr a m r).transaction = .rd a m := by
  cases r with
  | cart off => simp only [readInstr]; split <;> rfl
  | wram b off => simp only [readInstr]; split <;> rfl
  | undoc r => cases r <;> rfl
  | hdma r => cases r <;> rfl
  | _ => rfl
theorem writeInstr_transaction (v : View) (m : Snapshot) (a : Addr) (w : Byte) (r : Region) : (writeInstr v a w m r).transaction = .wr a w m := by
  cases r with
  | cart off => simp only [writeInstr]; (repeat' split) <;> rfl
  | wram b off => simp only [writeInstr]; split <;> rfl
  | undoc r => cases r <;> rfl
  | hdma r => cases r <;> rfl
  | _ => rfl

theorem wf_of_select (v : View) (t : Transaction) (i : Instr) (h : select v t = some i) :
    i.wf v = true ∧ i.transaction = t := by
  cases t with
  | rd a m =>
    simp only [select, Option.map_eq_some_iff] at h
    obtain ⟨r, hr, rfl⟩ := h
    exact ⟨readInstr_wf _ _ _ _ (resolve_inv _ _ _ _ hr), readInstr_transaction _ _ _⟩
  | wr a w m =>
    simp only [select, Option.map_eq_some_iff] at h
    obtain ⟨r, hr, rfl⟩ := h
    exact ⟨writeInstr_wf _ _ _ _ _ (resolve_inv _ _ _ _ hr), writeInstr_transaction _ _ _ _ _⟩
  | step n => cases h; exact ⟨rfl, rfl⟩
  | stept n => cases h; exact ⟨rfl, rfl⟩

theorem ite_some_total {α : Type} {c : Prop} [Decidable c] {x : α} {y : Option α}
    (h : ¬c → ∃ r, y = some r) : ∃ r, (if c then some x else y) = some r := by
  by_cases hc : c
  · exact ⟨x, if_pos hc⟩
  · rw [if_neg hc]; exact h hc

theorem resolveCommon_total (v : View) (m : Snapshot) (a : Addr) :
    ∃ r, resolveCommon v m a = some r := by
  have ha := a.isLt
  unfold resolveCommon
  simp only [within_iff, isAt_iff]
  iterate 13 refine ite_some_total fun _ => ?_
  exact (ite_some_total fun _ => by omega)

/-- Some region takes every address (rules R120, R146). -/
theorem resolve_total (v : View) (m : Snapshot) (a : Addr) : ∃ r, resolve v m a = some r := by
  have hc := resolveCommon_total v m a
  unfold resolve
  split
  · split
    · exact ⟨_, rfl⟩
    · exact hc
  · exact hc

end Sys2Proof
end

