-- ==== Sys2Proof/Laws/Exec.lean ====
section
/-! SUPPORT. `exec`, said once: every well-formed instruction answers a next state, and what the next
state of any instruction can be. Later proofs cite these and do not unfold the meanings. -/

namespace Sys2Proof.Machine

theorem readCell_completes (x : RamArray) (k : Nat) (a : Addr) (s : State)
    (h : k < x.size s.config.ramBanks) : ∃ t, readCell x k a s = .next t :=
  ⟨_, readCell_of_lt x k a s h⟩

theorem writeCell_completes (x : RamArray) (k : Nat) (a : Addr) (v : Byte) (s : State)
    (h : k < x.size s.config.ramBanks) : ∃ t, writeCell x k a v s = .next t :=
  ⟨_, writeCell_of_lt x k a v s h⟩

/-! ### The cells of the table's rows exist -/

theorem vramPhys_lt (v : View) (m : Snapshot) (vbk : BitVec 1) (a : Addr)
    (h : Table.vram v m a = true) (n : Nat) :
    vramPhys (vramBank m vbk) a < RamArray.size n .vram := by
  simp only [Table.vram, Bool.and_eq_true, row_iff] at h
  have hb : vramBank m vbk ≤ 1 := by
    have := vbk.isLt
    unfold vramBank
    split <;> omega
  rw [RamArray.size_vram]
  unfold vramPhys
  omega

theorem extRamPhys_lt (v : View) (m : Snapshot) (a : Addr) (h : Table.extRam v m a = true) :
    extRamPhys v.ramBankSel.toNat a < RamArray.size v.ramBanks .extRam := by
  simp only [Table.extRam, Table.extRamOpen, Bool.and_eq_true, row_iff, decide_eq_true_eq] at h
  rw [RamArray.size_extRam]
  unfold extRamPhys
  omega

theorem wramBank_le (svbk : BitVec 3) : wramBank svbk ≤ 7 := by
  have := svbk.isLt
  unfold wramBank
  split <;> omega

theorem wramPhys_lt (bank : Nat) (a : Addr) (h : bank ≤ 7) (n : Nat) :
    wramPhys bank a < RamArray.size n .wram := by
  rw [RamArray.size_wram]
  unfold wramPhys
  omega

theorem iramOff_lt (a : Addr) (n : Nat) : iramOff a < RamArray.size n .iram := by
  rw [RamArray.size_iram]
  unfold iramOff
  omega

theorem oamOff_lt (v : View) (m : Snapshot) (a : Addr) (h : Table.oam v m a = true) (n : Nat) :
    oamOff a < RamArray.size n .oam := by
  simp only [Table.oam, Bool.and_eq_true, row_iff] at h
  rw [RamArray.size_oam]
  unfold oamOff
  omega

theorem hramOff_lt (v : View) (m : Snapshot) (a : Addr) (h : Table.hram v m a = true) (n : Nat) :
    hramOff a < RamArray.size n .hram := by
  simp only [Table.hram, row_iff] at h
  rw [RamArray.size_hram]
  unfold hramOff
  omega

theorem waveOff_lt (v : View) (m : Snapshot) (a : Addr) (h : Table.wave v m a = true) (n : Nat) :
    waveOff a < RamArray.size n .wave := by
  simp only [Table.wave, row_iff] at h
  rw [RamArray.size_wave]
  unfold waveOff
  omega

theorem empty0Fold_lt (p : Config.Params) (hv : p.Valid) (off n : Nat) :
    empty0Fold p.empty0FoldPeriod off < RamArray.size n .empty0 := by
  have h := hv.2.2.2
  have := Nat.mod_lt (off - 0x20) (y := p.empty0FoldPeriod) (by omega)
  rw [RamArray.size_empty0]
  unfold empty0Fold
  split <;> omega

/-- Every well-formed instruction answers a next state (rules R106, R268, R280). -/
theorem exec_completes (s : State) (hv : s.params.Valid) (i : Instr) (h : i.wf s.view = true) :
    ∃ t, exec i s = .next t := by
  cases i with
  | rdBootRom a m =>
    have hr := (resolve_inv _ _ _ _ (resolve_bootRom s.view m a h)).1
    simp only [Table.bootRom, Bool.and_eq_true, decide_eq_true_eq] at hr
    obtain ⟨b, hb⟩ := bootByte_of_lt s.config a.toNat hr.1.2
    exact ⟨s.returning b, by simp only [exec, execRdBootRom, hb, readByte]⟩
  | wrBootReg a v m =>
    simp only [exec, execWrBootReg]
    split <;> exact ⟨_, rfl⟩
  | rdVram a m =>
    unfold exec execRdVram
    exact readCell_completes _ _ _ _ (vramPhys_lt _ _ _ _ h _)
  | wrVram a v m =>
    unfold exec execWrVram
    exact writeCell_completes _ _ _ _ _ (vramPhys_lt _ _ _ _ h _)
  | rdExtRam a m =>
    unfold exec execRdExtRam
    exact readCell_completes _ _ _ _ (extRamPhys_lt s.view m a h)
  | wrExtRam a v m =>
    unfold exec execWrExtRam
    exact writeCell_completes _ _ _ _ _ (extRamPhys_lt s.view m a h)
  | rdIram a m =>
    unfold exec execRdIram
    exact readCell_completes _ _ _ _ (iramOff_lt _ _)
  | wrIram a v m =>
    unfold exec execWrIram
    exact writeCell_completes _ _ _ _ _ (iramOff_lt _ _)
  | rdWram0 a m =>
    unfold exec execRdWram0
    exact readCell_completes _ _ _ _ (wramPhys_lt 0 _ (by omega) _)
  | wrWram0 a v m =>
    unfold exec execWrWram0
    exact writeCell_completes _ _ _ _ _ (wramPhys_lt 0 _ (by omega) _)
  | rdWramX a m =>
    unfold exec execRdWramX
    exact readCell_completes _ _ _ _ (wramPhys_lt _ _ (wramBank_le _) _)
  | wrWramX a v m =>
    unfold exec execWrWramX
    exact writeCell_completes _ _ _ _ _ (wramPhys_lt _ _ (wramBank_le _) _)
  | rdOam a m =>
    unfold exec execRdOam
    exact readCell_completes _ _ _ _ (oamOff_lt _ m a h _)
  | wrOam a v m =>
    unfold exec execWrOam
    exact writeCell_completes _ _ _ _ _ (oamOff_lt _ m a h _)
  | rdEmpty0C a m =>
    unfold exec execRdEmpty0C
    exact readCell_completes _ _ _ _ (empty0Fold_lt _ hv _ _)
  | wrEmpty0C a v m =>
    unfold exec execWrEmpty0C
    exact writeCell_completes _ _ _ _ _ (empty0Fold_lt _ hv _ _)
  | rdWave a m =>
    unfold exec execRdWave
    exact readCell_completes _ _ _ _ (waveOff_lt _ _ a h _)
  | wrWave a v m =>
    unfold exec execWrWave
    exact writeCell_completes _ _ _ _ _ (waveOff_lt _ _ a h _)
  | rdHram a m =>
    unfold exec execRdHram
    exact readCell_completes _ _ _ _ (hramOff_lt _ _ a h _)
  | wrHram a v m =>
    unfold exec execWrHram
    exact writeCell_completes _ _ _ _ _ (hramOff_lt _ _ a h _)
  | _ => exact ⟨_, rfl⟩

/-- What the next state of an instruction can be: a byte was returned; nothing happened; a leaf
answered; one event was sent, or the two of `STEP`; one cell of the instruction's own took the
written byte; or the registers of the block changed and its memories did not. -/
theorem exec_effect (s t : State) (i : Instr) (h : exec i s = .next t) :
    (∃ b, t = s.returning b)
    ∨ t = s
    ∨ (∃ leaf a, t = { (s.sending (.extRead leaf a)).returning
          (Config.leafAnswer s.leafReads leaf a) with leafReads := s.leafReads + 1 })
    ∨ (∃ leaf a v, t = s.sending (.extWrite leaf a v))
    ∨ (∃ n, t = (s.extStep .dma n).extStep .hdma5 n)
    ∨ (∃ n, t = s.extStep .timer n)
    ∨ (∃ x k v, storesTo s i = some (x, k) ∧ k < x.size s.config.ramBanks
        ∧ (∃ a m, i.transaction = .wr a v m) ∧ t = s.setCell x k v)
    ∨ (storesTo s i = none ∧ ∃ b, b.rams = s.block.rams ∧ t = s.withBlock b) := by
  cases i with
  | rdBootRom a m =>
    simp only [exec, execRdBootRom] at h
    split at h
    · next b hb => exact .inl ⟨b, (readByte_next _ _ _).mp h⟩
    · exact absurd h (raiseFault_next _ _)
  | wrBootReg a v m =>
    simp only [exec, execWrBootReg] at h
    split at h
    · rw [writeBlock_next] at h
      refine .inr (.inr (.inr (.inr (.inr (.inr (.inr ⟨rfl, _, ?_, h⟩)))))); rfl
    · exact .inr (.inl ((ignoreWrite_next _ _).mp h))
  | wrRamEn a v m =>
    simp only [exec, execWrRamEn, writeBlock_next] at h
    exact .inr (.inr (.inr (.inr (.inr (.inr (.inr ⟨rfl, _, Block.ramEnWrite_rams _ _ _, h⟩))))))
  | step n => cases h; exact .inr (.inr (.inr (.inr (.inl ⟨n, rfl⟩))))
  | stept n => cases h; exact .inr (.inr (.inr (.inr (.inr (.inl ⟨n, rfl⟩)))))
  | _ =>
    simp only [exec, execRdBgpd, execRdBgpi, execRdBootReg, execRdEmpty0C, execRdEmpty0D, execRdEmpty1,
      execRdExtRam, execRdHdma1, execRdHdma2, execRdHdma3, execRdHdma4, execRdHdma5, execRdHram,
      execRdIe, execRdInfrared, execRdIoPort, execRdIram, execRdOam, execRdObpd, execRdObpi,
      execRdRom0, execRdRomX, execRdSpeed, execRdUnacc, execRdUndocFF6C, execRdUndocFF72,
      execRdUndocFF73, execRdUndocFF74, execRdUndocFF75, execRdUndocFF76, execRdUndocFF77,
      execRdVram, execRdVramSel, execRdWave, execRdWram0, execRdWramSel, execRdWramX,
      execWrBankHiRam, execWrBankHiRom, execWrBgpd, execWrBgpi, execWrBootRom, execWrEmpty0C,
      execWrEmpty0D, execWrEmpty1, execWrExtRam, execWrHdma1, execWrHdma2, execWrHdma3,
      execWrHdma4, execWrHdma5, execWrHram, execWrIe, execWrInfrared, execWrIoPort, execWrIram,
      execWrMode, execWrOam, execWrObpd, execWrObpi, execWrRomLo, execWrSpeed, execWrUnacc,
      execWrUndocFF6C, execWrUndocFF72, execWrUndocFF73, execWrUndocFF74, execWrUndocFF75,
      execWrUndocFF76, execWrUndocFF77, execWrVram, execWrVramSel, execWrWave, execWrWram0,
      execWrWramSel, execWrWramX, writeUndoc, writeHdma, readByte_next, ignoreWrite_next,
      writeBlock_next, readCell_next, writeCell_next, extRead_next, extWrite_next] at h
    first
    | exact .inl ⟨_, h⟩
    | exact .inl ⟨_, h.2⟩
    | exact .inr (.inl h)
    | exact .inr (.inr (.inl ⟨_, _, h⟩))
    | exact .inr (.inr (.inr (.inl ⟨_, _, _, h⟩)))
    | exact .inr (.inr (.inr (.inr (.inr (.inr (.inl ⟨_, _, _, rfl, h.1, ⟨_, _, rfl⟩, h.2⟩))))))
    | (refine .inr (.inr (.inr (.inr (.inr (.inr (.inr ⟨rfl, _, ?_, h⟩)))))); rfl)

end Sys2Proof.Machine
end

