-- ==== Sys2Proof/Laws/Fields.lean ====
section
/-! SUPPORT. The fields of a written byte and of the ROM bank register as numbers (`30_encoding.md`
rules R95 to R99, R104): each mask as a remainder or a quotient, and bits put side by side as a
sum. -/

namespace Sys2Proof

theorem romBank_high_toNat (x : BitVec 7) : (x &&& 0x60).toNat = x.toNat / 32 * 32 := by
  revert x; decide

theorem romBank_low_toNat (x : BitVec 7) : (x &&& 0x1F).toNat = x.toNat % 32 := by
  revert x; decide

theorem lo5_toNat (v : Byte) :
    (lo5 v).toNat = if v.toNat % 32 = 0 then 1 else v.toNat % 32 := by
  revert v; decide

theorem lo5_lt (v : Byte) : (lo5 v).toNat < 32 := by
  rw [lo5_toNat]; split <;> omega

theorem hi2_toNat (v : Byte) : (hi2 v).toNat = v.toNat % 4 * 32 := by
  revert v; decide

/-- Bits below a multiple of 32 stand beside it. -/
theorem or_beside (hi lo : Nat) (h : lo < 32) : hi * 32 ||| lo = hi * 32 + lo := by
  rw [Nat.mul_comm, ← Nat.two_pow_add_eq_or_of_lt (i := 5) (by omega)]

theorem ramEnablePred_eq (v : Byte) : ramEnablePred v = (v.getLsbD 3 || v.getLsbD 1) := by
  revert v; decide

theorem ramSelField_toNat (v : Byte) : (ramSelField v).toNat = v.toNat % 4 := by
  simp [ramSelField, BitVec.toNat_setWidth]

theorem vbkField_toNat (v : Byte) : (vbkField v).toNat = v.toNat % 2 := by
  simp [vbkField, BitVec.toNat_setWidth]

theorem svbkField_toNat (v : Byte) : (svbkField v).toNat = v.toNat % 8 := by
  simp [svbkField, BitVec.toNat_setWidth]

theorem modeSel_eq (v : Byte) :
    modeSel v = if v.toNat = 1 then .rom4MRam32K else .rom16KRam8K := by
  revert v; decide

end Sys2Proof
end

