-- ==== Sys2Proof/Laws/PerInstr.lean ====
section
/-! SUPPORT. The per-instruction family `RecordHoldsTransaction`: the word `encode` writes for an
instruction holds that instruction's whole transaction, every operand at every value (rules R90,
R91). One lemma per constructor. -/

namespace Sys2Proof.Laws.RecordHoldsTransaction

/-- Reading the record an instruction is encoded as gives its transaction, under every instantiation
of the parameters that the spec allows. -/
def Statement : Instr → Prop := fun i =>
  ∀ p : Config.Params, p.Valid → decodeRecord p (encode p i) = .ok i.transaction

theorem rdSpeed (a : Addr) (m : Snapshot) : Statement (.rdSpeed a m) :=
  fun p hp => decodeRecord_encodeRecord p hp _

theorem wrSpeed (a : Addr) (v : Byte) (m : Snapshot) : Statement (.wrSpeed a v m) :=
  fun p hp => decodeRecord_encodeRecord p hp _

theorem rdInfrared (a : Addr) (m : Snapshot) : Statement (.rdInfrared a m) :=
  fun p hp => decodeRecord_encodeRecord p hp _

theorem wrInfrared (a : Addr) (v : Byte) (m : Snapshot) : Statement (.wrInfrared a v m) :=
  fun p hp => decodeRecord_encodeRecord p hp _

theorem rdWramSel (a : Addr) (m : Snapshot) : Statement (.rdWramSel a m) :=
  fun p hp => decodeRecord_encodeRecord p hp _

theorem wrWramSel (a : Addr) (v : Byte) (m : Snapshot) : Statement (.wrWramSel a v m) :=
  fun p hp => decodeRecord_encodeRecord p hp _

theorem rdBgpi (a : Addr) (m : Snapshot) : Statement (.rdBgpi a m) :=
  fun p hp => decodeRecord_encodeRecord p hp _

theorem wrBgpi (a : Addr) (v : Byte) (m : Snapshot) : Statement (.wrBgpi a v m) :=
  fun p hp => decodeRecord_encodeRecord p hp _

theorem rdUnacc (a : Addr) (m : Snapshot) : Statement (.rdUnacc a m) :=
  fun p hp => decodeRecord_encodeRecord p hp _

theorem wrUnacc (a : Addr) (v : Byte) (m : Snapshot) : Statement (.wrUnacc a v m) :=
  fun p hp => decodeRecord_encodeRecord p hp _

theorem rdBgpd (a : Addr) (m : Snapshot) : Statement (.rdBgpd a m) :=
  fun p hp => decodeRecord_encodeRecord p hp _

theorem wrBgpd (a : Addr) (v : Byte) (m : Snapshot) : Statement (.wrBgpd a v m) :=
  fun p hp => decodeRecord_encodeRecord p hp _

theorem rdObpi (a : Addr) (m : Snapshot) : Statement (.rdObpi a m) :=
  fun p hp => decodeRecord_encodeRecord p hp _

theorem wrObpi (a : Addr) (v : Byte) (m : Snapshot) : Statement (.wrObpi a v m) :=
  fun p hp => decodeRecord_encodeRecord p hp _

theorem rdObpd (a : Addr) (m : Snapshot) : Statement (.rdObpd a m) :=
  fun p hp => decodeRecord_encodeRecord p hp _

theorem wrObpd (a : Addr) (v : Byte) (m : Snapshot) : Statement (.wrObpd a v m) :=
  fun p hp => decodeRecord_encodeRecord p hp _

theorem rdVramSel (a : Addr) (m : Snapshot) : Statement (.rdVramSel a m) :=
  fun p hp => decodeRecord_encodeRecord p hp _

theorem wrVramSel (a : Addr) (v : Byte) (m : Snapshot) : Statement (.wrVramSel a v m) :=
  fun p hp => decodeRecord_encodeRecord p hp _

theorem rdHdma1 (a : Addr) (m : Snapshot) : Statement (.rdHdma1 a m) :=
  fun p hp => decodeRecord_encodeRecord p hp _

theorem wrHdma1 (a : Addr) (v : Byte) (m : Snapshot) : Statement (.wrHdma1 a v m) :=
  fun p hp => decodeRecord_encodeRecord p hp _

theorem rdHdma2 (a : Addr) (m : Snapshot) : Statement (.rdHdma2 a m) :=
  fun p hp => decodeRecord_encodeRecord p hp _

theorem wrHdma2 (a : Addr) (v : Byte) (m : Snapshot) : Statement (.wrHdma2 a v m) :=
  fun p hp => decodeRecord_encodeRecord p hp _

theorem rdHdma3 (a : Addr) (m : Snapshot) : Statement (.rdHdma3 a m) :=
  fun p hp => decodeRecord_encodeRecord p hp _

theorem wrHdma3 (a : Addr) (v : Byte) (m : Snapshot) : Statement (.wrHdma3 a v m) :=
  fun p hp => decodeRecord_encodeRecord p hp _

theorem rdHdma4 (a : Addr) (m : Snapshot) : Statement (.rdHdma4 a m) :=
  fun p hp => decodeRecord_encodeRecord p hp _

theorem wrHdma4 (a : Addr) (v : Byte) (m : Snapshot) : Statement (.wrHdma4 a v m) :=
  fun p hp => decodeRecord_encodeRecord p hp _

theorem rdHdma5 (a : Addr) (m : Snapshot) : Statement (.rdHdma5 a m) :=
  fun p hp => decodeRecord_encodeRecord p hp _

theorem wrHdma5 (a : Addr) (v : Byte) (m : Snapshot) : Statement (.wrHdma5 a v m) :=
  fun p hp => decodeRecord_encodeRecord p hp _

theorem rdVram (a : Addr) (m : Snapshot) : Statement (.rdVram a m) :=
  fun p hp => decodeRecord_encodeRecord p hp _

theorem wrVram (a : Addr) (v : Byte) (m : Snapshot) : Statement (.wrVram a v m) :=
  fun p hp => decodeRecord_encodeRecord p hp _

theorem rdBootRom (a : Addr) (m : Snapshot) : Statement (.rdBootRom a m) :=
  fun p hp => decodeRecord_encodeRecord p hp _

theorem wrBootRom (a : Addr) (v : Byte) (m : Snapshot) : Statement (.wrBootRom a v m) :=
  fun p hp => decodeRecord_encodeRecord p hp _

theorem rdRom0 (a : Addr) (m : Snapshot) : Statement (.rdRom0 a m) :=
  fun p hp => decodeRecord_encodeRecord p hp _

theorem rdRomX (a : Addr) (m : Snapshot) : Statement (.rdRomX a m) :=
  fun p hp => decodeRecord_encodeRecord p hp _

theorem wrRamEn (a : Addr) (v : Byte) (m : Snapshot) : Statement (.wrRamEn a v m) :=
  fun p hp => decodeRecord_encodeRecord p hp _

theorem wrRomLo (a : Addr) (v : Byte) (m : Snapshot) : Statement (.wrRomLo a v m) :=
  fun p hp => decodeRecord_encodeRecord p hp _

theorem wrBankHiRom (a : Addr) (v : Byte) (m : Snapshot) : Statement (.wrBankHiRom a v m) :=
  fun p hp => decodeRecord_encodeRecord p hp _

theorem wrBankHiRam (a : Addr) (v : Byte) (m : Snapshot) : Statement (.wrBankHiRam a v m) :=
  fun p hp => decodeRecord_encodeRecord p hp _

theorem wrMode (a : Addr) (v : Byte) (m : Snapshot) : Statement (.wrMode a v m) :=
  fun p hp => decodeRecord_encodeRecord p hp _

theorem rdExtRam (a : Addr) (m : Snapshot) : Statement (.rdExtRam a m) :=
  fun p hp => decodeRecord_encodeRecord p hp _

theorem wrExtRam (a : Addr) (v : Byte) (m : Snapshot) : Statement (.wrExtRam a v m) :=
  fun p hp => decodeRecord_encodeRecord p hp _

theorem rdWram0 (a : Addr) (m : Snapshot) : Statement (.rdWram0 a m) :=
  fun p hp => decodeRecord_encodeRecord p hp _

theorem wrWram0 (a : Addr) (v : Byte) (m : Snapshot) : Statement (.wrWram0 a v m) :=
  fun p hp => decodeRecord_encodeRecord p hp _

theorem rdIram (a : Addr) (m : Snapshot) : Statement (.rdIram a m) :=
  fun p hp => decodeRecord_encodeRecord p hp _

theorem wrIram (a : Addr) (v : Byte) (m : Snapshot) : Statement (.wrIram a v m) :=
  fun p hp => decodeRecord_encodeRecord p hp _

theorem rdWramX (a : Addr) (m : Snapshot) : Statement (.rdWramX a m) :=
  fun p hp => decodeRecord_encodeRecord p hp _

theorem wrWramX (a : Addr) (v : Byte) (m : Snapshot) : Statement (.wrWramX a v m) :=
  fun p hp => decodeRecord_encodeRecord p hp _

theorem rdOam (a : Addr) (m : Snapshot) : Statement (.rdOam a m) :=
  fun p hp => decodeRecord_encodeRecord p hp _

theorem wrOam (a : Addr) (v : Byte) (m : Snapshot) : Statement (.wrOam a v m) :=
  fun p hp => decodeRecord_encodeRecord p hp _

theorem rdEmpty0D (a : Addr) (m : Snapshot) : Statement (.rdEmpty0D a m) :=
  fun p hp => decodeRecord_encodeRecord p hp _

theorem wrEmpty0D (a : Addr) (v : Byte) (m : Snapshot) : Statement (.wrEmpty0D a v m) :=
  fun p hp => decodeRecord_encodeRecord p hp _

theorem rdEmpty0C (a : Addr) (m : Snapshot) : Statement (.rdEmpty0C a m) :=
  fun p hp => decodeRecord_encodeRecord p hp _

theorem wrEmpty0C (a : Addr) (v : Byte) (m : Snapshot) : Statement (.wrEmpty0C a v m) :=
  fun p hp => decodeRecord_encodeRecord p hp _

theorem rdWave (a : Addr) (m : Snapshot) : Statement (.rdWave a m) :=
  fun p hp => decodeRecord_encodeRecord p hp _

theorem wrWave (a : Addr) (v : Byte) (m : Snapshot) : Statement (.wrWave a v m) :=
  fun p hp => decodeRecord_encodeRecord p hp _

theorem rdIoPort (a : Addr) (m : Snapshot) : Statement (.rdIoPort a m) :=
  fun p hp => decodeRecord_encodeRecord p hp _

theorem wrIoPort (a : Addr) (v : Byte) (m : Snapshot) : Statement (.wrIoPort a v m) :=
  fun p hp => decodeRecord_encodeRecord p hp _

theorem rdBootReg (a : Addr) (m : Snapshot) : Statement (.rdBootReg a m) :=
  fun p hp => decodeRecord_encodeRecord p hp _

theorem wrBootReg (a : Addr) (v : Byte) (m : Snapshot) : Statement (.wrBootReg a v m) :=
  fun p hp => decodeRecord_encodeRecord p hp _

theorem rdUndocFF6C (a : Addr) (m : Snapshot) : Statement (.rdUndocFF6C a m) :=
  fun p hp => decodeRecord_encodeRecord p hp _

theorem wrUndocFF6C (a : Addr) (v : Byte) (m : Snapshot) : Statement (.wrUndocFF6C a v m) :=
  fun p hp => decodeRecord_encodeRecord p hp _

theorem rdUndocFF72 (a : Addr) (m : Snapshot) : Statement (.rdUndocFF72 a m) :=
  fun p hp => decodeRecord_encodeRecord p hp _

theorem wrUndocFF72 (a : Addr) (v : Byte) (m : Snapshot) : Statement (.wrUndocFF72 a v m) :=
  fun p hp => decodeRecord_encodeRecord p hp _

theorem rdUndocFF73 (a : Addr) (m : Snapshot) : Statement (.rdUndocFF73 a m) :=
  fun p hp => decodeRecord_encodeRecord p hp _

theorem wrUndocFF73 (a : Addr) (v : Byte) (m : Snapshot) : Statement (.wrUndocFF73 a v m) :=
  fun p hp => decodeRecord_encodeRecord p hp _

theorem rdUndocFF74 (a : Addr) (m : Snapshot) : Statement (.rdUndocFF74 a m) :=
  fun p hp => decodeRecord_encodeRecord p hp _

theorem wrUndocFF74 (a : Addr) (v : Byte) (m : Snapshot) : Statement (.wrUndocFF74 a v m) :=
  fun p hp => decodeRecord_encodeRecord p hp _

theorem rdUndocFF75 (a : Addr) (m : Snapshot) : Statement (.rdUndocFF75 a m) :=
  fun p hp => decodeRecord_encodeRecord p hp _

theorem wrUndocFF75 (a : Addr) (v : Byte) (m : Snapshot) : Statement (.wrUndocFF75 a v m) :=
  fun p hp => decodeRecord_encodeRecord p hp _

theorem rdUndocFF76 (a : Addr) (m : Snapshot) : Statement (.rdUndocFF76 a m) :=
  fun p hp => decodeRecord_encodeRecord p hp _

theorem wrUndocFF76 (a : Addr) (v : Byte) (m : Snapshot) : Statement (.wrUndocFF76 a v m) :=
  fun p hp => decodeRecord_encodeRecord p hp _

theorem rdUndocFF77 (a : Addr) (m : Snapshot) : Statement (.rdUndocFF77 a m) :=
  fun p hp => decodeRecord_encodeRecord p hp _

theorem wrUndocFF77 (a : Addr) (v : Byte) (m : Snapshot) : Statement (.wrUndocFF77 a v m) :=
  fun p hp => decodeRecord_encodeRecord p hp _

theorem rdEmpty1 (a : Addr) (m : Snapshot) : Statement (.rdEmpty1 a m) :=
  fun p hp => decodeRecord_encodeRecord p hp _

theorem wrEmpty1 (a : Addr) (v : Byte) (m : Snapshot) : Statement (.wrEmpty1 a v m) :=
  fun p hp => decodeRecord_encodeRecord p hp _

theorem rdHram (a : Addr) (m : Snapshot) : Statement (.rdHram a m) :=
  fun p hp => decodeRecord_encodeRecord p hp _

theorem wrHram (a : Addr) (v : Byte) (m : Snapshot) : Statement (.wrHram a v m) :=
  fun p hp => decodeRecord_encodeRecord p hp _

theorem rdIe (a : Addr) (m : Snapshot) : Statement (.rdIe a m) :=
  fun p hp => decodeRecord_encodeRecord p hp _

theorem wrIe (a : Addr) (v : Byte) (m : Snapshot) : Statement (.wrIe a v m) :=
  fun p hp => decodeRecord_encodeRecord p hp _

theorem step (n : Cycles) : Statement (.step n) :=
  fun p hp => decodeRecord_encodeRecord p hp _

theorem stept (n : Cycles) : Statement (.stept n) :=
  fun p hp => decodeRecord_encodeRecord p hp _

end Sys2Proof.Laws.RecordHoldsTransaction
end

