-- ==== Sys2Proof/Laws/Reach.lean ====
section
/-! SUPPORT. The RAM cell an address reaches (`State.reaches`): which window each cell comes from,
and that what an instruction stores to is what its address reaches. -/

namespace Sys2Proof.Machine

/-- The windows in which an address reaches cell `k` of array `x`. -/
def Window (s : State) (m : Snapshot) (a : Addr) (x : RamArray) (k : Nat) : Prop :=
  (x = .vram ∧ (0x8000 ≤ a.toNat ∧ a.toNat ≤ 0x9FFF)
    ∧ k = vramBank m s.block.vbk * 0x2000 + (a.toNat - 0x8000))
  ∨ (x = .extRam ∧ (0xA000 ≤ a.toNat ∧ a.toNat ≤ 0xBFFF)
    ∧ k = s.block.ramBankSel.toNat * 0x2000 + (a.toNat - 0xA000))
  ∨ (x = .iram ∧ m.inCGBMode = false ∧ (0xC000 ≤ a.toNat ∧ a.toNat ≤ 0xFDFF)
    ∧ k = a.toNat % 0x2000)
  ∨ (x = .wram ∧ m.inCGBMode = true
    ∧ (0xC000 ≤ a.toNat ∧ a.toNat ≤ 0xCFFF ∨ 0xE000 ≤ a.toNat ∧ a.toNat ≤ 0xEFFF)
    ∧ k = a.toNat % 0x1000)
  ∨ (x = .wram ∧ m.inCGBMode = true
    ∧ (0xD000 ≤ a.toNat ∧ a.toNat ≤ 0xDFFF ∨ 0xF000 ≤ a.toNat ∧ a.toNat ≤ 0xFDFF)
    ∧ k = wramBank s.block.svbk * 0x1000 + a.toNat % 0x1000)
  ∨ (x = .oam ∧ (0xFE00 ≤ a.toNat ∧ a.toNat ≤ 0xFE9F) ∧ k = a.toNat - 0xFE00)
  ∨ (x = .empty0 ∧ m.isCGB = true ∧ (0xFEA0 ≤ a.toNat ∧ a.toNat ≤ 0xFEFF)
    ∧ k = empty0Fold s.params.empty0FoldPeriod (a.toNat - 0xFEA0))
  ∨ (x = .wave ∧ (0xFF30 ≤ a.toNat ∧ a.toNat ≤ 0xFF3F) ∧ k = a.toNat - 0xFF30)
  ∨ (x = .hram ∧ (0xFF80 ≤ a.toNat ∧ a.toNat ≤ 0xFFFE) ∧ k = a.toNat - 0xFF80)

/-- Whatever cell an address reaches, it reaches it through one of the windows, and no register of
step 1 takes the address. -/
theorem reaches_window (s : State) (m : Snapshot) (a : Addr) (x : RamArray) (k : Nat)
    (h : s.reaches m a = some (x, k)) :
    Table.cgbClaims s.view m a = false ∧ Window s m a x k := by
  unfold State.reaches at h
  obtain ⟨r, hr⟩ := resolve_total s.view m a
  rw [hr] at h
  have hi := resolve_inv _ _ _ _ hr
  unfold Window
  cases r <;> simp only [Option.bind_some, Region.cell, reduceCtorEq, Option.some.injEq,
    Prod.mk.injEq] at h <;>
    obtain ⟨hx, hk⟩ := h <;> subst hx <;> simp only [Region.rule] at hi
  case vram bank off =>
    obtain ⟨h1, h2, h3⟩ := hi
    simp only [Table.vram, Bool.and_eq_true, row_iff] at h1
    have hv : s.view.vbk = s.block.vbk := rfl
    rw [hv] at h2
    subst h2
    exact ⟨h1.1.2, .inl ⟨rfl, h1.1.1, by omega⟩⟩
  case extRam bank off =>
    obtain ⟨h1, h2, h3⟩ := hi
    simp only [Table.extRam, Bool.and_eq_true, row_iff] at h1
    have hv : s.view.ramBankSel = s.block.ramBankSel := rfl
    rw [hv] at h2
    subst h2
    exact ⟨h1.1.2, .inr (.inl ⟨rfl, h1.1.1, by omega⟩)⟩
  case iram off =>
    obtain ⟨h1, h3⟩ := hi
    simp only [Table.iram, Bool.and_eq_true, Bool.or_eq_true, row_iff, Bool.not_eq_true',
      ← or_and_right] at h1
    subst h3
    exact ⟨h1.1.2, .inr (.inr (.inl ⟨rfl, h1.2, by omega, hk.symm⟩))⟩
  case wram bank off =>
    obtain ⟨h0, h⟩ := hi
    simp only [Table.wram0, Table.wramX, Bool.and_eq_true, Bool.or_eq_true, row_iff,
      ← or_and_right] at h
    subst h0
    obtain ⟨h1, h2⟩ | ⟨h1, h2⟩ := h <;> subst h2
    · exact ⟨h1.1.2, .inr (.inr (.inr (.inl ⟨rfl, h1.2, h1.1.1, by omega⟩)))⟩
    · exact ⟨h1.1.2, .inr (.inr (.inr (.inr (.inl ⟨rfl, h1.2, h1.1.1, hk.symm⟩))))⟩
  case oam off =>
    obtain ⟨h1, h3⟩ := hi
    simp only [Table.oam, Bool.and_eq_true, row_iff] at h1
    exact ⟨h1.1.2, .inr (.inr (.inr (.inr (.inr (.inl ⟨rfl, h1.1.1, by omega⟩)))))⟩
  case empty0c off =>
    obtain ⟨h1, h3⟩ := hi
    simp only [Table.empty0c, Bool.and_eq_true, row_iff] at h1
    exact ⟨h1.1.2,
      .inr (.inr (.inr (.inr (.inr (.inr (.inl ⟨rfl, h1.2, h1.1.1, by rw [← hk, h3]⟩))))))⟩
  case wave off =>
    obtain ⟨h1, h3⟩ := hi
    obtain ⟨h1, hc⟩ := (row_iff _ _ _ _ _).mp h1
    exact ⟨hc, .inr (.inr (.inr (.inr (.inr (.inr (.inr (.inl ⟨rfl, h1, by omega⟩)))))))⟩
  case hram off =>
    obtain ⟨h1, h3⟩ := hi
    obtain ⟨h1, hc⟩ := (row_iff _ _ _ _ _).mp h1
    exact ⟨hc, .inr (.inr (.inr (.inr (.inr (.inr (.inr (.inr ⟨rfl, h1, by omega⟩)))))))⟩

theorem reaches_iram (s : State) (m : Snapshot) (a : Addr) (h : m.inCGBMode = false)
    (ha : 0xC000 ≤ a.toNat ∧ a.toNat ≤ 0xFDFF) :
    s.reaches m a = some (.iram, a.toNat % 0x2000) := by
  have hw : Table.iram s.view m a = true := by
    simp only [Table.iram, Bool.and_eq_true, Bool.or_eq_true, row_iff, Bool.not_eq_true',
      ← or_and_right]
    exact ⟨⟨by omega, cgbClaims_of_dmgMode _ _ _ h⟩, h⟩
  rw [State.reaches, resolve_iram _ _ _ hw]; rfl

theorem reaches_wram0 (s : State) (m : Snapshot) (a : Addr) (h : m.inCGBMode = true)
    (hc : Table.cgbClaims s.view m a = false)
    (ha : 0xC000 ≤ a.toNat ∧ a.toNat ≤ 0xCFFF ∨ 0xE000 ≤ a.toNat ∧ a.toNat ≤ 0xEFFF) :
    s.reaches m a = some (.wram, 0 * 0x1000 + a.toNat % 0x1000) := by
  have hw : Table.wram0 s.view m a = true := by
    simp only [Table.wram0, Bool.and_eq_true, Bool.or_eq_true, row_iff, ← or_and_right]
    exact ⟨⟨ha, hc⟩, h⟩
  rw [State.reaches, resolve_wram0 _ _ _ hw]; rfl

theorem reaches_wramX (s : State) (m : Snapshot) (a : Addr) (h : m.inCGBMode = true)
    (hc : Table.cgbClaims s.view m a = false)
    (ha : 0xD000 ≤ a.toNat ∧ a.toNat ≤ 0xDFFF ∨ 0xF000 ≤ a.toNat ∧ a.toNat ≤ 0xFDFF) :
    s.reaches m a = some (.wram, wramBank s.block.svbk * 0x1000 + a.toNat % 0x1000) := by
  have hw : Table.wramX s.view m a = true := by
    simp only [Table.wramX, Bool.and_eq_true, Bool.or_eq_true, row_iff, ← or_and_right]
    exact ⟨⟨ha, hc⟩, h⟩
  rw [State.reaches, resolve_wramX _ _ _ hw]; rfl

theorem reaches_empty0c (s : State) (m : Snapshot) (a : Addr) (h : m.isCGB = true)
    (hc : Table.cgbClaims s.view m a = false) (ha : 0xFEA0 ≤ a.toNat ∧ a.toNat ≤ 0xFEFF) :
    s.reaches m a = some (.empty0, empty0Fold s.params.empty0FoldPeriod (a.toNat - 0xFEA0)) := by
  have hw : Table.empty0c s.view m a = true := by
    simp only [Table.empty0c, Bool.and_eq_true, row_iff]
    exact ⟨⟨ha, hc⟩, h⟩
  rw [State.reaches, resolve_empty0c _ _ _ hw]; rfl

/-- The cell a well-formed write stores to is the cell its address reaches. -/
theorem reaches_of_storesTo (s : State) (i : Instr) (c : RamArray × Nat) (a : Addr) (v : Byte)
    (m : Snapshot) (hw : i.wf s.view = true) (ht : i.transaction = .wr a v m)
    (hs : storesTo s i = some c) : s.reaches m a = some c := by
  cases i <;> simp only [storesTo, reduceCtorEq, Option.some.injEq] at hs <;>
    simp only [Instr.transaction, Transaction.wr.injEq] at ht <;> obtain ⟨rfl, rfl, rfl⟩ := ht
  case wrVram => rw [State.reaches, resolve_vram _ _ _ hw, ← hs]; rfl
  case wrExtRam => rw [State.reaches, resolve_extRam _ _ _ hw, ← hs]; rfl
  case wrIram => rw [State.reaches, resolve_iram _ _ _ hw, ← hs]; rfl
  case wrWram0 => rw [State.reaches, resolve_wram0 _ _ _ hw, ← hs]; rfl
  case wrWramX => rw [State.reaches, resolve_wramX _ _ _ hw, ← hs]; rfl
  case wrOam => rw [State.reaches, resolve_oam _ _ _ hw, ← hs]; rfl
  case wrEmpty0C => rw [State.reaches, resolve_empty0c _ _ _ hw, ← hs]; rfl
  case wrWave => rw [State.reaches, resolve_wave _ _ _ hw, ← hs]; rfl
  case wrHram => rw [State.reaches, resolve_hram _ _ _ hw, ← hs]; rfl

end Sys2Proof.Machine
end

