-- ==== Sys2Proof/Tests/Slice0.lean ====
section
/-! SUPPORT. Tests. The words of the decode tests are written from the record layout and the rows of
`spec/opcode_table.json`; the expected results of the steps are those of `95_test_vectors.md`, whose
vector each test names. Last, one witness for the hypotheses of each statement. -/

namespace Sys2Proof.Tests

open Sys2Proof.Machine

/-! ### Fixtures -/

/-- `isCGB=0 inCGB=0 boot=0 vm=0` -/
def dmg : Snapshot := ⟨false, false, false, .mode0⟩
/-- `isCGB=1 inCGB=0 boot=0 vm=0` -/
def cgbHw : Snapshot := ⟨true, false, false, .mode0⟩
/-- `isCGB=1 inCGB=1 boot=0 vm=0` -/
def cgb : Snapshot := ⟨true, true, false, .mode0⟩
/-- `isCGB=0 inCGB=0 boot=0 vm=3` -/
def drawing : Snapshot := ⟨false, false, false, .mode3⟩
/-- `isCGB=1 inCGB=1 boot=0 vm=3` -/
def cgbDrawing : Snapshot := ⟨true, true, false, .mode3⟩
/-- `isCGB=0 inCGB=0 boot=1 vm=0` -/
def booting : Snapshot := ⟨false, false, true, .mode0⟩

/-- `RAM_BANKS = 4`, `ROM_BANKS = 64`, the first bytes of `TESTROM` and of a three byte `TESTBOOT`. -/
def cart4 : Config.Cartridge := ⟨[0x00, 0x01, 0x02], 64, 4, some [0xA5, 0xA4, 0xA7]⟩

/-- The state after reset with that cartridge and `InitMem = 0x00`. -/
def start : State := State.resetOf Config.Params.default cart4 Rams.empty none

/-- The same without a boot ROM. -/
def startNoBoot : State := State.resetOf Config.Params.default { cart4 with bootRom := none } Rams.empty none

/-- `start` with the MBC1 registers of a vector's "state before". -/
def mbc (mode : BankingMode) (rom : BitVec 7) (sel : BitVec 2) (flags : List Bool) : State :=
  { start with block := { start.block with
      bankingMode := mode, romBank := rom, ramBankSel := sel, ramEnabled := flags } }

/-- `start` with bank 2 of external RAM selected, enabled and holding `0xB2` at its first byte. -/
def ramOpen : State := (mbc .rom4MRam32K 3 2 [false, false, true, false]).setCell .extRam 0x4000 0xB2

/-- The next state of an outcome. -/
def nextOf : Result → Option State
  | .next u => some u
  | _ => none

/-- The fault of an outcome. -/
def faultOf : Result → Option Fault
  | .fault f => some f
  | _ => none

/-- One transaction of a state, to the next state. -/
def after (s : State) (t : Transaction) : Option State := nextOf (step (s.present t))

/-- The MBC1 registers, as a vector lists them. -/
structure MbcRegs where
  mode : BankingMode
  rom : BitVec 7
  sel : BitVec 2
  flags : List Bool
  deriving DecidableEq

/-- The MBC1 registers after one write. -/
def mbcAfter (s : State) (a : Addr) (v : Byte) : Option MbcRegs :=
  (after s (.wr a v dmg)).map
    fun u => ⟨u.block.bankingMode, u.block.romBank, u.block.ramBankSel, u.block.ramEnabled⟩

/-- The bytes returned by one read. -/
def readsOf (s : State) (a : Addr) (m : Snapshot) : Option (List Byte) :=
  (after s (.rd a m)).map State.reads

/-! ### The decoder -/

theorem test_decode_cgb_registers :
    decode View.reset 0x0C0000FF4D#40 = .ok (.rdSpeed 0xFF4D cgb)
    ∧ decode View.reset 0x0D005AFF4D#40 = .ok (.wrSpeed 0xFF4D 0x5A cgb)
    ∧ decode View.reset 0x0C0000FF56#40 = .ok (.rdInfrared 0xFF56 cgb)
    ∧ decode View.reset 0x0D005AFF56#40 = .ok (.wrInfrared 0xFF56 0x5A cgb)
    ∧ decode View.reset 0x0C0000FF70#40 = .ok (.rdWramSel 0xFF70 cgb)
    ∧ decode View.reset 0x0D005AFF70#40 = .ok (.wrWramSel 0xFF70 0x5A cgb)
    ∧ decode View.reset 0x0C0000FF4F#40 = .ok (.rdVramSel 0xFF4F cgb)
    ∧ decode View.reset 0x0D005AFF4F#40 = .ok (.wrVramSel 0xFF4F 0x5A cgb)
    ∧ decode View.reset 0x0C0000FF68#40 = .ok (.rdBgpi 0xFF68 cgb)
    ∧ decode View.reset 0x0D005AFF68#40 = .ok (.wrBgpi 0xFF68 0x5A cgb)
    ∧ decode View.reset 0x0C0000FF69#40 = .ok (.rdBgpd 0xFF69 cgb)
    ∧ decode View.reset 0x0D005AFF69#40 = .ok (.wrBgpd 0xFF69 0x5A cgb)
    ∧ decode View.reset 0x0C0000FF6A#40 = .ok (.rdObpi 0xFF6A cgb)
    ∧ decode View.reset 0x0D005AFF6A#40 = .ok (.wrObpi 0xFF6A 0x5A cgb)
    ∧ decode View.reset 0x0C0000FF6B#40 = .ok (.rdObpd 0xFF6B cgb)
    ∧ decode View.reset 0x0D005AFF6B#40 = .ok (.wrObpd 0xFF6B 0x5A cgb) := by decide

theorem test_decode_hdma_registers :
    decode View.reset 0x0C0000FF51#40 = .ok (.rdHdma1 0xFF51 cgb)
    ∧ decode View.reset 0x0D005AFF51#40 = .ok (.wrHdma1 0xFF51 0x5A cgb)
    ∧ decode View.reset 0x0C0000FF52#40 = .ok (.rdHdma2 0xFF52 cgb)
    ∧ decode View.reset 0x0D005AFF52#40 = .ok (.wrHdma2 0xFF52 0x5A cgb)
    ∧ decode View.reset 0x0C0000FF53#40 = .ok (.rdHdma3 0xFF53 cgb)
    ∧ decode View.reset 0x0D005AFF53#40 = .ok (.wrHdma3 0xFF53 0x5A cgb)
    ∧ decode View.reset 0x0C0000FF54#40 = .ok (.rdHdma4 0xFF54 cgb)
    ∧ decode View.reset 0x0D005AFF54#40 = .ok (.wrHdma4 0xFF54 0x5A cgb)
    ∧ decode View.reset 0x0C0000FF55#40 = .ok (.rdHdma5 0xFF55 cgb)
    ∧ decode View.reset 0x0D005AFF55#40 = .ok (.wrHdma5 0xFF55 0x5A cgb) := by decide

theorem test_decode_undocumented_registers :
    decode View.reset 0x040000FF6C#40 = .ok (.rdUndocFF6C 0xFF6C cgbHw)
    ∧ decode View.reset 0x05005AFF6C#40 = .ok (.wrUndocFF6C 0xFF6C 0x5A cgbHw)
    ∧ decode View.reset 0x040000FF72#40 = .ok (.rdUndocFF72 0xFF72 cgbHw)
    ∧ decode View.reset 0x05005AFF72#40 = .ok (.wrUndocFF72 0xFF72 0x5A cgbHw)
    ∧ decode View.reset 0x040000FF73#40 = .ok (.rdUndocFF73 0xFF73 cgbHw)
    ∧ decode View.reset 0x05005AFF73#40 = .ok (.wrUndocFF73 0xFF73 0x5A cgbHw)
    ∧ decode View.reset 0x040000FF74#40 = .ok (.rdUndocFF74 0xFF74 cgbHw)
    ∧ decode View.reset 0x05005AFF74#40 = .ok (.wrUndocFF74 0xFF74 0x5A cgbHw)
    ∧ decode View.reset 0x040000FF75#40 = .ok (.rdUndocFF75 0xFF75 cgbHw)
    ∧ decode View.reset 0x05005AFF75#40 = .ok (.wrUndocFF75 0xFF75 0x5A cgbHw)
    ∧ decode View.reset 0x040000FF76#40 = .ok (.rdUndocFF76 0xFF76 cgbHw)
    ∧ decode View.reset 0x05005AFF76#40 = .ok (.wrUndocFF76 0xFF76 0x5A cgbHw)
    ∧ decode View.reset 0x040000FF77#40 = .ok (.rdUndocFF77 0xFF77 cgbHw)
    ∧ decode View.reset 0x05005AFF77#40 = .ok (.wrUndocFF77 0xFF77 0x5A cgbHw) := by decide

theorem test_decode_memories :
    decode View.reset 0x0000009FFF#40 = .ok (.rdVram 0x9FFF dmg)
    ∧ decode View.reset 0x01005A8000#40 = .ok (.wrVram 0x8000 0x5A dmg)
    ∧ decode View.reset 0x000000FDFF#40 = .ok (.rdIram 0xFDFF dmg)
    ∧ decode View.reset 0x01005AC000#40 = .ok (.wrIram 0xC000 0x5A dmg)
    ∧ decode View.reset 0x0C0000EFFF#40 = .ok (.rdWram0 0xEFFF cgb)
    ∧ decode View.reset 0x0D005AC000#40 = .ok (.wrWram0 0xC000 0x5A cgb)
    ∧ decode View.reset 0x0C0000FDFF#40 = .ok (.rdWramX 0xFDFF cgb)
    ∧ decode View.reset 0x0D005AD000#40 = .ok (.wrWramX 0xD000 0x5A cgb)
    ∧ decode View.reset 0x000000FE9F#40 = .ok (.rdOam 0xFE9F dmg)
    ∧ decode View.reset 0x01005AFE00#40 = .ok (.wrOam 0xFE00 0x5A dmg)
    ∧ decode View.reset 0x040000FEFF#40 = .ok (.rdEmpty0C 0xFEFF cgbHw)
    ∧ decode View.reset 0x05005AFEA0#40 = .ok (.wrEmpty0C 0xFEA0 0x5A cgbHw)
    ∧ decode View.reset 0x000000FF3F#40 = .ok (.rdWave 0xFF3F dmg)
    ∧ decode View.reset 0x01005AFF30#40 = .ok (.wrWave 0xFF30 0x5A dmg)
    ∧ decode View.reset 0x000000FFFE#40 = .ok (.rdHram 0xFFFE dmg)
    ∧ decode View.reset 0x01005AFF80#40 = .ok (.wrHram 0xFF80 0x5A dmg) := by decide

theorem test_decode_fixed_regions :
    decode View.reset 0x600000FE9F#40 = .ok (.rdUnacc 0xFE9F drawing)
    ∧ decode View.reset 0x61005A8000#40 = .ok (.wrUnacc 0x8000 0x5A drawing)
    ∧ decode View.reset 0x000000FEFF#40 = .ok (.rdEmpty0D 0xFEFF dmg)
    ∧ decode View.reset 0x01005AFEA0#40 = .ok (.wrEmpty0D 0xFEA0 0x5A dmg)
    ∧ decode View.reset 0x000000FF7F#40 = .ok (.rdEmpty1 0xFF7F dmg)
    ∧ decode View.reset 0x01005AFF4C#40 = .ok (.wrEmpty1 0xFF4C 0x5A dmg)
    ∧ decode View.reset 0x000000FF4B#40 = .ok (.rdIoPort 0xFF4B dmg)
    ∧ decode View.reset 0x01005AFF00#40 = .ok (.wrIoPort 0xFF00 0x5A dmg)
    ∧ decode View.reset 0x100000FF50#40 = .ok (.rdBootReg 0xFF50 booting)
    ∧ decode View.reset 0x11005AFF50#40 = .ok (.wrBootReg 0xFF50 0x5A booting)
    ∧ decode View.reset 0x000000FFFF#40 = .ok (.rdIe 0xFFFF dmg)
    ∧ decode View.reset 0x01005AFFFF#40 = .ok (.wrIe 0xFFFF 0x5A dmg) := by decide


theorem test_decode_cartridge :
    decode start.view 0x10000000FF#40 = .ok (.rdRom0 0x00FF booting)
    ∧ decode start.view 0x1000000002#40 = .ok (.rdBootRom 0x0002 booting)
    ∧ decode start.view 0x11005A0000#40 = .ok (.wrBootRom 0x0000 0x5A booting)
    ∧ decode start.view 0x1000000003#40 = .ok (.rdRom0 0x0003 booting)
    ∧ decode View.reset 0x0000003FFF#40 = .ok (.rdRom0 0x3FFF dmg)
    ∧ decode View.reset 0x0000007FFF#40 = .ok (.rdRomX 0x7FFF dmg)
    ∧ decode View.reset 0x01000A1FFF#40 = .ok (.wrRamEn 0x1FFF 0x0A dmg)
    ∧ decode View.reset 0x0100203FFF#40 = .ok (.wrRomLo 0x3FFF 0x20 dmg)
    ∧ decode View.reset 0x0100015FFF#40 = .ok (.wrBankHiRom 0x5FFF 0x01 dmg)
    ∧ decode ramOpen.view 0x0100024000#40 = .ok (.wrBankHiRam 0x4000 0x02 dmg)
    ∧ decode View.reset 0x0100016000#40 = .ok (.wrMode 0x6000 0x01 dmg)
    ∧ decode ramOpen.view 0x000000BFFF#40 = .ok (.rdExtRam 0xBFFF dmg)
    ∧ decode ramOpen.view 0x01003CA000#40 = .ok (.wrExtRam 0xA000 0x3C dmg) := by decide

theorem test_decode_steps_and_reserved :
    decode View.reset 0x0200000004#40 = .ok (.step 4)
    ∧ decode View.reset 0x03FFFFFFFF#40 = .ok (.stept 0xFFFFFFFF)
    ∧ decode View.reset 0x0000010000#40 = .error .reservedBits
    ∧ decode View.reset 0x0101000000#40 = .error .reservedBits
    ∧ decode View.reset 0x0600000004#40 = .error .reservedBits
    ∧ decode View.reset 0x8000000000#40 = .error .reservedBits := by decide

/-- Vectors 2.1: a column of the boundary table, and the rows with `isCGB=0 inCGB=1`. -/
theorem test_resolve_boundaries :
    resolve start.view booting 0x0000 = some (.bootRom 0)
    ∧ resolve start.view booting 0x0100 = some (.cart 0x100)
    ∧ resolve start.view cgb 0xDFFF = some (.wram 1 0xFFF)
    ∧ resolve start.view cgb 0xFDFF = some (.wram 1 0xDFF)
    ∧ resolve start.view dmg 0xFDFF = some (.iram 0x1DFF)
    ∧ resolve start.view cgbDrawing 0xFF69 = some .unacc
    ∧ resolve start.view dmg 0xFF4B = some (.ioPort 0x4B)
    ∧ resolve start.view cgb 0xFF7F = some (.empty1 0x33)
    ∧ resolve start.view ⟨false, true, false, .mode0⟩ 0xFF70 = some .wramSel
    ∧ resolve start.view ⟨false, true, false, .mode0⟩ 0xFEA0 = some (.empty0d 0)
    ∧ resolve start.view ⟨false, true, false, .mode0⟩ 0xFF6C = some (.empty1 0x20)
    ∧ resolve start.view ⟨true, false, false, .mode3⟩ 0xFF69 = some (.empty1 0x1D) := by decide

/-- A table word is `RD` of its address, and `withFetchWord` presents it as the next transaction. -/
theorem test_table_words :
    decodeTableWord 16 0xFF30 = some (.rdWave 0xFF30 dmg)
    ∧ decodeTableWord 16 0x4000 = some (.rdRomX 0x4000 dmg)
    ∧ (State.reset.withFetchWord 16 0xFFFF).inputs = [.txn (.rd 0xFFFF dmg)]
    ∧ nextOf (step (State.reset.withFetchWord 16 0xFFFF)) = nextOf (exec (.rdIe 0xFFFF dmg) State.reset) := by decide

/-! ### Well-formedness: an ill-formed term for each check -/

/-- Register rows of priority 1: out of CGB mode, and at the neighbouring address. -/
theorem test_wf_refuses_cgb_registers :
    [Instr.rdSpeed 0xFF4D cgbHw, .wrSpeed 0xFF4E 0 cgb, .rdInfrared 0xFF56 dmg, .wrInfrared 0xFF55 0 cgb,
     .rdWramSel 0xFF70 cgbHw, .wrWramSel 0xFF71 0 cgb, .rdBgpi 0xFF68 dmg, .wrBgpi 0xFF69 0 cgb,
     .rdObpi 0xFF6A dmg, .wrObpi 0xFF6B 0 cgb, .rdVramSel 0xFF4F dmg, .wrVramSel 0xFF50 0 cgb,
     .rdBgpd 0xFF69 dmg, .wrBgpd 0xFF69 0 cgbDrawing, .rdObpd 0xFF6B cgbDrawing, .wrObpd 0xFF6A 0 cgb,
     .rdHdma1 0xFF51 dmg, .wrHdma1 0xFF52 0 cgb, .rdHdma2 0xFF52 dmg, .wrHdma2 0xFF53 0 cgb,
     .rdHdma3 0xFF53 dmg, .wrHdma3 0xFF54 0 cgb, .rdHdma4 0xFF54 dmg, .wrHdma4 0xFF55 0 cgb,
     .rdHdma5 0xFF55 dmg, .wrHdma5 0xFF54 0 cgb].all (fun i => !i.wf start.view) = true := by decide

/-- The overlay, the cartridge windows, the banking mode and the external RAM gate. -/
theorem test_wf_refuses_cartridge :
    [Instr.rdBootRom 0x0000 dmg, .wrBootRom 0x0003 0 booting, .rdBootRom 0x0100 booting,
     .rdRom0 0x0000 booting, .rdRom0 0x4000 dmg, .rdRomX 0x3FFF dmg, .rdRomX 0x8000 dmg,
     .wrRamEn 0x2000 0 dmg, .wrRomLo 0x1FFF 0 dmg, .wrBankHiRom 0x6000 0 dmg, .wrBankHiRam 0x4000 0 dmg,
     .wrMode 0x5FFF 0 dmg, .rdExtRam 0xA000 dmg, .wrExtRam 0xA000 0 dmg].all
      (fun i => !i.wf start.view) = true
    ∧ [Instr.wrBankHiRom 0x4000 0 dmg, .rdExtRam 0x9FFF dmg, .wrExtRam 0xC000 0 dmg,
       .rdUnacc 0xA000 dmg].all (fun i => !i.wf ramOpen.view) = true
    ∧ (Instr.rdBootRom 0x0000 booting).wf startNoBoot.view = false := by decide

/-- The memories and the fixed regions: the wrong mode, and the address beside the range. -/
theorem test_wf_refuses_memories :
    [Instr.rdVram 0x8000 drawing, .wrVram 0xA000 0 dmg, .rdUnacc 0x8000 dmg, .wrUnacc 0xFE00 0 dmg,
     .rdUnacc 0xFF69 drawing, .rdWram0 0xC000 dmg, .wrWram0 0xD000 0 cgb, .rdWramX 0xD000 dmg,
     .wrWramX 0xFE00 0 cgb, .rdIram 0xC000 cgb, .wrIram 0xFE00 0 dmg, .rdOam 0xFE00 drawing,
     .wrOam 0xFEA0 0 dmg, .rdEmpty0D 0xFEA0 cgb, .wrEmpty0D 0xFF00 0 dmg, .rdEmpty0C 0xFEA0 dmg,
     .wrEmpty0C 0xFE9F 0 cgb, .rdWave 0xFF2F dmg, .wrWave 0xFF40 0 dmg, .rdIoPort 0xFF30 dmg,
     .wrIoPort 0xFF4C 0 dmg, .rdBootReg 0xFF50 dmg, .wrBootReg 0xFF51 0 booting, .rdEmpty1 0xFF4D cgb,
     .wrEmpty1 0xFF50 0 booting, .rdEmpty1 0xFF6C cgbHw, .rdEmpty1 0xFF80 dmg, .rdHram 0xFFFF dmg,
     .wrHram 0xFF7F 0 dmg, .rdIe 0xFFFE dmg, .wrIe 0xFF0F 0 dmg].all
      (fun i => !i.wf start.view) = true := by decide

/-- The undocumented registers: out of CGB hardware, and at another's address. -/
theorem test_wf_refuses_undocumented :
    [Instr.rdUndocFF6C 0xFF6C dmg, .wrUndocFF6C 0xFF6D 0 cgb, .rdUndocFF72 0xFF72 dmg,
     .wrUndocFF72 0xFF73 0 cgb, .rdUndocFF73 0xFF73 dmg, .wrUndocFF73 0xFF72 0 cgb,
     .rdUndocFF74 0xFF74 dmg, .wrUndocFF74 0xFF75 0 cgb, .rdUndocFF75 0xFF75 dmg,
     .wrUndocFF75 0xFF74 0 cgb, .rdUndocFF76 0xFF76 dmg, .wrUndocFF76 0xFF77 0 cgb,
     .rdUndocFF77 0xFF77 dmg, .wrUndocFF77 0xFF76 0 cgb].all (fun i => !i.wf start.view) = true := by
  decide

/-! ### Single steps -/

/-- Vectors W1, W4, W6, W8, W9, W31, W32: the enable flag of the selected bank alone. -/
theorem test_ramen :
    mbcAfter start 0x0000 0x0A = some ⟨.rom16KRam8K, 1, 0, [true, false, false, false]⟩
    ∧ mbcAfter start 0x0000 0xF5 = some ⟨.rom16KRam8K, 1, 0, [false, false, false, false]⟩
    ∧ mbcAfter (mbc .rom16KRam8K 1 0 [true, false, false, false]) 0x0000 0x05
      = some ⟨.rom16KRam8K, 1, 0, [false, false, false, false]⟩
    ∧ mbcAfter (mbc .rom4MRam32K 1 2 [true, false, false, false]) 0x0000 0x0A
      = some ⟨.rom4MRam32K, 1, 2, [true, false, true, false]⟩
    ∧ mbcAfter (mbc .rom4MRam32K 1 2 [true, false, true, false]) 0x0000 0x00
      = some ⟨.rom4MRam32K, 1, 2, [true, false, false, false]⟩
    ∧ mbcAfter State.reset 0x0000 0x0A = some ⟨.rom16KRam8K, 1, 0, []⟩ := by decide

/-- Vectors W12, W14 to W17. -/
theorem test_romlo :
    (mbcAfter start 0x3FFF 0x1F).map (·.rom) = some 0x1F
    ∧ (mbcAfter start 0x2000 0xE0).map (·.rom) = some 0x01
    ∧ (mbcAfter start 0x2000 0xFF).map (·.rom) = some 0x1F
    ∧ (mbcAfter (mbc .rom16KRam8K 0x65 0 []) 0x2000 0x00).map (·.rom) = some 0x61
    ∧ (mbcAfter (mbc .rom16KRam8K 0x65 0 []) 0x2100 0x13).map (·.rom) = some 0x73 := by decide

/-- Vectors W19 to W21, W23, W24. -/
theorem test_bankhi :
    (mbcAfter (mbc .rom16KRam8K 0x05 0 []) 0x5FFF 0x03).map (·.rom) = some 0x65
    ∧ (mbcAfter (mbc .rom16KRam8K 0x65 0 []) 0x4000 0x00).map (·.rom) = some 0x05
    ∧ (mbcAfter (mbc .rom16KRam8K 0x05 0 []) 0x4000 0xFE).map (·.rom) = some 0x45
    ∧ mbcAfter (mbc .rom4MRam32K 0x65 1 [false, true, false, false]) 0x4000 0xFF
      = some ⟨.rom4MRam32K, 0x65, 3, [false, true, false, false]⟩
    ∧ (mbcAfter (mbc .rom4MRam32K 0x65 3 []) 0x5FFF 0x00).map (·.sel) = some 0 := by decide

/-- Vectors W25, W27, W29. -/
theorem test_mode :
    (mbcAfter (mbc .rom16KRam8K 0x25 2 []) 0x6000 0x01).map (·.mode) = some .rom4MRam32K
    ∧ (mbcAfter (mbc .rom4MRam32K 0x25 2 []) 0x7FFF 0x03).map (·.mode) = some .rom16KRam8K
    ∧ (mbcAfter (mbc .rom16KRam8K 0x25 2 []) 0x6000 0x81).map (·.mode) = some .rom16KRam8K := by decide

/-- Vectors M1, M9 and M13 (physical index), M10, M19, M26 (fallback), W35, and rule R240's reads. -/
theorem test_cartridge_reads :
    readsOf start 0x0000 dmg = some [0x00] ∧ readsOf start 0x0002 dmg = some [0x02]
    ∧ romPhys 0x02 0x4ABC = 0x008ABC ∧ romPhys 0x21 0x4000 = 0x084000
    ∧ readsOf { start with config := { cart4 with romBanks := 1 } } 0x4000 dmg = some [0xFF]
    ∧ readsOf start 0x2000 dmg = some [0xFF]
    ∧ faultOf (mbc1Write 0x8000 0x00 start) = some (.mbcAddr 0x8000)
    ∧ mbc1Read 0x8000 start = 0xFF ∧ mbc1Read 0xFFFF start = 0xFF := by decide

/-- Properties P4 and P8: the gate of the selected bank. -/
theorem test_external_ram :
    readsOf ramOpen 0xA000 dmg = some [0xB2]
    ∧ readsOf (mbc .rom4MRam32K 3 2 [false, false, false, false]) 0xA000 dmg = some [0xFF]
    ∧ (after ramOpen (.wr 0xBFFF 0xC3 dmg)).map (fun u => u.cell .extRam 0x5FFF) = some 0xC3
    ∧ after start (.wr 0xA000 0x3C dmg) = some start := by decide

/-- Property P5 and the banked form of vectors 2.6. -/
theorem test_work_ram :
    (after start (.wr 0xC010 0x5A dmg)).map (fun u => u.cell .iram 0x10) = some 0x5A
    ∧ readsOf (start.setCell .iram 0x10 0x5A) 0xE010 dmg = some [0x5A]
    ∧ (after start (.wr 0xFDFF 0x77 dmg)).map (fun u => u.cell .iram 0x1DFF) = some 0x77
    ∧ readsOf (start.setCell .iram 0x1DFF 0x77) 0xDDFF dmg = some [0x77]
    ∧ readsOf (start.setCell .wram 0x1000 0x33) 0xF000 cgb = some [0x33]
    ∧ (after start (.wr 0xD000 0x33 cgb)).map (fun u => u.cell .wram 0x1000) = some 0x33
    ∧ (after start (.wr 0xE001 0x44 cgb)).map (fun u => u.cell .wram 0x0001) = some 0x44
    ∧ wramBank 0 = 1 ∧ wramBank 1 = 1 ∧ wramBank 7 = 7 := by decide

/-- Property P6, the sentinel vectors of 2.7, and VRAM banks by mode. -/
theorem test_video :
    readsOf (start.setCell .oam 0 0x42) 0xFE00 ⟨false, false, false, .mode2⟩ = some [0xFF]
    ∧ readsOf (start.setCell .oam 0 0x42) 0xFE00 ⟨false, false, false, .mode1⟩ = some [0x42]
    ∧ after start (.wr 0xFE00 0x99 drawing) = some start
    ∧ readsOf start 0x9FFF drawing = some [0xFF]
    ∧ (after (start.withBlock { start.block with vbk := 1 }) (.wr 0x8000 0x12 cgb)).map
        (fun u => (u.cell .vram 0x2000, u.cell .vram 0x0000)) = some (0x12, 0x00)
    ∧ (after (start.withBlock { start.block with vbk := 1 }) (.wr 0x8000 0x12 cgbHw)).map
        (fun u => (u.cell .vram 0x2000, u.cell .vram 0x0000)) = some (0x00, 0x12) := by decide

/-- Vectors 2.4. -/
theorem test_empty_regions :
    (after start (.wr 0xFEC3 0x5C cgb)).map (fun u => (u.cell .empty0 0x23, u.cell .empty0 0x03))
      = some (0x5C, 0x00)
    ∧ readsOf (start.setCell .empty0 0x23 0x5C) 0xFEF3 cgb = some [0x5C]
    ∧ empty0Fold 16 0x1F = 0x1F ∧ empty0Fold 16 0x30 = 0x20 ∧ empty0Fold 16 0x5F = 0x2F
    ∧ after start (.wr 0xFEA3 0x11 dmg) = some start
    ∧ readsOf (start.setCell .empty0 3 0x11) 0xFEA3 dmg = some [0x00] := by decide

/-- Property P7, the table of 2.1 on the boot register, and vectors W36 and 2.7. -/
theorem test_boot :
    readsOf start 0x0000 booting = some [0xA5]
    ∧ (after start (.wr 0xFF50 0x01 booting)).map (·.block.bootOff) = some true
    ∧ (after start (.wr 0xFF50 0xFE booting)).map (·.block.bootOff) = some false
    ∧ readsOf (start.withBlock { start.block with bootOff := true }) 0x0000 booting = some [0x00]
    ∧ readsOf start 0xFF50 booting = some [0xFF] ∧ readsOf start 0xFF50 dmg = some [0xFF]
    ∧ after start (.wr 0x0000 0x0A booting) = some start := by decide

/-- `start` with every undocumented register holding `0x5A`. -/
def undoc5A : State :=
  start.withBlock { start.block with undoc := ⟨0x5A, 0x5A, 0x5A, 0x5A, 0x5A, 0x5A, 0x5A⟩ }

/-- The undocumented registers after one write on CGB hardware. -/
def undocAfter (a : Addr) (v : Byte) : Option UndocBytes :=
  (after start (.wr a v cgbHw)).map (·.block.undoc)

/-- Vectors 2.5, the reads. -/
theorem test_undocumented_reads :
    readsOf undoc5A 0xFF6C cgbHw = some [0xFE] ∧ readsOf undoc5A 0xFF72 cgbHw = some [0x5A]
    ∧ readsOf undoc5A 0xFF73 cgbHw = some [0x5A] ∧ readsOf undoc5A 0xFF74 cgbHw = some [0x5A]
    ∧ readsOf undoc5A 0xFF75 cgbHw = some [0xDF] ∧ readsOf undoc5A 0xFF76 cgbHw = some [0x00]
    ∧ readsOf undoc5A 0xFF77 cgbHw = some [0x00] ∧ readsOf undoc5A 0xFF72 dmg = some [0xFF] := by
  decide

/-- Vectors 2.5, the writes. -/
theorem test_undocumented_writes :
    undocAfter 0xFF6C 0x5A = some ⟨0x5A, 0, 0, 0, 0, 0, 0⟩
    ∧ undocAfter 0xFF72 0x5A = some ⟨0, 0x5A, 0, 0, 0, 0, 0⟩
    ∧ undocAfter 0xFF73 0x5A = some ⟨0, 0, 0x5A, 0, 0, 0, 0⟩
    ∧ undocAfter 0xFF74 0x5A = some ⟨0, 0, 0, 0x5A, 0, 0, 0⟩
    ∧ undocAfter 0xFF75 0x5A = some ⟨0, 0, 0, 0, 0x5A, 0, 0⟩
    ∧ undocAfter 0xFF76 0x5A = some ⟨0, 0, 0, 0, 0, 0x5A, 0⟩
    ∧ undocAfter 0xFF77 0x5A = some ⟨0, 0, 0, 0, 0, 0, 0x5A⟩ := by decide

/-- Vectors 2.6 and the `HDMA1` vectors of 2.7. -/
theorem test_bank_selects_and_hdma :
    (after start (.wr 0xFF70 0x0F cgb)).map (·.block.svbk) = some 7
    ∧ readsOf (start.withBlock { start.block with svbk := 7, vbk := 1 }) 0xFF70 cgb = some [0xFF]
    ∧ (after start (.wr 0xFF70 0xF8 cgb)).map (·.block.svbk) = some 0
    ∧ readsOf start 0xFF70 cgb = some [0xF8]
    ∧ (after start (.wr 0xFF4F 0xFE cgb)).map (·.block.vbk) = some 0
    ∧ (after start (.wr 0xFF4F 0x01 cgb)).map (·.block.vbk) = some 1
    ∧ readsOf start 0xFF4F cgb = some [0xFE]
    ∧ readsOf (start.withBlock { start.block with svbk := 7, vbk := 1 }) 0xFF4F cgb = some [0xFF]
    ∧ (after start (.wr 0xFF51 0x12 cgb)).map (·.block.hdma) = some ⟨0x12, 0, 0, 0⟩
    ∧ (after start (.wr 0xFF54 0x34 cgb)).map (·.block.hdma) = some ⟨0, 0, 0, 0x34⟩
    ∧ readsOf start 0xFF51 cgb = some [0xFF]
    ∧ after start (.wr 0xFF51 0x12 dmg) = some start := by decide

/-- Vectors 2.7: high RAM, `IE`, wave RAM over the port table, the filler. -/
theorem test_high_addresses :
    (after start (.wr 0xFFFE 0xCD dmg)).map (fun u => u.cell .hram 0x7E) = some 0xCD
    ∧ (after start (.wr 0xFFFF 0xE0 dmg)).map (·.block.ie) = some 0xE0
    ∧ readsOf (start.withBlock { start.block with ie := 0xE0 }) 0xFFFF dmg = some [0xE0]
    ∧ (after start (.wr 0xFF3F 0xEF dmg)).map (fun u => (u.cell .wave 0xF, u.events)) = some (0xEF, [])
    ∧ after start (.wr 0xFF7F 0x00 dmg) = some start
    ∧ readsOf start 0xFF7F dmg = some [0xFF] := by decide

/-- Vectors 2.7 and 2.8: events to the leaves; the byte of a forwarded read is never fixed. -/
theorem test_leaves :
    (after start (.wr 0xFF40 0x91 dmg)).map (·.events) = some [.extWrite (.ioPort 0x40) 0xFF40 0x91]
    ∧ (after start (.wr 0xFF68 0x80 cgbDrawing)).map (·.events) = some [.extWrite .bgpi 0xFF68 0x80]
    ∧ after start (.wr 0xFF69 0x2E cgbDrawing) = some start
    ∧ readsOf start 0xFF6B cgbDrawing = some [0xFF]
    ∧ (after start (.rd 0xFF55 cgb)).map (fun u => (u.events, u.leafReads)) =
        some ([.extRead .hdma5 0xFF55], 1)
    ∧ (after start (.stept 4)).map (·.events) = some [.extStep .timer 4]
    ∧ (after start (.step 0xFFFFFFFF)).map (·.events) =
        some [.extStep .dma 0xFFFFFFFF, .extStep .hdma5 0xFFFFFFFF] := by decide

/-! ### Other parameters than the default ones -/

/-- An instantiation that rules R7 to R9 allow: every parameter away from its default, `SPEED`
and `WRAMSEL` at addresses of other regions. -/
def other : Config.Params where
  sentinelValue := 0xAB
  bootRegRead := 0x12
  empty0FoldPeriod := 8
  vmMode0 := 3
  vmMode1 := 2
  vmMode2 := 1
  vmMode3 := 0
  addrSpeed := 0xFE10
  addrVramSel := 0xFF4D
  addrHdma1 := 0xFF58
  addrHdma2 := 0xFF59
  addrHdma3 := 0xFF5A
  addrHdma4 := 0xFF5B
  addrHdma5 := 0xFF5C
  addrInfrared := 0xFF5D
  addrBgpi := 0xFF60
  addrBgpd := 0xFF61
  addrObpi := 0xFF62
  addrObpd := 0xFF63
  addrWramSel := 0xC000
  undocOrFF6C := 0x00
  undocOrFF72 := 0x80
  undocOrFF73 := 0x01
  undocOrFF74 := 0x02
  undocOrFF75 := 0x04
  vramSelReadOr := 0x00
  wramSelReadOr := 0x80

/-- `start` with the other parameters. -/
def otherStart : State := { start with params := other }

/-- Whether an instantiation meets the constraints. -/
def valid (p : Config.Params) : Bool := decide p.Valid

/-- The constraints of rule R8, met and each of them broken; two modes with one code; the fold. -/
theorem test_params_valid :
    Config.Params.default.Valid ∧ other.Valid
    ∧ valid { other with addrSpeed := 0xFF4D } = false
    ∧ valid { other with addrObpd := 0xFF50 } = false
    ∧ valid { other with addrBgpi := 0xFF6C } = false
    ∧ valid { other with addrBgpi := 0xFF77 } = false
    ∧ valid { other with addrHdma5 := 0x8000 } = false
    ∧ valid { other with addrHdma5 := 0x9FFF } = false
    ∧ valid { other with addrHdma5 := 0xA000 } = true
    ∧ valid { other with vmMode2 := 0 } = false
    ∧ valid { other with empty0FoldPeriod := 0 } = false
    ∧ valid { other with empty0FoldPeriod := 17 } = false := by decide

/-- The decoder takes the codes of the modes and the addresses from the parameters. -/
theorem test_params_decode :
    decode otherStart.view 0x6D005AFF4D#40 = .ok (.wrVramSel 0xFF4D 0x5A cgb)
    ∧ decode otherStart.view 0x6C0000FE10#40 = .ok (.rdSpeed 0xFE10 cgb)
    ∧ decode otherStart.view 0x600000FE10#40 = .ok (.rdOam 0xFE10 dmg)
    ∧ decode otherStart.view 0x000000FE10#40 = .ok (.rdUnacc 0xFE10 drawing)
    ∧ decode otherStart.view 0x0D005AFF61#40 = .ok (.wrUnacc 0xFF61 0x5A cgbDrawing)
    ∧ encode other (.rdSpeed 0xFE10 cgb) = 0x6C0000FE10#40 := by decide

/-- Reads give the parameters' bytes; the constants of R188, R177 and R202 stay as they are. -/
theorem test_params_reads :
    readsOf otherStart 0x8000 drawing = some [0xAB] ∧ readsOf otherStart 0xA000 dmg = some [0xAB]
    ∧ readsOf otherStart 0xFF50 booting = some [0x12] ∧ readsOf otherStart 0xFF50 dmg = some [0xFF]
    ∧ readsOf otherStart 0xFF6C cgbHw = some [0x00] ∧ readsOf otherStart 0xFF72 cgbHw = some [0x80]
    ∧ readsOf otherStart 0xFF73 cgbHw = some [0x01] ∧ readsOf otherStart 0xFF74 cgbHw = some [0x02]
    ∧ readsOf otherStart 0xFF75 cgbHw = some [0x04] ∧ readsOf otherStart 0xFF4D cgb = some [0x00]
    ∧ readsOf otherStart 0xC000 cgb = some [0x80] ∧ readsOf otherStart 0xFF58 cgb = some [0xFF]
    ∧ readsOf otherStart 0xFF4C dmg = some [0xFF] ∧ readsOf otherStart 0xFEA0 dmg = some [0x00] := by
  decide

/-- Writes go where the parameters put the registers, and the fold has the parameter's period. -/
theorem test_params_writes :
    (after otherStart (.wr 0xC000 0x07 cgb)).map (·.block.svbk) = some 7
    ∧ (after otherStart (.wr 0xC000 0x07 dmg)).map (fun u => u.cell .iram 0) = some 7
    ∧ (after otherStart (.wr 0xFF5B 0x34 cgb)).map (·.block.hdma) = some ⟨0, 0, 0, 0x34⟩
    ∧ (after otherStart (.wr 0xFE10 0x01 cgb)).map (·.events) = some [.extWrite .speed 0xFE10 0x01]
    ∧ (after otherStart (.wr 0xFEC9 0x5C cgb)).map (fun u => (u.cell .empty0 0x21, u.cell .empty0 0x29))
      = some (0x5C, 0x00) := by decide

/-- A `REPLACE` keeps the parameters (log entry 20). -/
theorem test_params_replace :
    nextOf (step { ramOpen with params := other, inputs := [.replace cart4 Rams.empty none] })
      = some otherStart := by decide

/-- `REPLACE` between transactions: a new block (rule R266). -/
theorem test_replace :
    nextOf (step { ramOpen with inputs := [.replace cart4 Rams.empty none, .txn (.stept 4)] })
      = some { start with inputs := [.txn (.stept 4)] } := by decide

/-- `REPLACE` with a save file, and `InitMem` where the file ends (rules R302, R303). -/
theorem test_save_file :
    (State.resetOf Config.Params.default cart4 { Rams.empty with extRam := [(0, 0x11), (2, 0x22)] }
      (some [0xB0, 0xB1])).block.rams.extRam
      = [(0, 0xB0), (1, 0xB1), (2, 0x22)] := by decide

/-! ### Witnesses: the hypotheses of each statement are met together -/

theorem witness_decodeOfEncode :
    ramOpen.view.params.Valid ∧ otherStart.view.params.Valid
    ∧ (Instr.wrExtRam 0xBFFF 0xFF cgbDrawing).wf ramOpen.view = true
    ∧ decode ramOpen.view (encode ramOpen.view.params (.wrExtRam 0xBFFF 0xFF cgbDrawing))
      = .ok (.wrExtRam 0xBFFF 0xFF cgbDrawing) := by decide

theorem witness_encodeOfDecode :
    View.reset.params.Valid ∧ decode View.reset 0x6DFFFFFFFF#40 = .error .reservedBits
    ∧ decode View.reset 0x6D00FFFFFF#40 = .ok (.wrIe 0xFFFF 0xFF cgbDrawing) := by decide

theorem witness_noBootRomIsLegal :
    startNoBoot.params.Valid ∧ startNoBoot.params.Free booting 0x7FFF
    ∧ startNoBoot.params.Free cgb 0x7FFF ∧ startNoBoot.config.bootRom = none
    ∧ (0x7FFF#16).toNat ≤ 0x7FFF
    ∧ booting.bootingActive = true ∧ startNoBoot.block.bootOff = false := by decide

theorem witness_cgbRegistersOnlyInCgbMode :
    View.reset.params.Valid ∧ otherStart.view.params.Valid
    ∧ cgbDrawing.inCGBMode = true ∧ dmg.inCGBMode = false
    ∧ other.addrOf .speed = 0xFE10 ∧ other.addrOf .hdma5 = 0xFF5C
    ∧ resolve otherStart.view cgb 0xFE10 = some .speed
    ∧ resolve otherStart.view dmg 0xFF5C = some (.empty1 0x10)
    ∧ resolve View.reset cgbDrawing 0xFF6B = some .unacc
    ∧ resolve View.reset dmg 0xFF70 = some (.empty1 (0xFF70 - 0xFF4C)) := by decide

theorem witness_aliasesExactly :
    start.params.Free cgb 0xFEC0 ∧ start.params.Free cgb 0xFDFF ∧ start.params.Free dmg 0xDDFF
    ∧ otherStart.reaches cgb 0xC000 = none ∧ otherStart.reaches cgb 0xE000 = some (.wram, 0)
    ∧ otherStart.reaches cgb 0xFEC0 = some (.empty0, 0x20)
    ∧ otherStart.reaches cgb 0xFEC8 = some (.empty0, 0x20)
    ∧ start.reaches dmg 0xDDFF = some (.iram, 0x1DFF)
    ∧ start.reaches dmg 0xFDFF = some (.iram, 0x1DFF)
    ∧ start.reaches cgb 0xFEC0 = some (.empty0, 0x20)
    ∧ start.reaches cgb 0xFEF0 = some (.empty0, 0x20)
    ∧ start.reaches cgb 0xFEBF = some (.empty0, 0x1F)
    ∧ start.reaches cgb 0xD000 = some (.wram, 0x1000)
    ∧ (start.withBlock { start.block with svbk := 1 }).reaches cgb 0xFDFF = some (.wram, 0x1DFF)
    ∧ (start.withBlock { start.block with svbk := 7 }).reaches cgb 0xF000 = some (.wram, 0x7000) := by
  decide

theorem witness_stepRunsDecodedInstruction :
    select start.view (.wr 0xFFFF 0xE0 dmg) = some (.wrIe 0xFFFF 0xE0 dmg)
    ∧ (start.present (.wr 0xFFFF 0xE0 dmg)).inputs = .txn (.wr 0xFFFF 0xE0 dmg) :: []
    ∧ decode start.view 0x0100E0FFFF#40 = .ok (.wrIe 0xFFFF 0xE0 dmg)
    ∧ decode start.view (tableRecord 16 0xFFFF) = .ok (.rdIe 0xFFFF dmg)
    ∧ start.inputs = [] := by decide

theorem witness_inv : ramOpen.Inv ∧ start.Inv :=
  ⟨⟨fun x => by cases x <;> decide, by decide, by decide⟩,
    fun x => by cases x <;> decide, by decide, by decide⟩

theorem witness_stepKeepsInvariant :
    (ramOpen.present (.wr 0x2000 0x20 dmg)).Inv
    ∧ (nextOf (step (ramOpen.present (.wr 0x2000 0x20 dmg)))).isSome = true :=
  ⟨witness_inv.1, by decide⟩

theorem witness_memoryAfterReset :
    0 < RamArray.size 4 .extRam ∧ 0x7FFF < RamArray.size 4 .extRam
    ∧ 0x7E < RamArray.size 4 .hram := by
  decide

theorem witness_firstTransactionsAfterReset :
    Config.Params.default.Free booting 0x0000 ∧ Config.Params.default.Free booting 0x4000
    ∧ Config.Params.default.Free dmg 0xA000 ∧ Config.Params.default.Free cgb 0xFFFF
    ∧ other.Free cgb 0x0000
    ∧ cart4.bootRom = some (0xA5 :: [0xA4, 0xA7]) ∧ booting.bootingActive = true
    ∧ dmg.bootingActive = false ∧ cart4.rom = 0x00 :: [0x01, 0x02]
    ∧ cart4.bootSize ≤ 0x4000 ∧ 2 ≤ cart4.romBanks ∧ Config.Cartridge.empty.romBanks ≤ 1 := by decide

/-- An image of `0x4001` bytes, the last of them `0xB1`: the clause of rule R304 on `0x4000`. -/
theorem witness_firstByteOfBank1 :
    (List.replicate 0x4000 (0x00 : Byte) ++ [0xB1])[0x4000]? = some 0xB1 := by
  rw [List.getElem?_append_right (by rw [List.length_replicate]), List.length_replicate]
  rfl

theorem witness_replaceBuildsNewBlock :
    ({ ramOpen with inputs := [.replace cart4 Rams.empty none] } : State).inputs
      = .replace cart4 Rams.empty none :: [] := by decide

theorem witness_saveFileRestoresExternalRam : cart4.ramBanks = ramOpen.config.ramBanks := by decide

theorem witness_ramEnableWrite :
    ramOpen.block.ramEnabled.length = ramOpen.config.ramBanks
    ∧ State.reset.block.ramEnabled.length = State.reset.config.ramBanks := by decide

theorem witness_cartridgeWritesSelectRegister :
    start.params.Free booting 0x0003 ∧ start.params.Free cgb 0x7FFF ∧ start.Uncovered booting 0x0003
    ∧ start.Uncovered booting 0x01FF ∧ ¬start.Uncovered booting 0x0002 ∧ dmg.bootingActive = false
    ∧ (0x1FFF#16).toNat < 0x2000 ∧ (0x7FFF#16).toNat ≤ 0x7FFF
    ∧ start.config.bootSize ≤ (0x0003#16).toNat
    ∧ select start.view (.wr 0x0003 0x0A booting) = some (.wrRamEn 0x0003 0x0A booting)
    ∧ select start.view (.wr 0x01FF 0x0A booting) = some (.wrRamEn 0x01FF 0x0A booting)
    ∧ select ramOpen.view (.wr 0x5FFF 0x0A dmg) = some (.wrBankHiRam 0x5FFF 0x0A dmg) := by decide

theorem witness_cartridgeReads :
    start.Uncovered dmg 0x3FFF ∧ start.Uncovered booting 0x4000 ∧ start.params.Free cgb 0x4000
    ∧ select start.view (.rd 0x3FFF dmg) = some (.rdRom0 0x3FFF dmg)
    ∧ select start.view (.rd 0x4000 booting) = some (.rdRomX 0x4000 booting)
    ∧ start.config.bootSize ≤ (0x4000#16).toNat := by decide

theorem witness_controllerOutsideItsWindow :
    0x7FFF < (0x8000#16).toNat ∧ resolve start.view dmg 0x7FFF = some (.cart 0x7FFF) := by decide

theorem witness_enableAfterSelect :
    start.Inv ∧ (0x0A#8).toNat = 0x0A ∧ (3#8).toNat < start.config.ramBanks
    ∧ (3#8).toNat ≠ start.block.ramBankSel.toNat ∧ 0xA000 ≤ (0xA000#16).toNat
    ∧ (0xBFFF#16).toNat ≤ 0xBFFF ∧ start.block.ramFlag (3#8).toNat = false
    ∧ (3#8).toNat ≤ 3 ∧ start.params.Free cgb 0xA000 ∧ start.params.Free dmg 0xBFFF :=
  ⟨witness_inv.2, by decide⟩

theorem witness_lockedAccess :
    start.params.Valid ∧ start.params.Free drawing 0x8000 ∧ start.params.Free cgbDrawing 0xFE9F
    ∧ resolve start.view drawing 0x8000 = some .unacc
    ∧ resolve start.view drawing 0x9FFF = some .unacc
    ∧ resolve start.view dmg 0xBFFF = some .unacc
    ∧ resolve start.view ⟨true, true, false, .mode2⟩ 0xFE9F = some .unacc
    ∧ resolve start.view cgbDrawing 0xFF69 = some .unacc := by decide

theorem witness_bootRomOverlay :
    start.params.Free booting 0x0002 ∧ booting.bootingActive = true ∧ start.block.bootOff = false
    ∧ start.config.bootRom = some [0xA5, 0xA4, 0xA7] ∧ (0x0002#16).toNat ≤ 0x7FFF
    ∧ ¬(0x0100 ≤ (0x0002#16).toNat ∧ (0x0002#16).toNat ≤ 0x01FF)
    ∧ (0x0002#16).toNat < [0xA5#8, 0xA4#8, 0xA7#8].length := by decide

theorem witness_videoRam :
    start.params.Valid ∧ otherStart.params.Valid ∧ cgb.videoMode ≠ .mode3
    ∧ 0x8000 ≤ (0x8000#16).toNat ∧ (0x9FFF#16).toNat ≤ 0x9FFF
    ∧ select start.view (.rd 0x9FFF cgb) = some (.rdVram 0x9FFF cgb) := by decide

theorem witness_externalRam :
    ramOpen.params.Free dmg 0xA000 ∧ ramOpen.params.Free cgb 0xBFFF
    ∧ ramOpen.block.ramBankSel.toNat < ramOpen.config.ramBanks
    ∧ ramOpen.block.ramFlag ramOpen.block.ramBankSel.toNat = true
    ∧ 0xA000 ≤ (0xA000#16).toNat ∧ (0xBFFF#16).toNat ≤ 0xBFFF := by decide

theorem witness_flatWorkRam :
    dmg.inCGBMode = false ∧ 0xC000 ≤ (0xC000#16).toNat ∧ (0xFDFF#16).toNat ≤ 0xFDFF
    ∧ select start.view (.rd 0xDFFF dmg) = some (.rdIram 0xDFFF dmg)
    ∧ select start.view (.rd 0xE000 dmg) = some (.rdIram 0xE000 dmg) := by decide

theorem witness_bankedWorkRam :
    cgb.inCGBMode = true ∧ start.params.Free cgb 0xC000 ∧ start.params.Free cgb 0xFDFF
    ∧ select start.view (.rd 0xCFFF cgb) = some (.rdWram0 0xCFFF cgb)
    ∧ select start.view (.rd 0xE000 cgb) = some (.rdWram0 0xE000 cgb)
    ∧ select start.view (.rd 0xD000 cgb) = some (.rdWramX 0xD000 cgb)
    ∧ select start.view (.rd 0xFDFF cgb) = some (.rdWramX 0xFDFF cgb) := by decide

theorem witness_spriteTable :
    start.params.Free cgb 0xFE9F ∧ dmg.videoMode = .mode0 ∧ 0xFE00 ≤ (0xFE00#16).toNat
    ∧ (0xFE9F#16).toNat ≤ 0xFE9F := by decide

theorem witness_emptyRegionDmg :
    start.params.Free ⟨false, true, false, .mode0⟩ 0xFEFF ∧ dmg.isCGB = false
    ∧ 0xFEA0 ≤ (0xFEA0#16).toNat ∧ (0xFEFF#16).toNat ≤ 0xFEFF := by decide

theorem witness_emptyRegionCgb :
    start.params.Valid ∧ start.params.Free cgb 0xFEFF ∧ cgbHw.isCGB = true
    ∧ 0xFEA0 ≤ (0xFEA0#16).toNat ∧ (0xFEFF#16).toNat ≤ 0xFEFF
    ∧ start.reaches cgbHw 0xFEBF = some (.empty0, 0x1F)
    ∧ start.reaches cgbHw 0xFEFF = some (.empty0, 0x20 + 0xFEFF % 16) := by decide

theorem witness_waveRam :
    start.params.Free cgb 0xFF3F ∧ 0xFF30 ≤ (0xFF30#16).toNat
    ∧ (0xFF3F#16).toNat ≤ 0xFF3F := by decide

theorem witness_highRam :
    start.params.Free cgb 0xFFFE ∧ 0xFF80 ≤ (0xFF80#16).toNat
    ∧ (0xFFFE#16).toNat ≤ 0xFFFE := by decide

theorem witness_interruptEnable :
    start.params.Free cgb 0xFFFF ∧ select start.view (.rd 0xFFFF cgb) = some (.rdIe 0xFFFF cgb) := by
  decide

theorem witness_bootRegisterRead :
    start.params.Valid ∧ otherStart.params.Valid
    ∧ select start.view (.rd 0xFF50 booting) = some (.rdBootReg 0xFF50 booting)
    ∧ select start.view (.rd 0xFF50 dmg) = some (.rdEmpty1 0xFF50 dmg) := by decide

theorem witness_bootLatch :
    start.params.Valid ∧ start.params.Free cgb 0x0000
    ∧ (0x01#8).getLsbD 0 = true ∧ (0xFE#8).getLsbD 0 = false
    ∧ (start.withBlock { start.block with bootOff := true }).block.bootOff = true
    ∧ nextOf (exec (.wrBootReg 0xFF50 0x00 booting)
        (start.withBlock { start.block with bootOff := true }))
      = some (start.withBlock { start.block with bootOff := true }) := by decide

theorem witness_overlayNeverReturns :
    ∃ s t : State, s.block.bootOff = true ∧ s.OnlyTransactions ∧ s.inputs.length = 2
      ∧ core.run 2 s = .next t ∧ (0x3FFF#16).toNat ≤ 0x3FFF ∧ s.params.Free cgb 0x3FFF :=
  ⟨{ start with
      block := { start.block with bootOff := true }
      inputs := [.txn (.wr 0xFF50 0x00 booting), .txn (.rd 0x0000 booting)] }, _, rfl,
    by simp [State.OnlyTransactions], rfl, rfl, by decide, by decide⟩

theorem witness_undocumentedRegisters :
    start.params.Valid ∧ cgbHw.isCGB = true ∧ cgb.isCGB = true := by decide

theorem witness_fillerRegion :
    start.params.Free dmg 0xFF6C ∧ start.params.Free cgb 0xFF4C ∧ start.params.Free cgb 0xFF7F
    ∧ start.block.bootOff = false ∧ dmg.bootingActive = false
    ∧ select start.view (.rd 0xFF50 cgb) = some (.rdEmpty1 0xFF50 cgb)
    ∧ select start.view (.rd 0xFF6C dmg) = some (.rdEmpty1 0xFF6C dmg)
    ∧ 0xFF4C ≤ (0xFF4C#16).toNat ∧ (0xFF7F#16).toNat ≤ 0xFF7F ∧ (0xFF4C#16).toNat ≠ 0xFF50
    ∧ dmg.inCGBMode = false ∧ dmg.isCGB = false := by decide

theorem witness_bankSelectRegisters :
    start.params.Valid ∧ start.params = Config.Params.default ∧ otherStart.params.Valid
    ∧ other.addrWramSel = 0xC000 ∧ start.params.addrVramSel = 0xFF4F
    ∧ cgb.inCGBMode = true ∧ (0x0F#8).toNat % 8 = (7#3).toNat ∧ (0x0F#8).toNat % 2 = (1#1).toNat := by
  decide

theorem witness_portTable :
    start.params.Free cgb 0xFF00 ∧ start.params.Free cgb 0xFF4B ∧ start.params.Free dmg 0xFF40
    ∧ select start.view (.rd 0xFF00 dmg) = some (.rdIoPort 0xFF00 dmg)
    ∧ select start.view (.rd 0xFF2F dmg) = some (.rdIoPort 0xFF2F dmg)
    ∧ select start.view (.rd 0xFF40 dmg) = some (.rdIoPort 0xFF40 dmg)
    ∧ select start.view (.rd 0xFF4B dmg) = some (.rdIoPort 0xFF4B dmg)
    ∧ select start.view (.rd 0xFF3F dmg) = some (.rdWave 0xFF3F dmg) := by decide

theorem witness_discardedWritesLeaveNoTrace :
    resolve start.view drawing 0x8000 = some .unacc
    ∧ resolve start.view booting 0x0000 = some (.bootRom 0)
    ∧ resolve start.view dmg 0xFEFF = some (.empty0d 0x5F)
    ∧ resolve start.view dmg 0xFF4C = some (.empty1 0)
    ∧ resolve start.view dmg 0x7FFF = some (.cart 0x7FFF) := by decide

/-- The read answers a next state; it is one of a leaf, the other of a cell. -/
theorem witness_portIsMemReadAndMemWrite :
    (nextOf (memRead 0xFF55 cgb start)).isSome = true
    ∧ (nextOf (memRead 0xFFFE dmg start)).isSome = true := by decide

theorem witness_noStepStops : start.params.Valid ∧ otherStart.params.Valid := by decide

/-- A region of the block's own and two of leaves. -/
theorem witness_readsHaveNoSideEffect :
    start.params.Valid
    ∧ resolve start.view cgb 0xFFFE = some (.hram 0x7E) ∧ Region.leaf (.hram 0x7E) = none
    ∧ resolve start.view cgb 0xFF55 = some .hdma5 ∧ Region.leaf .hdma5 = some .hdma5
    ∧ resolve start.view dmg 0xFF4B = some (.ioPort 0x4B)
    ∧ Region.leaf (.ioPort 0x4B) = some (.ioPort 0x4B) := by decide

theorem witness_memoryFrame :
    (nextOf (exec (.wrHram 0xFFFE 0x12 dmg) start)).map (fun u => u.cell .hram 0x7E) = some 0x12
    ∧ storesTo start (.wrHram 0xFFFE 0x12 dmg) ≠ some (.hram, 0x7D)
    ∧ storesTo start (.wrMode 0x6000 1 dmg) ≠ some (.hram, 0x7E) := by decide

theorem witness_registerFrame :
    (nextOf (exec (.wrMode 0x6000 1 dmg) start)).map (·.block.bankingMode) = some .rom4MRam32K
    ∧ (nextOf (exec (.wrRamEn 0x0000 0x0A dmg) start)).map (·.block.ramEnabled)
      = some [true, false, false, false]
    ∧ 1 ≠ start.block.ramBankSel.toNat := by decide

/-- A change of each kind that the statement speaks of happens on some write. -/
theorem witness_fieldsChangeOnlyInTheirWindows :
    (after start (.wr 0x7FFF 1 dmg)).map (·.block.bankingMode) ≠ some start.block.bankingMode
    ∧ start.Uncovered dmg 0x7FFF ∧ start.Uncovered booting 0x01FF ∧ ¬start.Uncovered booting 0x0000
    ∧ after start (.wr 0x0000 0x0A booting) = some start
    ∧ (after start (.wr 0x2000 2 dmg)).map (·.block.romBank) ≠ some start.block.romBank
    ∧ (after start (.wr 0x5FFF 1 dmg)).map (·.block.romBank) ≠ some start.block.romBank
    ∧ (after ramOpen (.wr 0x4000 1 dmg)).map (·.block.ramBankSel) ≠ some ramOpen.block.ramBankSel
    ∧ (after start (.wr 0x1FFF 2 dmg)).map (·.block.ramEnabled) ≠ some start.block.ramEnabled
    ∧ (after start (.wr 0xFF50 1 booting)).map (·.block.bootOff) ≠ some start.block.bootOff
    ∧ (after start (.wr 0xFF4F 1 cgb)).map (·.block.vbk) ≠ some start.block.vbk
    ∧ (after start (.wr 0xFF70 1 cgb)).map (·.block.svbk) ≠ some start.block.svbk
    ∧ (after start (.wr 0xFF54 1 cgb)).map (·.block.hdma) ≠ some start.block.hdma
    ∧ (after start (.wr 0xFF77 1 cgbHw)).map (·.block.undoc) ≠ some start.block.undoc
    ∧ (after start (.wr 0xFFFF 1 dmg)).map (·.block.ie) ≠ some start.block.ie
    ∧ (after start (.wr 0xFF80 1 dmg)).map (·.cell .hram 0) ≠ some (start.cell .hram 0)
    ∧ (after start (.rd 0xFF50 dmg)).isSome = true
    ∧ (after start (.step 4)).isSome = true := by decide

theorem witness_hiddenBytesAreNeverRead :
    resolve start.view cgb 0xFF51 = some (.hdma .hdma1) ∧ Region.leaf (.hdma .hdma1) = none
    ∧ resolve start.view cgb 0xFF55 = some .hdma5 ∧ Region.leaf .hdma5 = some .hdma5
    ∧ (after start (.rd 0xFF51 cgb)).isSome = true ∧ (after start (.rd 0xFF77 cgb)).isSome = true
    ∧ (after start (.rd 0xFF55 cgb)).isSome = true := by decide

theorem witness_bankingModeNeverAffectsReads :
    (after start (.rd 0x4000 dmg)).isSome = true
    ∧ (after ramOpen (.rd 0xA000 dmg)).isSome = true := by decide

theorem witness_readReturnsLastWrite :
    start.params.Valid ∧ start.reaches dmg 0xC000 = some (.iram, 0)
    ∧ start.reaches drawing 0xE000 = some (.iram, 0)
    ∧ start.reaches cgb 0xC000 = some (.wram, 0) := by decide

end Sys2Proof.Tests
end

/-! PROOFS. What the block is after an instruction and which windows the table lets each register be
written in; then the registers of step 1, reset, the sentinel, the fold, the upper I/O range and the
bank selects. -/

namespace Sys2Proof.Machine

/-! ### The block after an instruction

Said once: the block of the next state as a function of the instruction. What changes one field is
read off it. -/

/-- The block an instruction leaves: each register write its own register, a store its own cell
(`storesTo`), every other instruction the block as it was (rules R21 to R44). -/
def blockAfter (s : State) : Instr → Block
  | .wrRamEn _ v _ => s.block.ramEnWrite s.config.ramBanks v
  | .wrRomLo _ v _ => s.block.romLoWrite v
  | .wrBankHiRom _ v _ => s.block.bankHiRomWrite v
  | .wrBankHiRam _ v _ => s.block.bankHiRamWrite v
  | .wrMode _ v _ => s.block.modeWrite v
  | .wrBootReg _ v _ => { s.block with bootOff := s.block.bootOff || bootOffBit v }
  | .wrVramSel _ v _ => { s.block with vbk := vbkField v }
  | .wrWramSel _ v _ => { s.block with svbk := svbkField v }
  | .wrHdma1 _ v _ => { s.block with hdma := s.block.hdma.set .hdma1 v }
  | .wrHdma2 _ v _ => { s.block with hdma := s.block.hdma.set .hdma2 v }
  | .wrHdma3 _ v _ => { s.block with hdma := s.block.hdma.set .hdma3 v }
  | .wrHdma4 _ v _ => { s.block with hdma := s.block.hdma.set .hdma4 v }
  | .wrUndocFF6C _ v _ => { s.block with undoc := s.block.undoc.set .ff6c v }
  | .wrUndocFF72 _ v _ => { s.block with undoc := s.block.undoc.set .ff72 v }
  | .wrUndocFF73 _ v _ => { s.block with undoc := s.block.undoc.set .ff73 v }
  | .wrUndocFF74 _ v _ => { s.block with undoc := s.block.undoc.set .ff74 v }
  | .wrUndocFF75 _ v _ => { s.block with undoc := s.block.undoc.set .ff75 v }
  | .wrUndocFF76 _ v _ => { s.block with undoc := s.block.undoc.set .ff76 v }
  | .wrUndocFF77 _ v _ => { s.block with undoc := s.block.undoc.set .ff77 v }
  | .wrIe _ v _ => { s.block with ie := v }
  | i => match i.transaction, storesTo s i with
    | .wr _ v _, some (x, k) => (s.setCell x k v).block
    | _, _ => s.block

section Operations

variable {s t : State} {a : Addr} {v : Byte} {x : RamArray} {k : Nat} {leaf : Config.Leaf}

theorem readByte_block {b : Byte} (h : readByte b s = .next t) : t.block = s.block := by
  rw [(readByte_next b s t).mp h, State.returning_block]

theorem readCell_block (h : readCell x k a s = .next t) : t.block = s.block := by
  rw [((readCell_next x k a s t).mp h).2, State.returning_block]

theorem extRead_block (h : extRead leaf a s = .next t) : t.block = s.block := by
  rw [(extRead_next leaf a s t).mp h]
  rfl

theorem extWrite_block (h : extWrite leaf a v s = .next t) : t.block = s.block := by
  rw [(extWrite_next leaf a v s t).mp h, State.sending_block]

theorem ignoreWrite_block (h : ignoreWrite s = .next t) : t.block = s.block := by
  rw [(ignoreWrite_next s t).mp h]

theorem writeBlock_block {b : Block} (h : writeBlock b s = .next t) : t.block = b := by
  rw [(writeBlock_next b s t).mp h, State.withBlock_block]

theorem writeCell_block (h : writeCell x k a v s = .next t) : t.block = (s.setCell x k v).block := by
  rw [((writeCell_next x k a v s t).mp h).2]

end Operations

/-- Every instruction that answers a next state leaves the block that `blockAfter` says. -/
theorem block_of_exec {s t : State} {i : Instr} (h : exec i s = .next t) :
    t.block = blockAfter s i := by
  cases i with
  | rdUnacc | rdRom0 | rdRomX | rdEmpty0D | rdEmpty1 | rdBootReg | rdIe | rdVramSel | rdWramSel =>
    exact readByte_block h
  | rdHdma1 | rdHdma2 | rdHdma3 | rdHdma4 | rdUndocFF6C | rdUndocFF72 | rdUndocFF73 | rdUndocFF74
  | rdUndocFF75 | rdUndocFF76 | rdUndocFF77 => exact readByte_block h
  | rdBootRom =>
    simp only [exec, execRdBootRom] at h
    split at h
    · exact readByte_block h
    · exact absurd h (raiseFault_next _ _)
  | rdVram | rdExtRam | rdIram | rdWram0 | rdWramX | rdOam | rdEmpty0C | rdWave | rdHram =>
    unfold exec at h
    exact readCell_block h
  | rdSpeed | rdInfrared | rdBgpi | rdBgpd | rdObpi | rdObpd | rdHdma5 | rdIoPort =>
    exact extRead_block h
  | wrSpeed | wrInfrared | wrBgpi | wrBgpd | wrObpi | wrObpd | wrHdma5 | wrIoPort =>
    exact extWrite_block h
  | wrUnacc | wrBootRom | wrEmpty0D | wrEmpty1 => exact ignoreWrite_block h
  | wrBootReg _ v _ =>
    simp only [exec, execWrBootReg] at h
    split at h
    · next hb => simp [writeBlock_block h, blockAfter, hb]
    · next hb => simp [ignoreWrite_block h, blockAfter, hb]
  | wrRamEn | wrRomLo | wrBankHiRom | wrBankHiRam | wrMode | wrVramSel | wrWramSel | wrIe =>
    exact writeBlock_block h
  | wrHdma1 | wrHdma2 | wrHdma3 | wrHdma4 | wrUndocFF6C | wrUndocFF72 | wrUndocFF73 | wrUndocFF74
  | wrUndocFF75 | wrUndocFF76 | wrUndocFF77 => exact writeBlock_block h
  | wrVram | wrExtRam | wrIram | wrWram0 | wrWramX | wrOam | wrEmpty0C | wrWave | wrHram =>
    unfold exec at h
    exact writeCell_block h
  | step | stept => cases h; rfl

/-- Only a write leaves another block (rules R28, R301). -/
theorem blockAfter_of_not_wr (s : State) (i : Instr) (h : ∀ a v m, i.transaction ≠ .wr a v m) :
    blockAfter s i = s.block := by
  cases hi : i.transaction with
  | wr a v m => exact absurd hi (h a v m)
  | rd | step | stept => cases i <;> cases hi <;> rfl

/-! ### Which instruction changes a register -/

theorem blockAfter_bankingMode (s : State) (i : Instr) :
    (blockAfter s i).bankingMode = s.block.bankingMode ∨ ∃ a v m, i = .wrMode a v m := by
  cases i with
  | wrMode a v m => exact .inr ⟨a, v, m, rfl⟩
  | wrRamEn => exact .inl (Block.ramEnWrite_bankingMode _ _ _)
  | _ => exact .inl rfl

theorem blockAfter_romBank (s : State) (i : Instr) :
    (blockAfter s i).romBank = s.block.romBank
      ∨ (∃ a v m, i = .wrRomLo a v m) ∨ ∃ a v m, i = .wrBankHiRom a v m := by
  cases i with
  | wrRomLo a v m => exact .inr (.inl ⟨a, v, m, rfl⟩)
  | wrBankHiRom a v m => exact .inr (.inr ⟨a, v, m, rfl⟩)
  | wrRamEn => exact .inl (Block.ramEnWrite_romBank _ _ _)
  | _ => exact .inl rfl

theorem blockAfter_ramBankSel (s : State) (i : Instr) :
    (blockAfter s i).ramBankSel = s.block.ramBankSel ∨ ∃ a v m, i = .wrBankHiRam a v m := by
  cases i with
  | wrBankHiRam a v m => exact .inr ⟨a, v, m, rfl⟩
  | wrRamEn => exact .inl (Block.ramEnWrite_ramBankSel _ _ _)
  | _ => exact .inl rfl

theorem blockAfter_ramEnabled (s : State) (i : Instr) :
    (blockAfter s i).ramEnabled = s.block.ramEnabled ∨ ∃ a v m, i = .wrRamEn a v m := by
  cases i with
  | wrRamEn a v m => exact .inr ⟨a, v, m, rfl⟩
  | _ => exact .inl rfl

theorem blockAfter_bootOff (s : State) (i : Instr) :
    (blockAfter s i).bootOff = s.block.bootOff
      ∨ (blockAfter s i).bootOff = true ∧ ∃ a v m, i = .wrBootReg a v m ∧ v.getLsbD 0 = true := by
  cases i with
  | wrBootReg a v m =>
    cases hb : v.getLsbD 0 with
    | true => exact .inr ⟨by rw [blockAfter, bootOffBit, hb, Bool.or_true], a, v, m, rfl, hb⟩
    | false => exact .inl (by rw [blockAfter, bootOffBit, hb, Bool.or_false])
  | wrRamEn => exact .inl (Block.ramEnWrite_bootOff _ _ _)
  | _ => exact .inl rfl

theorem blockAfter_vbk (s : State) (i : Instr) :
    (blockAfter s i).vbk = s.block.vbk ∨ ∃ a v m, i = .wrVramSel a v m := by
  cases i with
  | wrVramSel a v m => exact .inr ⟨a, v, m, rfl⟩
  | wrRamEn => exact .inl (Block.ramEnWrite_vbk _ _ _)
  | _ => exact .inl rfl

theorem blockAfter_svbk (s : State) (i : Instr) :
    (blockAfter s i).svbk = s.block.svbk ∨ ∃ a v m, i = .wrWramSel a v m := by
  cases i with
  | wrWramSel a v m => exact .inr ⟨a, v, m, rfl⟩
  | wrRamEn => exact .inl (Block.ramEnWrite_svbk _ _ _)
  | _ => exact .inl rfl

theorem blockAfter_ie (s : State) (i : Instr) :
    (blockAfter s i).ie = s.block.ie ∨ ∃ a v m, i = .wrIe a v m := by
  cases i with
  | wrIe a v m => exact .inr ⟨a, v, m, rfl⟩
  | wrRamEn => exact .inl (Block.ramEnWrite_ie _ _ _)
  | _ => exact .inl rfl

/-- A byte of a register file is as before, or it is the one that was set. -/
theorem HdmaBytes.get_set_eq_or (h : HdmaBytes) (q n : Config.HdmaReg) (v : Byte) :
    (h.set q v).get n = h.get n ∨ n = q := by
  rw [HdmaBytes.get_set]
  split
  · next hn => exact .inr hn
  · exact .inl rfl

theorem UndocBytes.get_set_eq_or (u : UndocBytes) (q r : Config.UndocReg) (v : Byte) :
    (u.set q v).get r = u.get r ∨ r = q := by
  rw [UndocBytes.get_set]
  split
  · next hr => exact .inr hr
  · exact .inl rfl

theorem blockAfter_hdma (s : State) (i : Instr) (n : Config.HdmaReg) :
    (blockAfter s i).hdma.get n = s.block.hdma.get n
      ∨ ∃ a v m, i = writeInstr s.view a v m (.hdma n) := by
  cases i with
  | wrHdma1 a v m | wrHdma2 a v m | wrHdma3 a v m | wrHdma4 a v m =>
    obtain h | h := HdmaBytes.get_set_eq_or s.block.hdma _ n v
    · exact .inl h
    · subst h
      exact .inr ⟨a, v, m, rfl⟩
  | wrRamEn => exact .inl (by simp [blockAfter])
  | _ => exact .inl rfl

theorem blockAfter_undoc (s : State) (i : Instr) (r : Config.UndocReg) :
    (blockAfter s i).undoc.get r = s.block.undoc.get r
      ∨ ∃ a v m, i = writeInstr s.view a v m (.undoc r) := by
  cases i with
  | wrUndocFF6C a v m | wrUndocFF72 a v m | wrUndocFF73 a v m | wrUndocFF74 a v m
  | wrUndocFF75 a v m | wrUndocFF76 a v m | wrUndocFF77 a v m =>
    obtain h | h := UndocBytes.get_set_eq_or s.block.undoc _ r v
    · exact .inl h
    · subst h
      exact .inr ⟨a, v, m, rfl⟩
  | wrRamEn => exact .inl (by simp [blockAfter])
  | _ => exact .inl rfl

/-- Only the cell an instruction stores to can read otherwise after it, and it reads the byte of the
instruction's own write (rules R36 to R44). -/
theorem cell_of_exec {s t : State} {i : Instr} (h : exec i s = .next t) (x : RamArray) (k : Nat) :
    t.cell x k = s.cell x k
      ∨ storesTo s i = some (x, k) ∧ ∃ a m, i.transaction = .wr a (t.cell x k) m := by
  obtain ⟨b, rfl⟩ | rfl | ⟨leaf, a, rfl⟩ | ⟨leaf, a, v, rfl⟩ | ⟨n, rfl⟩ | ⟨n, rfl⟩
    | ⟨y, j, v, hs, -, ⟨a, m, ht⟩, rfl⟩ | ⟨-, b, hb, rfl⟩ := exec_effect s t i h
  iterate 6
    · exact .inl rfl
  · rw [State.cell_setCell]
    split
    · next hxk =>
      obtain ⟨rfl, rfl⟩ := hxk
      exact .inr ⟨hs, a, m, ht⟩
    · exact .inl rfl
  · exact .inl (by rw [State.cell, State.withBlock_block, hb]; rfl)

/-! ### Where the table lets an instruction write -/

/-- Off the overlay, as a condition on the state (rule R128). -/
theorem overlayCovers_eq_false (s : State) (m : Snapshot) (a : Addr) :
    overlayCovers s.view m a = false ↔ s.Uncovered m a := by
  have hno : s.config.hasBootRom = false → s.config.bootSize ≤ a.toNat := by
    cases hb : s.config.bootRom <;>
      simp [Config.Cartridge.hasBootRom, Config.Cartridge.bootSize, hb]
  simp only [overlayCovers, booting, Bool.and_eq_false_iff, Bool.not_eq_false',
    decide_eq_false_iff_not, Nat.not_lt, within_iff]
  exact ⟨fun h => by tauto, fun h => by tauto⟩

/-- A row of the controller takes an address of its window that the overlay does not cover. -/
theorem cart_window {s : State} {m : Snapshot} {a : Addr} {lo hi : Nat} (hi' : hi ≤ 0x7FFF)
    (h : Table.cart s.view m a lo hi = true) :
    lo ≤ a.toNat ∧ a.toNat ≤ hi ∧ s.Uncovered m a := by
  obtain ⟨⟨hlo, hhi⟩, -, hov⟩ := (cart_iff _ _ _ _ _ hi').mp h
  exact ⟨hlo, hhi, (overlayCovers_eq_false s m a).mp hov⟩

theorem undoc_row {v : View} {m : Snapshot} {a : Addr} {r : Config.UndocReg}
    (h : Table.undoc v m a r = true) : a.toNat = r.addr ∧ m.isCGB = true := by
  simp only [Table.undoc, Bool.and_eq_true, row_iff] at h
  exact ⟨by omega, h.2⟩

theorem bootReg_row {v : View} {m : Snapshot} {a : Addr} (h : Table.bootReg v m a = true) :
    a.toNat = 0xFF50 ∧ m.bootingActive = true ∧ v.bootOff = false := by
  simp only [Table.bootReg, booting, Bool.and_eq_true, Bool.not_eq_true', row_iff] at h
  exact ⟨by omega, h.2⟩

theorem ie_row {v : View} {m : Snapshot} {a : Addr} (h : Table.ie v m a = true) :
    a.toNat = 0xFFFF := by
  simp only [Table.ie, row_iff] at h
  omega

/-! ### A presented transaction -/

/-- What a presented transaction did: one well-formed instruction of that transaction ran. -/
theorem exec_of_step_present {s t : State} {x : Transaction} (h : step (s.present x) = .next t) :
    ∃ i : Instr, exec i s = .next t ∧ i.wf s.view = true ∧ i.transaction = x := by
  rw [step_present, runTransaction] at h
  split at h
  · next i hi => exact ⟨i, h, wf_of_select _ _ _ hi⟩
  · exact absurd h (raiseFault_next _ _)

/-- A transaction that is no write leaves the block as it was (rules R28, R67, R301). -/
theorem step_block_of_not_wr {s t : State} {x : Transaction} (h : step (s.present x) = .next t)
    (hx : ∀ a v m, x ≠ .wr a v m) : t.block = s.block := by
  obtain ⟨i, he, -, rfl⟩ := exec_of_step_present h
  rw [block_of_exec he, blockAfter_of_not_wr s i hx]

section Write

variable {s : State} {i : Instr} {a : Addr} {v : Byte} {m : Snapshot}

theorem bankingMode_window (hw : i.wf s.view = true) (ht : i.transaction = .wr a v m)
    (h : (blockAfter s i).bankingMode ≠ s.block.bankingMode) :
    0x6000 ≤ a.toNat ∧ a.toNat ≤ 0x7FFF ∧ s.Uncovered m a := by
  obtain ⟨_, _, _, rfl⟩ := (blockAfter_bankingMode s i).resolve_left h
  cases ht
  exact cart_window (by omega) hw

theorem romBank_window (hw : i.wf s.view = true) (ht : i.transaction = .wr a v m)
    (h : (blockAfter s i).romBank ≠ s.block.romBank) :
    (0x2000 ≤ a.toNat ∧ a.toNat ≤ 0x3FFF
      ∨ 0x4000 ≤ a.toNat ∧ a.toNat ≤ 0x5FFF ∧ s.block.bankingMode = .rom16KRam8K)
    ∧ s.Uncovered m a := by
  obtain ⟨_, _, _, rfl⟩ | ⟨_, _, _, rfl⟩ := (blockAfter_romBank s i).resolve_left h <;> cases ht
  · obtain ⟨hlo, hhi, hu⟩ := cart_window (by omega) hw
    exact ⟨.inl ⟨hlo, hhi⟩, hu⟩
  · simp only [Instr.wf, Bool.and_eq_true, decide_eq_true_eq] at hw
    obtain ⟨hlo, hhi, hu⟩ := cart_window (by omega) hw.1
    exact ⟨.inr ⟨hlo, hhi, hw.2⟩, hu⟩

theorem ramBankSel_window (hw : i.wf s.view = true) (ht : i.transaction = .wr a v m)
    (h : (blockAfter s i).ramBankSel ≠ s.block.ramBankSel) :
    0x4000 ≤ a.toNat ∧ a.toNat ≤ 0x5FFF ∧ s.block.bankingMode = .rom4MRam32K
      ∧ s.Uncovered m a := by
  obtain ⟨_, _, _, rfl⟩ := (blockAfter_ramBankSel s i).resolve_left h
  cases ht
  simp only [Instr.wf, Bool.and_eq_true, decide_eq_true_eq] at hw
  obtain ⟨hlo, hhi, hu⟩ := cart_window (by omega) hw.1
  exact ⟨hlo, hhi, hw.2, hu⟩

theorem ramEnabled_window (hw : i.wf s.view = true) (ht : i.transaction = .wr a v m)
    (h : (blockAfter s i).ramEnabled ≠ s.block.ramEnabled) :
    a.toNat ≤ 0x1FFF ∧ s.Uncovered m a := by
  obtain ⟨_, _, _, rfl⟩ := (blockAfter_ramEnabled s i).resolve_left h
  cases ht
  exact (cart_window (by omega) hw).2

theorem bootOff_window (hw : i.wf s.view = true) (ht : i.transaction = .wr a v m)
    (h : (blockAfter s i).bootOff ≠ s.block.bootOff) :
    a.toNat = 0xFF50 ∧ m.bootingActive = true ∧ s.block.bootOff = false ∧ v.getLsbD 0 = true := by
  obtain ⟨-, _, _, _, rfl, hb⟩ := (blockAfter_bootOff s i).resolve_left h
  cases ht
  obtain ⟨ha, hm, hoff⟩ := bootReg_row hw
  exact ⟨ha, hm, hoff, hb⟩

theorem vbk_window (hw : i.wf s.view = true) (ht : i.transaction = .wr a v m)
    (h : (blockAfter s i).vbk ≠ s.block.vbk) : a = s.params.addrVramSel ∧ m.inCGBMode = true := by
  obtain ⟨_, _, _, rfl⟩ := (blockAfter_vbk s i).resolve_left h
  cases ht
  exact (cgbReg_iff s.view m a .vramSel).mp hw

theorem svbk_window (hw : i.wf s.view = true) (ht : i.transaction = .wr a v m)
    (h : (blockAfter s i).svbk ≠ s.block.svbk) : a = s.params.addrWramSel ∧ m.inCGBMode = true := by
  obtain ⟨_, _, _, rfl⟩ := (blockAfter_svbk s i).resolve_left h
  cases ht
  exact (cgbReg_iff s.view m a .wramSel).mp hw

theorem ie_window (hw : i.wf s.view = true) (ht : i.transaction = .wr a v m)
    (h : (blockAfter s i).ie ≠ s.block.ie) : a.toNat = 0xFFFF := by
  obtain ⟨_, _, _, rfl⟩ := (blockAfter_ie s i).resolve_left h
  cases ht
  exact ie_row hw

/-- `HDMA1` to `HDMA4` as registers of step 1 (rule R126). -/
def hdmaCgbReg : Config.HdmaReg → Config.CgbReg
  | .hdma1 => .hdma1
  | .hdma2 => .hdma2
  | .hdma3 => .hdma3
  | .hdma4 => .hdma4

theorem hdma_window (hw : i.wf s.view = true) (ht : i.transaction = .wr a v m)
    (n : Config.HdmaReg) (h : (blockAfter s i).hdma.get n ≠ s.block.hdma.get n) :
    a = s.params.addrOf (hdmaCgbReg n) ∧ m.inCGBMode = true := by
  obtain ⟨_, _, _, rfl⟩ := (blockAfter_hdma s i n).resolve_left h
  cases n <;> cases ht <;> exact (cgbReg_iff s.view m a _).mp hw

theorem undoc_window (hw : i.wf s.view = true) (ht : i.transaction = .wr a v m)
    (r : Config.UndocReg) (h : (blockAfter s i).undoc.get r ≠ s.block.undoc.get r) :
    a.toNat = r.addr ∧ m.isCGB = true := by
  obtain ⟨_, _, _, rfl⟩ := (blockAfter_undoc s i r).resolve_left h
  cases r <;> cases ht <;> exact undoc_row hw

theorem cell_window {t : State} (hw : i.wf s.view = true) (ht : i.transaction = .wr a v m)
    (he : exec i s = .next t) (x : RamArray) (k : Nat) (h : t.cell x k ≠ s.cell x k) :
    s.reaches m a = some (x, k) ∧ t.cell x k = v := by
  obtain ⟨hs, _, _, ht'⟩ := (cell_of_exec he x k).resolve_left h
  cases ht.symm.trans ht'
  exact ⟨reaches_of_storesTo s i (x, k) a _ m hw ht hs, rfl⟩

end Write

/-- Settles O57: the instruction a `WR` selects is the one whose table row takes the address, and
`blockAfter` says which of its fields that instruction changes. -/
theorem fieldsChangeOnlyInTheirWindows : Obligations.FieldsChangeOnlyInTheirWindows := by
  refine ⟨fun s t a m h => step_block_of_not_wr h nofun, fun s t n h => ?_,
    fun s t a v m h => ?_⟩
  · exact h.elim (step_block_of_not_wr · nofun) (step_block_of_not_wr · nofun)
  · obtain ⟨i, he, hw, ht⟩ := exec_of_step_present h
    rw [block_of_exec he]
    exact ⟨bankingMode_window hw ht, romBank_window hw ht, ramBankSel_window hw ht,
      ramEnabled_window hw ht, bootOff_window hw ht, vbk_window hw ht, svbk_window hw ht,
      hdma_window hw ht .hdma1, hdma_window hw ht .hdma2, hdma_window hw ht .hdma3,
      hdma_window hw ht .hdma4, undoc_window hw ht, ie_window hw ht, cell_window hw ht he⟩

/-! ### The registers of step 1, in and out of CGB mode -/

/-- In CGB mode a register of step 1 stands where the parameters put it (rule R8). -/
theorem resolve_addrOf {v : View} {m : Snapshot} (hv : v.params.Valid) (hg : m.inCGBMode = true)
    (r : Config.CgbReg) : resolve v m (v.params.addrOf r) = some (cgbRegion m r) :=
  resolve_cgbReg v m _ r hv ((cgbReg_iff v m _ r).mpr ⟨rfl, hg⟩)

/-- Out of CGB mode a register's address in the filler's range is filler: rule R8 keeps it apart from
the boot register and from the undocumented registers. -/
theorem resolve_addrOf_dmgMode {v : View} {m : Snapshot} (hv : v.params.Valid)
    (hg : m.inCGBMode = false) (r : Config.CgbReg)
    (h : 0xFF4C ≤ (v.params.addrOf r).toNat ∧ (v.params.addrOf r).toNat ≤ 0xFF7F) :
    resolve v m (v.params.addrOf r) = some (.empty1 ((v.params.addrOf r).toNat - 0xFF4C)) := by
  obtain ⟨hboot, hundoc, -⟩ := hv.2.1 r (mem_cgbRegs r)
  have hb : Table.bootReg v m (v.params.addrOf r) = false :=
    Bool.eq_false_iff.mpr fun hb => hboot (bootReg_row hb).1
  apply resolve_empty1
  simp only [Table.empty1, Bool.and_eq_true, Bool.not_eq_true', row_iff]
  exact ⟨⟨⟨h, cgbClaims_of_dmgMode v m _ hg⟩, hb⟩, by simp [hundoc]⟩

theorem default_valid : Config.Params.default.Valid := by decide

/-- Settles O6: `resolve_addrOf` at each of the thirteen registers, and rule R8's constraints out of
CGB mode. -/
theorem cgbRegistersOnlyInCgbMode : Obligations.CgbRegistersOnlyInCgbMode := by
  refine ⟨?_, ?_⟩
  · rintro v m _ rfl hv
    refine ⟨fun hg => ?_, ?_⟩
    · have h := resolve_addrOf hv hg
      exact ⟨h .speed, h .vramSel, h .hdma1, h .hdma2, h .hdma3, h .hdma4, h .hdma5, h .infrared,
        h .bgpi, h .obpi, h .wramSel, h .bgpd, h .obpd⟩
    · rintro hg r _ rfl hlo hhi
      exact resolve_addrOf_dmgMode hv hg r ⟨hlo, hhi⟩
  · rintro _ rfl
    exact ⟨default_valid, fun r => by cases r <;> decide, rfl, rfl, rfl, rfl, rfl, rfl, rfl, rfl, rfl,
      rfl, rfl, rfl, rfl⟩

/-! ### Reset -/

/-- No bank is enabled after reset (rule R50). -/
theorem ramFlag_reset (ramBanks : Nat) (init : Rams) (save : Option (List Byte)) (k : Nat) :
    (Block.reset ramBanks init save).ramFlag k = false := by
  unfold Block.ramFlag Block.reset
  rw [List.getElem?_replicate]
  split <;> rfl

/-- Settles O15: `Block.reset` field by field; of the enable flags there are `RAM_BANKS`, none set. -/
theorem registersAfterReset : Obligations.RegistersAfterReset := by
  refine ⟨?_, ?_⟩
  · rintro p c init save _ rfl
    exact ⟨rfl, rfl, rfl, List.length_replicate, ramFlag_reset c.ramBanks init save, rfl, rfl, rfl,
      fun n => by cases n <;> rfl, fun r => by cases r <;> rfl, rfl⟩
  · rintro _ rfl
    exact ⟨rfl, rfl, rfl, rfl, rfl, rfl, rfl, rfl, rfl, rfl, rfl, rfl, rfl, rfl⟩

/-! ### The sentinel -/

/-- The sentinel's rows of the table, in words (rules R125, R127, R130, R131, R136). -/
theorem unacc_row_iff (s : State) (m : Snapshot) (a : Addr) :
    Table.unacc s.view m a = true ↔
      (m.inCGBMode = true ∧ m.videoMode = .mode3 ∧ (a = s.params.addrBgpd ∨ a = s.params.addrObpd))
      ∨ s.params.Free m a ∧
        ((m.videoMode = .mode3 ∧ 0x8000 ≤ a.toNat ∧ a.toNat ≤ 0x9FFF)
        ∨ ((s.config.ramBanks ≤ s.block.ramBankSel.toNat
            ∨ s.block.ramFlag s.block.ramBankSel.toNat = false)
          ∧ 0xA000 ≤ a.toNat ∧ a.toNat ≤ 0xBFFF)
        ∨ ((m.videoMode = .mode2 ∨ m.videoMode = .mode3) ∧ 0xFE00 ≤ a.toNat ∧ a.toNat ≤ 0xFE9F)) := by
  have hfree : Table.cgbClaims s.view m a = false ↔ s.params.Free m a :=
    cgbClaims_false_iff s.view m a
  have hbgpd : Table.cgbReg s.view m a .bgpd = true ↔ a = s.params.addrBgpd ∧ m.inCGBMode = true :=
    cgbReg_iff s.view m a .bgpd
  have hobpd : Table.cgbReg s.view m a .obpd = true ↔ a = s.params.addrObpd ∧ m.inCGBMode = true :=
    cgbReg_iff s.view m a .obpd
  have hshut : Table.extRamOpen s.view = false ↔ s.config.ramBanks ≤ s.block.ramBankSel.toNat
      ∨ s.block.ramFlag s.block.ramBankSel.toNat = false := extRamOpen_eq_false s.view
  simp only [Table.unacc, Bool.or_eq_true, Bool.and_eq_true, Bool.not_eq_true', decide_eq_true_eq,
    row_iff, hfree, hbgpd, hobpd, hshut]
  constructor
  · rintro (((⟨h | h, hv⟩ | ⟨⟨h, hf⟩, hv⟩) | ⟨⟨h, hf⟩, hs⟩) | ⟨⟨h, hf⟩, hv⟩)
    · exact .inl ⟨h.2, hv, .inl h.1⟩
    · exact .inl ⟨h.2, hv, .inr h.1⟩
    · exact .inr ⟨hf, .inl ⟨hv, h⟩⟩
    · exact .inr ⟨hf, .inr (.inl ⟨hs, h⟩)⟩
    · exact .inr ⟨hf, .inr (.inr ⟨hv, h⟩)⟩
  · rintro (⟨hg, hv, h | h⟩ | ⟨hf, ⟨hv, h⟩ | ⟨hs, h⟩ | ⟨hv, h⟩⟩)
    · exact .inl (.inl (.inl ⟨.inl ⟨h, hg⟩, hv⟩))
    · exact .inl (.inl (.inl ⟨.inr ⟨h, hg⟩, hv⟩))
    · exact .inl (.inl (.inr ⟨⟨h, hf⟩, hv⟩))
    · exact .inl (.inr ⟨⟨h, hf⟩, hs⟩)
    · exact .inr ⟨⟨h, hf⟩, hv⟩

/-- Settles O29: the sentinel is resolved to exactly under its table rows; its two instructions are a
constant read and a discarded write. -/
theorem lockedAccess : Obligations.LockedAccess := by
  intro s a v m hv
  refine ⟨?_, fun h => ⟨select_rd s.view m a _ h, select_wr s.view m a v _ h⟩, rfl, rfl⟩
  rw [← unacc_row_iff]
  exact ⟨resolve_inv s.view m a .unacc, resolve_unacc s.view m a fun _ => hv⟩

/-! ### The fold of `0xFEA0-0xFEFF` -/

/-- Rule R103's fold of a bus address: the address itself below `0xFEC0`, the fold above it. -/
theorem empty0Fold_empty0Off (period : Nat) (a : Addr) (h : 0xFEA0 ≤ a.toNat) :
    empty0Fold period (empty0Off a) =
      if a.toNat < 0xFEC0 then a.toNat - 0xFEA0 else 0x20 + (a.toNat - 0xFEC0) % period := by
  unfold empty0Fold empty0Off
  by_cases hlow : a.toNat < 0xFEC0
  · rw [if_pos hlow, if_pos (by omega)]
  · rw [if_neg hlow, if_neg (by omega), Nat.sub_sub, Nat.add_comm]

/-- Settles O37: the window's row selects the two instructions, and each reaches the folded cell. -/
theorem emptyRegionCgb : Obligations.EmptyRegionCgb := by
  intro s a v m k hv hcgb hlo hhi hfree hk
  have hrow : Table.empty0c s.view m a = true := by
    rw [Table.empty0c, Bool.and_eq_true, row_iff]
    exact ⟨⟨⟨hlo, hhi⟩, (cgbClaims_false_iff s.view m a).mpr hfree⟩, hcgb⟩
  have hres := resolve_empty0c s.view m a hrow
  rw [hk, ← empty0Fold_empty0Off _ a hlo]
  have hlt := empty0Fold_lt s.params hv (empty0Off a) s.config.ramBanks
  refine ⟨select_rd s.view m a _ hres, ?_, select_wr s.view m a v _ hres, _, ?_,
    setCell_storedOnly s .empty0 _ v⟩
  · rw [exec, execRdEmpty0C, readCell_of_lt _ _ _ _ hlt]
  · rw [exec, execWrEmpty0C, writeCell_of_lt _ _ _ _ _ hlt]

/-! ### The boot register and the undocumented registers -/

/-- No register of step 1 stands at `0xFF50` or at an undocumented register (rule R8). -/
theorem not_cgbClaims {v : View} (hv : v.params.Valid) (m : Snapshot) {a : Addr}
    (h : a.toNat = 0xFF50 ∨ a.toNat ∈ Config.undocRegisters) : Table.cgbClaims v m a = false :=
  (cgbClaims_false_iff v m a).mpr fun _ =>
    not_mem_cgbAddrs v.params hv a (h.imp_right .inl)

/-- `0xFF50` is the boot register while booting, else filler (rules R121, R140, R142). -/
theorem resolve_ff50 {v : View} (hv : v.params.Valid) (m : Snapshot) :
    resolve v m 0xFF50 =
      some (if m.bootingActive = true ∧ v.bootOff = false then .bootReg else .empty1 4) := by
  rw [resolve_upperIo v m _ (by decide) (not_cgbClaims hv m (.inl rfl)), resolveUpperIo,
    show isAt 0xFF50 0xFF50 = true from rfl, show undocAt 0xFF50 = none from rfl, booting]
  cases m.bootingActive <;> cases v.bootOff <;> cases m.isCGB <;> rfl

/-- Settles O41: `resolve_ff50` gives the instruction; both reads answer a constant of the
parameters or of rule R188. -/
theorem bootRegisterRead : Obligations.BootRegisterRead := by
  intro s m hv
  refine ⟨?_, rfl, rfl⟩
  rw [select_rd s.view m _ _ (resolve_ff50 hv m)]
  change some (readInstr 0xFF50 m
    (if m.bootingActive = true ∧ s.block.bootOff = false then .bootReg else .empty1 4)) = _
  split <;> rfl

/-- On CGB hardware an undocumented register is at its address (rule R141). -/
theorem resolve_undocRegister {v : View} {m : Snapshot} (hv : v.params.Valid) (hcgb : m.isCGB = true)
    (r : Config.UndocReg) : resolve v m (BitVec.ofNat 16 r.addr) = some (.undoc r) := by
  have ha : (BitVec.ofNat 16 r.addr).toNat = r.addr := by cases r <;> rfl
  have hmem : r.addr ∈ Config.undocRegisters := by cases r <;> decide
  apply resolve_undoc
  rw [Table.undoc, Bool.and_eq_true, row_iff, ha]
  exact ⟨⟨⟨le_rfl, le_rfl⟩, not_cgbClaims hv m (.inr (ha.symm ▸ hmem))⟩, hcgb⟩

/-- Settles O44: `resolve_undocRegister` at each of the seven registers; their meanings are one
masked read and one stored byte. -/
theorem undocumentedRegisters : Obligations.UndocumentedRegisters := by
  intro s v m hv hcgb
  have hrd (r) := select_rd s.view m _ _ (resolve_undocRegister hv hcgb r)
  have hwr (r) := select_wr s.view m _ v _ (resolve_undocRegister hv hcgb r)
  exact ⟨⟨hrd .ff6c, rfl, hwr .ff6c, rfl⟩, ⟨hrd .ff72, rfl, hwr .ff72, rfl⟩,
    ⟨hrd .ff73, rfl, hwr .ff73, rfl⟩, ⟨hrd .ff74, rfl, hwr .ff74, rfl⟩,
    ⟨hrd .ff75, rfl, hwr .ff75, rfl⟩, hrd .ff76, hrd .ff77, hwr .ff76, hwr .ff77⟩

/-! ### The bank selects -/

/-- With the default masks the bits outside the field read as `1` (rule R198, decision D6). -/
theorem vramSelReadBack_default_toNat (x : BitVec 1) :
    (vramSelReadBack Config.Params.default x).toNat = 0xFE + x.toNat := by
  revert x; decide

theorem wramSelReadBack_default_toNat (x : BitVec 3) :
    (wramSelReadBack Config.Params.default x).toNat = 0xF8 + x.toNat := by
  revert x; decide

/-- Settles O47: `resolve_addrOf` at the two registers; the fields kept are `vbkField` and
`svbkField`, the bytes read back the two masked ones. -/
theorem bankSelectRegisters : Obligations.BankSelectRegisters := by
  rintro s v m _ _ hv hg rfl rfl
  have hvram := resolve_addrOf (v := s.view) hv hg .vramSel
  have hwram := resolve_addrOf (v := s.view) hv hg .wramSel
  refine ⟨vbkField v, svbkField v, vramSelReadBack s.params s.block.vbk,
    wramSelReadBack s.params s.block.svbk, vbkField_toNat v, svbkField_toNat v, rfl, rfl, ?_,
    select_rd _ _ _ _ hvram, rfl, select_wr _ _ _ _ _ hvram, rfl, select_rd _ _ _ _ hwram, rfl,
    select_wr _ _ _ _ _ hwram, rfl⟩
  intro hdefault
  rw [hdefault]
  exact ⟨vramSelReadBack_default_toNat _, wramSelReadBack_default_toNat _⟩

end Sys2Proof.Machine

/-! PROOFS. The block's state: what an instruction leaves alone, the invariant, the port's reads and
writes by region, RAM through the port, reads that leave no trace, the boot latch. -/

namespace Sys2Proof.Machine

/-! ### The frame of an instruction -/

/-- No instruction changes the parameters, the configuration or what is presented (rule R45). -/
theorem exec_frame {s t : State} {i : Instr} (h : exec i s = .next t) :
    t.params = s.params ∧ t.config = s.config ∧ t.inputs = s.inputs := by
  obtain ⟨b, rfl⟩ | rfl | ⟨leaf, a, rfl⟩ | ⟨leaf, a, v, rfl⟩ | ⟨n, rfl⟩ | ⟨n, rfl⟩
    | ⟨x, k, v, -, -, -, rfl⟩ | ⟨-, b, -, rfl⟩ := exec_effect s t i h
  all_goals exact ⟨rfl, rfl, rfl⟩

/-- The enable flags of the other banks stay (rules R24, R231). -/
theorem ramFlag_ramEnWrite_other {b : Block} {k : Nat} (n : Nat) (v : Byte)
    (hk : k ≠ b.ramBankSel.toNat) : (b.ramEnWrite n v).ramFlag k = b.ramFlag k := by
  unfold Block.ramFlag
  rw [Block.ramEnWrite_ramEnabled]
  split
  · rw [List.getElem?_set_ne hk.symm]
  · rfl

theorem blockAfter_ramFlag_other {s : State} {k : Nat} (i : Instr)
    (hk : k ≠ s.block.ramBankSel.toNat) : (blockAfter s i).ramFlag k = s.block.ramFlag k := by
  obtain h | ⟨a, v, m, rfl⟩ := blockAfter_ramEnabled s i
  · rw [Block.ramFlag, h, Block.ramFlag]
  · exact ramFlag_ramEnWrite_other s.config.ramBanks v hk

/-- Once set the latch stays set (rules R29, R184). -/
theorem bootOff_of_exec {s t : State} {i : Instr} (hb : s.block.bootOff = true)
    (h : exec i s = .next t) : t.block.bootOff = true := by
  rw [block_of_exec h]
  obtain hi | ⟨hi, -⟩ := blockAfter_bootOff s i
  · rw [hi, hb]
  · exact hi

/-- Settles O55: `cell_of_exec` says which cell can read otherwise. -/
theorem memoryFrame : Obligations.MemoryFrame := by
  intro s t i h x k hne
  exact (cell_of_exec h x k).resolve_right fun hs => hne hs.1

/-- Settles O56: `exec_frame` outside the block, and in it one lemma on `blockAfter` per
register. -/
theorem registerFrame : Obligations.RegisterFrame := by
  intro s t i h
  obtain ⟨hparams, hconfig, hinputs⟩ := exec_frame h
  refine ⟨hparams, hconfig, hinputs, ?_⟩
  rw [block_of_exec h]
  have hboot : (blockAfter s i).bootOff = s.block.bootOff
      ∨ (blockAfter s i).bootOff = true ∧ ∃ a v m, i = .wrBootReg a v m :=
    (blockAfter_bootOff s i).imp_right fun ⟨hset, a, v, m, hi, _⟩ => ⟨hset, a, v, m, hi⟩
  exact ⟨blockAfter_bankingMode s i, blockAfter_romBank s i, blockAfter_ramBankSel s i,
    blockAfter_ramEnabled s i, fun b => blockAfter_ramFlag_other i, hboot, blockAfter_vbk s i,
    blockAfter_svbk s i, blockAfter_hdma s i .hdma1, blockAfter_hdma s i .hdma2,
    blockAfter_hdma s i .hdma3, blockAfter_hdma s i .hdma4, blockAfter_undoc s i .ff6c,
    blockAfter_undoc s i .ff72, blockAfter_undoc s i .ff73, blockAfter_undoc s i .ff74,
    blockAfter_undoc s i .ff75, blockAfter_undoc s i .ff76, blockAfter_undoc s i .ff77,
    blockAfter_ie s i⟩

/-! ### The invariant -/

theorem ramEnWrite_ramEnabled_length (b : Block) (n : Nat) (v : Byte) :
    (b.ramEnWrite n v).ramEnabled.length = b.ramEnabled.length := by
  rw [Block.ramEnWrite_ramEnabled]
  split
  · exact List.length_set
  · rfl

theorem blockAfter_ramEnabled_length (s : State) (i : Instr) :
    (blockAfter s i).ramEnabled.length = s.block.ramEnabled.length := by
  obtain h | ⟨a, v, m, rfl⟩ := blockAfter_ramEnabled s i
  · rw [h]
  · exact ramEnWrite_ramEnabled_length s.block s.config.ramBanks v

/-- The low field is put beside the two high bits (rules R96, R99, R232). -/
theorem romLoWrite_toNat (b : Block) (v : Byte) :
    (b.romLoWrite v).romBank.toNat = b.romBank.toNat / 32 * 32 + (lo5 v).toNat := by
  rw [Block.romLoWrite_romBank, BitVec.toNat_or, romBank_high_toNat, or_beside _ _ (lo5_lt v)]

/-- The two high bits are put beside the low field (rules R97, R99, R233). -/
theorem bankHiRomWrite_toNat (b : Block) (v : Byte) :
    (b.bankHiRomWrite v).romBank.toNat = v.toNat % 4 * 32 + b.romBank.toNat % 32 := by
  rw [Block.bankHiRomWrite_romBank, BitVec.toNat_or, romBank_low_toNat, hi2_toNat, Nat.or_comm,
    or_beside _ _ (Nat.mod_lt _ (by omega))]

/-- No instruction makes `romBank[4:0]` zero: `lo5` is never zero and the high bits leave the field
alone (rule R25). -/
theorem blockAfter_romBank_low {s : State} (i : Instr) (h : s.block.romBank.toNat % 32 ≠ 0) :
    (blockAfter s i).romBank.toNat % 32 ≠ 0 := by
  obtain hi | ⟨a, v, m, rfl⟩ | ⟨a, v, m, rfl⟩ := blockAfter_romBank s i
  · rw [hi]
    exact h
  · have hlow : (lo5 v).toNat ≠ 0 := by
      rw [lo5_toNat]
      split <;> omega
    have hlt := lo5_lt v
    rw [blockAfter, romLoWrite_toNat]
    omega
  · rw [blockAfter, bankHiRomWrite_toNat]
    omega

/-- A store is within its array's bounds, so the arrays stay good. -/
theorem rams_good_of_exec {s t : State} {i : Instr} (h : exec i s = .next t)
    (hg : s.block.rams.Good s.config.ramBanks) : t.block.rams.Good s.config.ramBanks := by
  obtain ⟨b, rfl⟩ | rfl | ⟨leaf, a, rfl⟩ | ⟨leaf, a, v, rfl⟩ | ⟨n, rfl⟩ | ⟨n, rfl⟩
    | ⟨x, k, v, -, hk, -, rfl⟩ | ⟨-, b, hb, rfl⟩ := exec_effect s t i h
  iterate 6
    · exact hg
  · exact Rams.set_write_good s.config.ramBanks s.block.rams x k v hk hg
  · rw [State.withBlock_block, hb]
    exact hg

theorem exec_keeps_inv {s t : State} {i : Instr} (h : exec i s = .next t) (hs : s.Inv) : t.Inv := by
  obtain ⟨hgood, hlen, hlow⟩ := hs
  unfold State.Inv
  rw [(exec_frame h).2.1]
  refine ⟨rams_good_of_exec h hgood, ?_, ?_⟩
  · rw [block_of_exec h, blockAfter_ramEnabled_length, hlen]
  · rw [block_of_exec h]
    exact blockAfter_romBank_low i hlow

theorem taken_inv {s : State} (h : s.Inv) : s.taken.Inv := h

theorem resetOf_inv (p : Config.Params) (c : Config.Cartridge) (init : Rams)
    (save : Option (List Byte)) : (State.resetOf p c init save).Inv :=
  ⟨Rams.atReset_good c.ramBanks init save, List.length_replicate,
    show (1 : BitVec 7).toNat % 32 ≠ 0 by decide⟩

/-- What a step did: it waited, it ran an instruction on the state with the input taken, or it
replaced the block (rules R62, R63, R266, R268). -/
theorem step_cases {s t : State} (h : step s = .next t) :
    (s.inputs = [] ∧ t = s) ∨ (∃ i, exec i s.taken = .next t)
      ∨ ∃ c init save, .replace c init save ∈ s.inputs ∧ t = s.taken.replace c init save := by
  unfold step at h
  split at h
  · next hin => exact .inl ⟨hin, by simpa [eq_comm] using h⟩
  · next x rest hin =>
    unfold runTransaction at h
    split at h
    · next i hi => exact .inr (.inl ⟨i, h⟩)
    · exact absurd h (raiseFault_next _ _)
  · next c init save rest hin =>
    refine .inr (.inr ⟨c, init, save, ?_, by simpa [eq_comm] using h⟩)
    rw [hin]
    exact List.mem_cons_self

/-- Settles O13: a step waits, runs an instruction, which keeps the invariant, or replaces the
block, and a new block meets it. -/
theorem stepKeepsInvariant : Obligations.StepKeepsInvariant := by
  intro s t h
  obtain ⟨-, rfl⟩ | ⟨i, hi⟩ | ⟨c, init, save, -, rfl⟩ := step_cases h
  · exact ⟨id, rfl⟩
  · exact ⟨fun hs => exec_keeps_inv hi (taken_inv hs), (exec_frame hi).1⟩
  · exact ⟨fun _ => resetOf_inv s.params c init save, rfl⟩

/-- Settles O14: `resetOf_inv`, and the default parameters are allowed. -/
theorem resetMeetsInvariant : Obligations.ResetMeetsInvariant :=
  ⟨fun p c init save => ⟨resetOf_inv p c init save, rfl⟩, resetOf_inv _ _ _ _, default_valid⟩

/-- The bank's flag alone is written (rule R231). -/
theorem ramEnWrite_eq (b : Block) (n : Nat) (v : Byte) :
    b.ramEnWrite n v = { b with ramEnabled := (b.ramEnWrite n v).ramEnabled } := by
  unfold Block.ramEnWrite
  split <;> rfl

theorem ramEnWrite_ramEnabled_getElem? {b : Block} {n k : Nat} (v : Byte)
    (hlen : b.ramEnabled.length = n) (hk : k < n) :
    (b.ramEnWrite n v).ramEnabled[k]? =
      if k = b.ramBankSel.toNat then some (ramEnablePred v) else b.ramEnabled[k]? := by
  rw [Block.ramEnWrite_ramEnabled]
  by_cases hsel : k = b.ramBankSel.toNat
  · subst hsel
    rw [if_pos hk, if_pos rfl, List.getElem?_set_self (hlen ▸ hk)]
  · rw [if_neg hsel]
    split
    · exact List.getElem?_set_ne (Ne.symm hsel)
    · rfl

/-- Settles O23: the flags `WR.RAMEN` leaves are those of `Block.ramEnWrite`. -/
theorem ramEnableWrite : Obligations.RamEnableWrite := by
  intro s a v m hlen
  refine ⟨(s.block.ramEnWrite s.config.ramBanks v).ramEnabled, ?_, ?_, fun b hb => ?_⟩
  · exact congrArg (fun b => Host.Outcome.next (s.withBlock b)) (ramEnWrite_eq _ _ _)
  · rw [ramEnWrite_ramEnabled_length, hlen]
  · rw [ramEnWrite_ramEnabled_getElem? v hlen hb, ramEnablePred_eq]

/-! ### The port by region -/

theorem mbc1Read_rom0 {a : Addr} (s : State) (h : a.toNat ≤ 0x3FFF) :
    mbc1Read a s = romByte s.config (rom0Phys a) :=
  if_pos ((within_iff a 0 0x3FFF).mpr ⟨Nat.zero_le _, h⟩)

theorem mbc1Read_romX {a : Addr} (s : State) (h : 0x4000 ≤ a.toNat ∧ a.toNat ≤ 0x7FFF) :
    mbc1Read a s = romXByte s.config s.block.romBank a := by
  simp only [mbc1Read, within_iff]
  rw [if_neg (by omega), if_pos h]

theorem readInstr_wramX {bank : Nat} (a : Addr) (m : Snapshot) (off : Nat) (h : bank ≠ 0) :
    readInstr a m (.wram bank off) = .rdWramX a m := if_neg h

theorem writeInstr_wramX {bank : Nat} (v : View) (a : Addr) (w : Byte) (m : Snapshot) (off : Nat)
    (h : bank ≠ 0) : writeInstr v a w m (.wram bank off) = .wrWramX a w m := if_neg h

/-- The `RD` instruction of a region that takes the address is that region's read (rule R62). -/
theorem exec_readInstr {s : State} {m : Snapshot} {a : Addr} {r : Region} (h : r.rule s.view m a) :
    exec (readInstr a m r) s = regionRead r a s := by
  cases r with
  | bootRom off | empty0c off | ioPort index | oam off | iram off | wave off | hram off =>
    rw [h.2]
    rfl
  | vram bank off | extRam bank off =>
    rw [h.2.1, h.2.2]
    rfl
  | wram bank off =>
    obtain ⟨rfl, ⟨-, rfl⟩ | ⟨-, rfl⟩⟩ := h
    · rfl
    · rw [readInstr_wramX a m _ (wramBank_ne_zero _)]
      rfl
  | cart off =>
    obtain ⟨⟨-, hhi⟩, -⟩ := (cart_iff _ _ _ _ _ le_rfl).mp h.1
    rw [regionRead]
    by_cases hlow : a.toNat ≤ 0x3FFF
    · rw [readInstr_rom0 a m off hlow, mbc1Read_rom0 s hlow]
      rfl
    · rw [readInstr_romX a m off (by omega), mbc1Read_romX s (by omega)]
      rfl
  | undoc u => cases u <;> rfl
  | hdma n => cases n <;> rfl
  | _ => rfl

/-- The `WR` instruction of a region that takes the address is that region's write (rule R63). -/
theorem exec_writeInstr {s : State} {m : Snapshot} {a : Addr} {r : Region} (v : Byte)
    (h : r.rule s.view m a) : exec (writeInstr s.view a v m r) s = regionWrite r a v s := by
  cases r with
  | empty0c off | ioPort index | oam off | iram off | wave off | hram off =>
    rw [h.2]
    rfl
  | vram bank off | extRam bank off =>
    rw [h.2.1, h.2.2]
    rfl
  | wram bank off =>
    obtain ⟨rfl, ⟨-, rfl⟩ | ⟨-, rfl⟩⟩ := h
    · rfl
    · rw [writeInstr_wramX _ a v m _ (wramBank_ne_zero _)]
      rfl
  | cart off =>
    obtain ⟨⟨-, hhi⟩, -⟩ := (cart_iff _ _ _ _ _ le_rfl).mp h.1
    simp only [writeInstr, regionWrite, mbc1Write]
    by_cases hramEn : within a 0x0000 0x1FFF
    · rw [if_pos hramEn, if_pos hramEn]
      rfl
    rw [if_neg hramEn, if_neg hramEn]
    by_cases hromLo : within a 0x2000 0x3FFF
    · rw [if_pos hromLo, if_pos hromLo]
      rfl
    rw [if_neg hromLo, if_neg hromLo]
    by_cases hbankHi : within a 0x4000 0x5FFF
    · have hmode : s.view.bankingMode = s.block.bankingMode := rfl
      rw [if_pos hbankHi, if_pos hbankHi, hmode]
      cases s.block.bankingMode <;> rfl
    · rw [if_neg hbankHi, if_neg hbankHi]
      have haccepts : mbc1Accepts a = true := (within_iff a 0 0x7FFF).mpr ⟨Nat.zero_le _, hhi⟩
      rw [if_pos haccepts]
      rfl
  | undoc u => cases u <;> rfl
  | hdma n => cases n <;> rfl
  | _ => rfl

theorem step_rd {s : State} {m : Snapshot} {a : Addr} {r : Region}
    (h : resolve s.view m a = some r) : step (s.present (.rd a m)) = regionRead r a s := by
  rw [step_present, runTransaction_of_select s _ _ (select_rd s.view m a r h),
    exec_readInstr (resolve_inv s.view m a r h)]

theorem step_wr {s : State} {m : Snapshot} {a : Addr} {r : Region} (v : Byte)
    (h : resolve s.view m a = some r) : step (s.present (.wr a v m)) = regionWrite r a v s := by
  rw [step_present, runTransaction_of_select s _ _ (select_wr s.view m a v r h),
    exec_writeInstr v (resolve_inv s.view m a r h)]

/-- The read of a region that takes the address completes (rules R146, R268). -/
theorem regionRead_completes {s : State} {m : Snapshot} {a : Addr} {r : Region}
    (hv : s.params.Valid) (h : resolve s.view m a = some r) : ∃ t, regionRead r a s = .next t := by
  have hrule := resolve_inv s.view m a r h
  rw [← exec_readInstr hrule]
  exact exec_completes s hv _ (readInstr_wf s.view m a r hrule)

/-! ### RAM through the port -/

theorem regionRead_of_cell {s : State} {r : Region} {x : RamArray} {k : Nat} (a : Addr)
    (h : r.cell s.params = some (x, k)) : regionRead r a s = readCell x k a s := by
  cases r <;> cases h <;> rfl

theorem regionWrite_of_cell {s : State} {r : Region} {x : RamArray} {k : Nat} (a : Addr) (v : Byte)
    (h : r.cell s.params = some (x, k)) : regionWrite r a v s = writeCell x k a v s := by
  cases r <;> cases h <;> rfl

/-- The four facts of an address of RAM: its `RD` instruction returns the cell's byte, its `WR`
instruction stores the cell's byte and nothing else (rules R49, R62, R63). -/
theorem ram_access {s : State} {m : Snapshot} {a : Addr} {r : Region} {x : RamArray} {k : Nat}
    (v : Byte) (hr : resolve s.view m a = some r) (hcell : r.cell s.params = some (x, k))
    (hk : k < x.size s.config.ramBanks) :
    select s.view (.rd a m) = some (readInstr a m r)
    ∧ exec (readInstr a m r) s = .next (s.returning (s.cell x k))
    ∧ select s.view (.wr a v m) = some (writeInstr s.view a v m r)
    ∧ ∃ t, exec (writeInstr s.view a v m r) s = .next t ∧ StoredOnly s t x k v := by
  have hrule := resolve_inv s.view m a r hr
  refine ⟨select_rd s.view m a r hr, ?_, select_wr s.view m a v r hr, s.setCell x k v, ?_,
    setCell_storedOnly s x k v⟩
  · rw [exec_readInstr hrule, regionRead_of_cell a hcell, readCell_of_lt x k a s hk]
  · rw [exec_writeInstr v hrule, regionWrite_of_cell a v hcell, writeCell_of_lt x k a v s hk]

/-- What it is to reach a cell. -/
theorem region_of_reaches {s : State} {m : Snapshot} {a : Addr} {c : RamArray × Nat}
    (h : s.reaches m a = some c) :
    ∃ r, resolve s.view m a = some r ∧ r.cell s.params = some c :=
  Option.bind_eq_some_iff.mp h

/-- A cell that an address reaches exists (rule R147). -/
theorem reaches_lt {s : State} {m : Snapshot} {a : Addr} {x : RamArray} {k : Nat}
    (hv : s.params.Valid) (h : s.reaches m a = some (x, k)) : k < x.size s.config.ramBanks := by
  obtain ⟨r, hr, hcell⟩ := region_of_reaches h
  obtain ⟨t, ht⟩ := regionRead_completes hv hr
  rw [regionRead_of_cell a hcell, readCell_next] at ht
  exact ht.1

theorem step_rd_of_reaches {s : State} {m : Snapshot} {a : Addr} {x : RamArray} {k : Nat}
    (hv : s.params.Valid) (h : s.reaches m a = some (x, k)) :
    step (s.present (.rd a m)) = .next (s.returning (s.cell x k)) := by
  obtain ⟨r, hr, hcell⟩ := region_of_reaches h
  rw [step_rd hr, regionRead_of_cell a hcell, readCell_of_lt x k a s (reaches_lt hv h)]

theorem step_wr_of_reaches {s : State} {m : Snapshot} {a : Addr} {x : RamArray} {k : Nat} (v : Byte)
    (hv : s.params.Valid) (h : s.reaches m a = some (x, k)) :
    step (s.present (.wr a v m)) = .next (s.setCell x k v) := by
  obtain ⟨r, hr, hcell⟩ := region_of_reaches h
  rw [step_wr v hr, regionWrite_of_cell a v hcell, writeCell_of_lt x k a v s (reaches_lt hv h)]

/-- Which cell an address reaches does not depend on what the cells hold (rule R75). -/
theorem setCell_reaches (s : State) (m : Snapshot) (a : Addr) (x : RamArray) (k : Nat) (v : Byte) :
    (s.setCell x k v).reaches m a = s.reaches m a := by
  rw [State.reaches, State.setCell_view, State.setCell_params, State.reaches]

/-- Settles O58: the write stores its cell alone and moves no address to another cell, so the read
follows `State.cell_setCell`. -/
theorem readReturnsLastWrite : Obligations.ReadReturnsLastWrite := by
  rintro s a b v m m' ⟨x, k⟩ ⟨y, j⟩ hv ha hb
  refine ⟨s.setCell x k v, step_wr_of_reaches v hv ha, ?_⟩
  have hb' : (s.setCell x k v).reaches m' b = some (y, j) := by rw [setCell_reaches, hb]
  rw [step_rd_of_reaches (s := s.setCell x k v) hv hb', State.cell_setCell]
  simp only [Prod.mk.injEq]

/-- Settles O33: out of CGB mode one row of the table takes the whole window, at thirteen bits of
the address. -/
theorem flatWorkRam : Obligations.FlatWorkRam := by
  intro s a v m k hg hlo hhi hk
  have hrow : Table.iram s.view m a = true := by
    simp only [Table.iram, Bool.and_eq_true, Bool.or_eq_true, row_iff, Bool.not_eq_true',
      ← or_and_right]
    exact ⟨⟨by omega, cgbClaims_of_dmgMode s.view m a hg⟩, hg⟩
  have hoff : k = a.toNat % 0x2000 := by split at hk <;> omega
  rw [hoff]
  exact ram_access v (resolve_iram s.view m a hrow) rfl (iramOff_lt a s.config.ramBanks)

/-- Settles O34: the two rows of banked work RAM, each at twelve bits of the address. -/
theorem bankedWorkRam : Obligations.BankedWorkRam := by
  intro s a v m bank k hg hfree hbank
  have hclaims : Table.cgbClaims s.view m a = false := (cgbClaims_false_iff s.view m a).mpr hfree
  refine ⟨fun h => ?_, fun h => ?_⟩
  · have hrow : Table.wram0 s.view m a = true := by
      simp only [Table.wram0, Bool.and_eq_true, Bool.or_eq_true, row_iff, ← or_and_right]
      exact ⟨⟨by omega, hclaims⟩, hg⟩
    have hoff : k = 0 * 0x1000 + a.toNat % 0x1000 := by omega
    rw [hoff]
    exact ram_access v (resolve_wram0 s.view m a hrow) rfl
      (wramPhys_lt 0 a (by omega) s.config.ramBanks)
  · have hrow : Table.wramX s.view m a = true := by
      simp only [Table.wramX, Bool.and_eq_true, Bool.or_eq_true, row_iff, ← or_and_right]
      exact ⟨⟨by omega, hclaims⟩, hg⟩
    have hne := wramBank_ne_zero s.block.svbk
    have hoff : k = wramBank s.block.svbk * 0x1000 + a.toNat % 0x1000 := by
      rw [wramBank, ← hbank]
      omega
    rw [hoff, ← readInstr_wramX a m (a.toNat % 0x1000) hne,
      ← writeInstr_wramX s.view a v m (a.toNat % 0x1000) hne]
    exact ram_access v (resolve_wramX s.view m a hrow) rfl
      (wramPhys_lt _ a (wramBank_le s.block.svbk) s.config.ramBanks)

/-- Settles O35: the row of the sprite table, open in `Mode0` and `Mode1`. -/
theorem spriteTable : Obligations.SpriteTable := by
  intro s a v m hmode hlo hhi hfree
  have hrow : Table.oam s.view m a = true := by
    simp only [Table.oam, Bool.and_eq_true, Bool.or_eq_true, row_iff, decide_eq_true_eq]
    exact ⟨⟨⟨hlo, hhi⟩, (cgbClaims_false_iff s.view m a).mpr hfree⟩, hmode⟩
  exact ram_access v (resolve_oam s.view m a hrow) rfl (oamOff_lt s.view m a hrow s.config.ramBanks)

/-- Settles O40: the row of `0xFFFF`; `ie` is read and written whole. -/
theorem interruptEnable : Obligations.InterruptEnable := by
  intro s v m hfree
  have hrow : Table.ie s.view m 0xFFFF = true :=
    (row_iff s.view m 0xFFFF 0xFFFF 0xFFFF).mpr
      ⟨by decide, (cgbClaims_false_iff s.view m 0xFFFF).mpr hfree⟩
  have hres := resolve_ie s.view m 0xFFFF hrow
  exact ⟨select_rd s.view m _ _ hres, rfl, select_wr s.view m _ v _ hres, rfl⟩

/-! ### Reads leave no trace -/

/-- Two states agree in all that a read of a region the block owns looks at: not the banking mode,
the RAM gate, the latch, the `hdma` bytes, nor an undocumented byte that no read gives back (rules
R185, R186, R202, R242). -/
structure ReadsAlike (s s' : State) : Prop where
  params : s'.params = s.params
  config : s'.config = s.config
  romBank : s'.block.romBank = s.block.romBank
  vbk : s'.block.vbk = s.block.vbk
  svbk : s'.block.svbk = s.block.svbk
  undoc : ∀ u, s'.block.undoc.readBack s'.params u = s.block.undoc.readBack s.params u
  ie : s'.block.ie = s.block.ie
  rams : s'.block.rams = s.block.rams

/-- Where a read answers in `s` it appends a byte, the same one in every state that reads alike. -/
def AnswersAlike (read : State → Result) (s : State) : Prop :=
  ∀ t, read s = .next t →
    ∃ b, t = s.returning b ∧ ∀ s', ReadsAlike s s' → read s' = .next (s'.returning b)

theorem readByte_answersAlike {s : State} (f : State → Byte)
    (hf : ∀ s', ReadsAlike s s' → f s' = f s) : AnswersAlike (fun u => readByte (f u) u) s := by
  intro t ht
  refine ⟨f s, (readByte_next _ _ _).mp ht, fun s' h => ?_⟩
  rw [← hf s' h]
  rfl

theorem readCell_answersAlike {s : State} (x : RamArray) (a : Addr) (k : State → Nat)
    (hk : ∀ s', ReadsAlike s s' → k s' = k s) : AnswersAlike (fun u => readCell x (k u) a u) s := by
  intro t ht
  obtain ⟨hlt, ht⟩ := (readCell_next _ _ _ _ _).mp ht
  refine ⟨s.cell x (k s), ht, fun s' h => ?_⟩
  have hcell : s'.cell x (k s) = s.cell x (k s) := by rw [State.cell, h.rams, State.cell]
  rw [← hcell, ← hk s' h]
  exact readCell_of_lt x (k s') a s' (by rw [hk s' h, h.config]; exact hlt)

/-- A ROM read depends on the image and on `romBank` (rules R237, R238, R242). -/
theorem mbc1Read_alike {s s' : State} (h : ReadsAlike s s') (a : Addr) :
    mbc1Read a s' = mbc1Read a s := by
  rw [mbc1Read, h.config, h.romBank, mbc1Read]

/-- The read of a region of the block's own appends a byte that `ReadsAlike` states share. -/
theorem regionRead_answersAlike {r : Region} (hr : r.leaf = none) (a : Addr) (s : State) :
    AnswersAlike (regionRead r a) s := by
  cases r with
  | unacc => exact readByte_answersAlike (·.params.sentinelValue) fun s' h => by rw [h.params]
  | bootReg => exact readByte_answersAlike (·.params.bootRegRead) fun s' h => by rw [h.params]
  | empty0d | empty1 | hdma => exact readByte_answersAlike (fun _ => _) fun _ _ => rfl
  | cart => exact readByte_answersAlike (mbc1Read a) fun s' h => mbc1Read_alike h a
  | undoc u =>
    exact readByte_answersAlike (fun s => s.block.undoc.readBack s.params u) fun s' h => h.undoc u
  | ie => exact readByte_answersAlike (·.block.ie) fun s' h => h.ie
  | vramSel =>
    exact readByte_answersAlike (fun s => vramSelReadBack s.params s.block.vbk)
      fun s' h => by rw [h.params, h.vbk]
  | wramSel =>
    exact readByte_answersAlike (fun s => wramSelReadBack s.params s.block.svbk)
      fun s' h => by rw [h.params, h.svbk]
  | vram | extRam | iram | wram | oam | wave | hram =>
    exact readCell_answersAlike _ a (fun _ => _) fun _ _ => rfl
  | empty0c off =>
    exact readCell_answersAlike .empty0 a (fun s => empty0Fold s.params.empty0FoldPeriod off)
      fun s' h => by rw [h.params]
  | bootRom off =>
    intro t ht
    cases hb : bootByte s.config off with
    | none =>
      simp only [regionRead, hb] at ht
      exact absurd ht (raiseFault_next _ _)
    | some b =>
      simp only [regionRead, hb, readByte_next] at ht
      refine ⟨b, ht, fun s' h => ?_⟩
      simp only [regionRead, h.config, hb, readByte]
  | ioPort | speed | infrared | bgpi | bgpd | obpi | obpd | hdma5 => cases hr

/-- The read of a leaf's region is forwarded to that leaf (rules R206, R208). -/
theorem regionRead_leaf {r : Region} {leaf : Config.Leaf} (h : r.leaf = some leaf) (a : Addr)
    (s : State) : regionRead r a s = extRead leaf a s := by
  cases r <;> cases h <;> rfl

/-- Settles O54: an own region answers alike after the byte was appended; a leaf's read is
`extRead`. -/
theorem readsHaveNoSideEffect : Obligations.ReadsHaveNoSideEffect := by
  intro s a m r hv hr
  refine ⟨fun hown => ?_, fun leaf hleaf => ⟨?_, _, rfl, rfl, rfl, rfl, rfl⟩⟩
  · obtain ⟨t, ht⟩ := regionRead_completes hv hr
    obtain ⟨b, rfl, halike⟩ := regionRead_answersAlike hown a s t ht
    have hsame : ReadsAlike s (s.returning b) :=
      ⟨rfl, rfl, rfl, rfl, rfl, fun _ => rfl, rfl, rfl⟩
    exact ⟨b, (step_rd hr).trans ht, (step_rd (s := s.returning b) hr).trans (halike _ hsame)⟩
  · rw [step_rd hr, regionRead_leaf hleaf]

/-- Settles O59: no resolution and no read of an own region looks at the six bytes. -/
theorem hiddenBytesAreNeverRead : Obligations.HiddenBytesAreNeverRead := by
  intro s h x y a m r hide s' hr
  have hr' : resolve s'.view m a = some r := hr
  have hsame : ReadsAlike s s' :=
    ⟨rfl, rfl, rfl, rfl, rfl, fun u => by cases u <;> rfl, rfl, rfl⟩
  refine ⟨hr', fun hown t ht => ?_, fun leaf hleaf => ⟨?_, ?_⟩⟩
  · rw [step_rd hr] at ht
    obtain ⟨b, rfl, halike⟩ := regionRead_answersAlike hown a s t ht
    rw [step_rd hr', halike s' hsame]
    rfl
  · rw [step_rd hr, regionRead_leaf hleaf]
  · rw [step_rd hr', regionRead_leaf hleaf]

/-- The banking mode is no part of resolution (rule R75). -/
theorem resolve_bankingMode (v : View) (b : BankingMode) (m : Snapshot) (a : Addr) :
    resolve { v with bankingMode := b } m a = resolve v m a := rfl

/-- Settles O60: neither resolution nor a read looks at the mode; a leaf's answer depends on the
counter, the leaf and the address. -/
theorem bankingModeNeverAffectsReads : Obligations.BankingModeNeverAffectsReads := by
  intro s t b a m h
  obtain ⟨r, hr⟩ := resolve_total s.view m a
  have hr' : resolve (s.withBlock { s.block with bankingMode := b }).view m a = some r :=
    (resolve_bankingMode s.view b m a).trans hr
  rw [step_rd hr] at h
  rw [step_rd hr']
  cases hleaf : r.leaf with
  | none =>
    obtain ⟨c, rfl, halike⟩ := regionRead_answersAlike hleaf a s t h
    exact halike _ ⟨rfl, rfl, rfl, rfl, rfl, fun _ => rfl, rfl, rfl⟩
  | some leaf =>
    rw [regionRead_leaf hleaf, extRead_next] at h
    rw [regionRead_leaf hleaf, h]
    rfl

/-! ### The boot latch -/

/-- With the latch set no overlay covers an address and `0xFF50` is no register (rule R308). -/
theorem not_bootRom_of_bootOff {s : State} (hb : s.block.bootOff = true) (m : Snapshot) (a : Addr)
    (off : Nat) : resolve s.view m a ≠ some (.bootRom off) := by
  intro h
  have hcovers := ((bootRom_iff _ _ _).mp (resolve_inv _ _ _ _ h).1).2.2
  have hoff : overlayCovers s.view m a = false :=
    (overlayCovers_eq_false s m a).mpr (.inr (.inl hb))
  rw [hoff] at hcovers
  cases hcovers

theorem not_bootReg_of_bootOff {s : State} (hb : s.block.bootOff = true) (m : Snapshot) (a : Addr) :
    resolve s.view m a ≠ some .bootReg := by
  intro h
  have hoff : s.block.bootOff = false := (bootReg_row (resolve_inv _ _ _ _ h)).2.2
  rw [hb] at hoff
  cases hoff

/-- With the latch set a read of the fixed window is the image's byte, `0xFF` past it (rules R237,
R239, R308). -/
theorem step_rd_rom0_of_bootOff {s : State} {m : Snapshot} {a : Addr} (hb : s.block.bootOff = true)
    (ha : a.toNat ≤ 0x3FFF) (hfree : s.params.Free m a) :
    step (s.present (.rd a m)) = .next (s.returning ((s.config.rom[a.toNat]?).getD 0xFF)) := by
  have hrow : Table.cart s.view m a 0x0000 0x3FFF = true :=
    (cart_iff _ _ _ _ _ (by omega)).mpr ⟨⟨Nat.zero_le _, ha⟩,
      (cgbClaims_false_iff s.view m a).mpr hfree,
      (overlayCovers_eq_false s m a).mpr (.inr (.inl hb))⟩
  rw [step_rd (resolve_cart s.view m a _ _ (by omega) hrow), regionRead, mbc1Read_rom0 s ha]
  rfl

/-- Settles O42: the latch is kept by `bootOff_of_exec`, and with it set resolution passes over the
overlay and the boot register. -/
theorem bootLatch : Obligations.BootLatch := by
  intro s a v m hv
  refine ⟨fun h1 => ?_, fun h0 => ?_, fun hb => ?_⟩
  · exact if_pos h1
  · exact if_neg (ne_true_of_eq_false h0)
  · have hfiller : resolve s.view m 0xFF50 = some (.empty1 4) := by
      rw [resolve_ff50 hv m, if_neg]
      exact fun h => not_bootReg_of_bootOff hb m 0xFF50 (by rw [resolve_ff50 hv m, if_pos h])
    exact ⟨fun i t => bootOff_of_exec hb, not_bootRom_of_bootOff hb m a,
      not_bootReg_of_bootOff hb m a, step_rd_rom0_of_bootOff hb (by decide),
      select_wr s.view m _ v _ hfiller, step_wr v hfiller⟩

/-- What a run of transactions keeps once the latch is set. -/
structure LatchKept (s t : State) : Prop where
  onlyTransactions : t.OnlyTransactions
  bootOff : t.block.bootOff = true
  params : t.params = s.params
  config : t.config = s.config

theorem step_keeps_latch {s t : State} (hb : s.block.bootOff = true) (ho : s.OnlyTransactions)
    (h : step s = .next t) : LatchKept s t := by
  obtain ⟨-, rfl⟩ | ⟨i, hi⟩ | ⟨c, init, save, hmem, -⟩ := step_cases h
  · exact ⟨ho, hb, rfl, rfl⟩
  · obtain ⟨hparams, hconfig, hinputs⟩ := exec_frame hi
    refine ⟨fun j hj => ho j ?_, bootOff_of_exec (s := s.taken) hb hi, hparams, hconfig⟩
    rw [hinputs] at hj
    exact List.mem_of_mem_tail hj
  · obtain ⟨x, hx⟩ := ho _ hmem
    cases hx

theorem run_succ_next {M : Host.Core} {s t : M.State} {n : Nat} (h : M.run (n + 1) s = .next t) :
    ∃ u, M.step s = .next u ∧ M.run n u = .next t := by
  rw [Host.Core.run] at h
  split at h
  · next u hu => exact ⟨u, hu, h⟩
  · cases h
  · cases h

theorem run_keeps_latch {s t : State} {n : Nat} (hb : s.block.bootOff = true)
    (ho : s.OnlyTransactions) (h : core.run n s = .next t) : LatchKept s t := by
  induction n generalizing s with
  | zero =>
    cases h
    exact ⟨ho, hb, rfl, rfl⟩
  | succ n ih =>
    obtain ⟨u, hu, hrun⟩ := run_succ_next (M := core) h
    have hstep := step_keeps_latch hb ho hu
    have hrest := ih hstep.bootOff hstep.onlyTransactions hrun
    exact ⟨hrest.onlyTransactions, hrest.bootOff, hrest.params.trans hstep.params,
      hrest.config.trans hstep.config⟩

/-- Settles O43: the run keeps the latch, the configuration and the parameters, so the read at its
end is the fixed window's. -/
theorem overlayNeverReturns : Obligations.OverlayNeverReturns := by
  intro s t n a m hb ho hrun ha hfree
  have hkept := run_keeps_latch hb ho hrun
  refine ⟨hkept.bootOff, ?_⟩
  rw [step_rd_rom0_of_bootOff hkept.bootOff ha (hkept.params ▸ hfree), hkept.config]

end Sys2Proof.Machine

/-! PROOFS. What a step is: the presented word or transaction it runs, the port's two access
primitives, a run that takes every input; then which addresses reach one RAM cell. -/

namespace Sys2Proof.Machine

/-! ### The port's access primitives -/

theorem memRead_of_resolve {s : State} {m : Snapshot} {a : Addr} {r : Region}
    (h : resolve s.view m a = some r) : memRead a m s = regionRead r a s := by
  rw [memRead, h]

theorem memWrite_of_resolve {s : State} {m : Snapshot} {a : Addr} {r : Region} (v : Byte)
    (h : resolve s.view m a = some r) : memWrite a v m s = regionWrite r a v s := by
  rw [memWrite, h]

/-- A `RD` is `MemRead` (rule R62). -/
theorem step_rd_eq_memRead (s : State) (a : Addr) (m : Snapshot) :
    step (s.present (.rd a m)) = memRead a m s := by
  obtain ⟨r, hr⟩ := resolve_total s.view m a
  rw [step_rd hr, memRead_of_resolve hr]

/-- A `WR` is `MemWrite` (rule R63). -/
theorem step_wr_eq_memWrite (s : State) (a : Addr) (v : Byte) (m : Snapshot) :
    step (s.present (.wr a v m)) = memWrite a v m s := by
  obtain ⟨r, hr⟩ := resolve_total s.view m a
  rw [step_wr v hr, memWrite_of_resolve v hr]

/-- Settles O10: some region takes every address, and its instruction is the region's own read or
write; a `RD` is no write, so it leaves the block. -/
theorem portIsMemReadAndMemWrite : Obligations.PortIsMemReadAndMemWrite := by
  intro s a v m
  refine ⟨step_rd_eq_memRead s a m, step_wr_eq_memWrite s a v m, fun t ht => ?_⟩
  rw [← step_rd_eq_memRead] at ht
  exact step_block_of_not_wr ht fun _ _ _ h => nomatch h

/-! ### A run takes every input -/

theorem select_total (v : View) (t : Transaction) : ∃ i, select v t = some i := by
  cases t with
  | rd a m =>
    obtain ⟨r, hr⟩ := resolve_total v m a
    exact ⟨_, select_rd v m a r hr⟩
  | wr a w m =>
    obtain ⟨r, hr⟩ := resolve_total v m a
    exact ⟨_, select_wr v m a w r hr⟩
  | step n => exact ⟨_, rfl⟩
  | stept n => exact ⟨_, rfl⟩

theorem runTransaction_completes {s : State} (hv : s.params.Valid) (t : Transaction) :
    ∃ u, runTransaction t s = .next u := by
  obtain ⟨i, hi⟩ := select_total s.view t
  rw [runTransaction_of_select s t i hi]
  exact exec_completes s hv i (wf_of_select s.view t i hi).1

/-- No step stops (rules R146, R268, R280). -/
theorem step_completes {s : State} (hv : s.params.Valid) : ∃ t, step s = .next t := by
  unfold step
  split
  · exact ⟨s, rfl⟩
  · next t rest hin => exact runTransaction_completes (s := s.taken) hv t
  · next c init save rest hin => exact ⟨_, rfl⟩

/-- A step takes the input it runs and no other (rules R66, R268). -/
theorem step_inputs {s t : State} (h : step s = .next t) : t.inputs = s.inputs.tail := by
  obtain ⟨hin, rfl⟩ | ⟨i, hi⟩ | ⟨c, init, save, -, rfl⟩ := step_cases h
  · rw [hin, List.tail_nil]
  · exact (exec_frame hi).2.2
  · rfl

theorem run_succ_of_step {M : Host.Core} {s t : M.State} {n : Nat} (h : M.step s = .next t) :
    M.run (n + 1) s = M.run n t := by
  rw [Host.Core.run, h]

/-- A run of at least as many steps as there are inputs takes them all: each step completes, takes
one input and keeps the parameters. -/
theorem run_takes_inputs {s : State} {n : Nat} (hv : s.params.Valid) (hn : s.inputs.length ≤ n) :
    ∃ t, core.run n s = .next t ∧ t.inputs = [] := by
  induction n generalizing s with
  | zero => exact ⟨s, rfl, List.eq_nil_of_length_eq_zero (Nat.le_zero.mp hn)⟩
  | succ n ih =>
    obtain ⟨u, hu⟩ := step_completes hv
    have hparams : u.params = s.params := (stepKeepsInvariant s u hu).2
    have hlen : u.inputs.length ≤ n := by
      rw [step_inputs hu, List.length_tail]
      omega
    rw [run_succ_of_step (M := core) hu]
    exact ih (hparams ▸ hv) hlen

/-- Settles O12: `run_takes_inputs` at the number of inputs. -/
theorem runTakesEveryInput : Obligations.RunTakesEveryInput :=
  fun _ hv => run_takes_inputs hv le_rfl

/-! ### A step runs the decoded instruction -/

/-- A word decodes by its record and the record's instruction (rules R90, R106). -/
theorem decode_ok {v : View} {w : RecordWord} {i : Instr} (h : decode v w = .ok i) :
    ∃ t, decodeRecord v.params w = .ok t ∧ select v t = some i := by
  unfold decode at h
  split at h
  · cases h
  · next t ht =>
    split at h
    · next j hj => exact ⟨t, ht, hj.trans (congrArg some (Except.ok.inj h))⟩
    · cases h

/-- A step on a transaction that selects `i` is `exec i` with the transaction taken (rules R62,
R63). -/
theorem step_of_select {s : State} {t : Transaction} {rest : List Input} {i : Instr}
    (hin : s.inputs = .txn t :: rest) (hi : select s.view t = some i) :
    step s = exec i { s with inputs := rest } := by
  have htaken : s.taken = { s with inputs := rest } := by rw [State.taken, hin, List.tail_cons]
  rw [step_of_inputs s t rest hin, runTransaction_of_select s.taken t i hi, htaken]

theorem presentWord_of_record {s : State} {w : RecordWord} {t : Transaction}
    (h : decodeRecord s.params w = .ok t) : s.presentWord w = s.present t := by
  rw [State.presentWord, h]

/-- A word presented next is the transaction of its record. -/
theorem step_presentWord {s : State} {w : RecordWord} {i : Instr} (h : decode s.view w = .ok i) :
    step (s.presentWord w) = exec i s := by
  obtain ⟨t, ht, hi⟩ := decode_ok h
  rw [presentWord_of_record ht, step_of_select (s.present_inputs t) hi]
  rfl

theorem step_of_no_input {s : State} (h : s.inputs = []) : step s = .next s := by
  rw [step, h]

/-- Settles O9: `step_of_select`, and a word's transaction is its record's; a table word is its
record word. -/
theorem stepRunsDecodedInstruction : Obligations.StepRunsDecodedInstruction :=
  ⟨fun _ _ => ⟨fun _ _ => step_of_select, fun _ => step_presentWord, fun _ _ => step_presentWord⟩,
    fun _ => step_of_no_input⟩

/-! ### Discarded writes -/

/-- Settles O53: a `WR` is its region's write rule, which for the four regions is to ignore it and
for the cartridge the controller's. -/
theorem discardedWritesLeaveNoTrace : Obligations.DiscardedWritesLeaveNoTrace := by
  intro s a v m r hr
  rw [step_wr v hr]
  refine ⟨?_, ?_⟩
  · rintro (rfl | ⟨off, rfl⟩ | ⟨off, rfl⟩ | ⟨off, rfl⟩) <;> rfl
  · rintro ⟨off, rfl⟩
    rfl

/-! ### Which addresses reach a cell -/

/-- The work RAM cell at an offset into the window `0xC000-0xDFFF` or its echo: flat out of CGB
mode, else bank `0` and the selected bank (rules R102, R132 to R135). -/
def State.workRamCell (s : State) (m : Snapshot) (off : Nat) : RamArray × Nat :=
  if m.inCGBMode then
    (.wram, if off < 0x1000 then off else wramBank s.block.svbk * 0x1000 + (off - 0x1000))
  else (.iram, off)

theorem workRamCell_injOn {s : State} {m : Snapshot} {i j : Nat} (hi : i < 0x2000) (hj : j < 0x2000)
    (h : s.workRamCell m i = s.workRamCell m j) : i = j := by
  have hbank := Nat.pos_of_ne_zero (wramBank_ne_zero s.block.svbk)
  unfold State.workRamCell at h
  split at h
  · have h := (Prod.mk.inj h).2
    split at h <;> split at h <;> omega
  · exact (Prod.mk.inj h).2

theorem reaches_of_resolve {s : State} {m : Snapshot} {a : Addr} {r : Region}
    (h : resolve s.view m a = some r) : s.reaches m a = r.cell s.params := by
  rw [State.reaches, h, Option.bind_some]

/-- In CGB mode the upper half of the work RAM window and its echo are the selected bank (rules R133,
R135). -/
theorem reaches_bankedWorkRam {s : State} {m : Snapshot} {a : Addr} (hg : m.inCGBMode = true)
    (hfree : s.params.Free m a)
    (hwin : 0xD000 ≤ a.toNat ∧ a.toNat ≤ 0xDFFF ∨ 0xF000 ≤ a.toNat ∧ a.toNat ≤ 0xFDFF) :
    s.reaches m a = some (.wram, wramBank s.block.svbk * 0x1000 + a.toNat % 0x1000) := by
  apply reaches_of_resolve (r := .wram (wramBank s.block.svbk) (a.toNat % 0x1000))
  apply resolve_wramX
  simp only [Table.wramX, Bool.and_eq_true, Bool.or_eq_true, row_iff, ← or_and_right]
  exact ⟨⟨hwin, (cgbClaims_false_iff s.view m a).mpr hfree⟩, hg⟩

/-- Every address of the work RAM window and its echo reaches the cell of its offset (rules R132 to
R135). -/
theorem reaches_workRam {s : State} {m : Snapshot} {a : Addr} (hfree : s.params.Free m a)
    (hlo : 0xC000 ≤ a.toNat) (hhi : a.toNat ≤ 0xFDFF) :
    s.reaches m a = some (s.workRamCell m (a.toNat % 0x2000)) := by
  have hclaims : Table.cgbClaims s.view m a = false := (cgbClaims_false_iff s.view m a).mpr hfree
  unfold State.workRamCell
  cases hg : m.inCGBMode with
  | false =>
    have hrow : Table.iram s.view m a = true := by
      simp only [Table.iram, Bool.and_eq_true, Bool.or_eq_true, row_iff, Bool.not_eq_true',
        ← or_and_right]
      exact ⟨⟨by omega, hclaims⟩, hg⟩
    exact reaches_of_resolve (resolve_iram s.view m a hrow)
  | true =>
    rw [if_pos rfl]
    by_cases hoff : a.toNat % 0x2000 < 0x1000
    · have hrow : Table.wram0 s.view m a = true := by
        simp only [Table.wram0, Bool.and_eq_true, Bool.or_eq_true, row_iff, ← or_and_right]
        exact ⟨⟨by omega, hclaims⟩, hg⟩
      have hcell : 0 * 0x1000 + a.toNat % 0x1000 = a.toNat % 0x2000 := by omega
      rw [reaches_of_resolve (resolve_wram0 s.view m a hrow), if_pos hoff, Region.cell, hcell]
    · have hcell : a.toNat % 0x1000 = a.toNat % 0x2000 - 0x1000 := by omega
      rw [reaches_bankedWorkRam hg hfree (by omega), if_neg hoff, hcell]

/-- On CGB hardware every address of `0xFEA0-0xFEFF` reaches the folded cell (rules R103, R137). -/
theorem reaches_empty0 {s : State} {m : Snapshot} {a : Addr} (hcgb : m.isCGB = true)
    (hfree : s.params.Free m a) (hlo : 0xFEA0 ≤ a.toNat) (hhi : a.toNat ≤ 0xFEFF) :
    s.reaches m a = some (.empty0, empty0Fold s.params.empty0FoldPeriod (a.toNat - 0xFEA0)) := by
  apply reaches_of_resolve (r := .empty0c (a.toNat - 0xFEA0))
  apply resolve_empty0c
  rw [Table.empty0c, Bool.and_eq_true, row_iff]
  exact ⟨⟨⟨hlo, hhi⟩, (cgbClaims_false_iff s.view m a).mpr hfree⟩, hcgb⟩

/-- Cell `k` of array `x` belongs to address number `n`: the address is not below the array's window,
nor past it where two of the window's addresses can share a cell, and the cell is the one of its
offset there (rules R49, R127 to R143). -/
def State.Belongs (s : State) (m : Snapshot) (n : Nat) (x : RamArray) (k : Nat) : Prop :=
  match x with
  | .vram => 0x8000 ≤ n ∧ k = vramBank m s.block.vbk * 0x2000 + (n - 0x8000)
  | .extRam => 0xA000 ≤ n ∧ k = s.block.ramBankSel.toNat * 0x2000 + (n - 0xA000)
  | .iram | .wram => 0xC000 ≤ n ∧ n ≤ 0xFDFF ∧ (x, k) = s.workRamCell m (n % 0x2000)
  | .oam => 0xFE00 ≤ n ∧ k = n - 0xFE00
  | .empty0 => m.isCGB = true ∧ 0xFEA0 ≤ n ∧ n ≤ 0xFEFF
      ∧ k = empty0Fold s.params.empty0FoldPeriod (n - 0xFEA0)
  | .wave => 0xFF30 ≤ n ∧ k = n - 0xFF30
  | .hram => 0xFF80 ≤ n ∧ k = n - 0xFF80

/-- An address that reaches a cell is off step 1 and the cell belongs to it. -/
theorem belongs_of_reaches {s : State} {m : Snapshot} {a : Addr} {x : RamArray} {k : Nat}
    (h : s.reaches m a = some (x, k)) : s.params.Free m a ∧ s.Belongs m a.toNat x k := by
  obtain ⟨r, hr, hcell⟩ := region_of_reaches h
  have hrule := resolve_inv s.view m a r hr
  have hfree : Table.cgbClaims s.view m a = false → s.params.Free m a :=
    (cgbClaims_false_iff s.view m a).mp
  have workRam (hf : s.params.Free m a) (hlo : 0xC000 ≤ a.toNat) (hhi : a.toNat ≤ 0xFDFF) :
      0xC000 ≤ a.toNat ∧ a.toNat ≤ 0xFDFF ∧ (x, k) = s.workRamCell m (a.toNat % 0x2000) :=
    ⟨hlo, hhi, Option.some.inj (h.symm.trans (reaches_workRam hf hlo hhi))⟩
  cases r with
  | vram bank off | extRam bank off =>
    cases hcell
    obtain ⟨hrow, hbank, hoff⟩ := hrule
    simp only [Table.vram, Table.extRam, Bool.and_eq_true, row_iff] at hrow
    exact ⟨hfree hrow.1.2, hrow.1.1.1, by rw [hbank, hoff]; rfl⟩
  | iram off =>
    cases hcell
    obtain ⟨hrow, -⟩ := hrule
    simp only [Table.iram, Bool.and_eq_true, Bool.or_eq_true, row_iff, ← or_and_right] at hrow
    obtain ⟨⟨hwin, hclaims⟩, -⟩ := hrow
    exact ⟨hfree hclaims, workRam (hfree hclaims) (by omega) (by omega)⟩
  | wram bank off =>
    cases hcell
    obtain ⟨-, ⟨hrow, -⟩ | ⟨hrow, -⟩⟩ := hrule
    all_goals
      simp only [Table.wram0, Table.wramX, Bool.and_eq_true, Bool.or_eq_true, row_iff,
        ← or_and_right] at hrow
      obtain ⟨⟨hwin, hclaims⟩, -⟩ := hrow
      exact ⟨hfree hclaims, workRam (hfree hclaims) (by omega) (by omega)⟩
  | oam off =>
    cases hcell
    obtain ⟨hrow, hoff⟩ := hrule
    simp only [Table.oam, Bool.and_eq_true, row_iff] at hrow
    exact ⟨hfree hrow.1.2, hrow.1.1.1, hoff⟩
  | empty0c off =>
    cases hcell
    obtain ⟨hrow, hoff⟩ := hrule
    simp only [Table.empty0c, Bool.and_eq_true, row_iff] at hrow
    exact ⟨hfree hrow.1.2, hrow.2, hrow.1.1.1, hrow.1.1.2, by rw [hoff]⟩
  | wave off | hram off =>
    cases hcell
    obtain ⟨hrow, hoff⟩ := hrule
    obtain ⟨hwin, hclaims⟩ := (row_iff _ _ _ _ _).mp hrow
    exact ⟨hfree hclaims, hwin.1, hoff⟩
  | _ => cases hcell

/-- Below `0x20` the fold is the identity; from there on offsets share a cell by their residue (rule
R103). -/
theorem empty0Fold_eq_iff {period i j : Nat} (hij : i < j) :
    empty0Fold period i = empty0Fold period j ↔
      0x20 ≤ i ∧ (i - 0x20) % period = (j - 0x20) % period := by
  unfold empty0Fold
  split
  · split <;> omega
  · rw [if_neg (by omega)]
    omega

/-- Two addresses a cell belongs to are one, echoes of each other, or alike under the fold. -/
theorem echo_or_fold_of_belongs {s : State} {m : Snapshot} {a b : Nat} {x : RamArray} {k : Nat}
    (hab : a < b) (ha : s.Belongs m a x k) (hb : s.Belongs m b x k) :
    (0xC000 ≤ a ∧ a ≤ 0xDDFF ∧ b = a + 0x2000)
    ∨ (m.isCGB = true ∧ 0xFEC0 ≤ a ∧ b ≤ 0xFEFF
      ∧ (a - 0xFEC0) % s.params.empty0FoldPeriod = (b - 0xFEC0) % s.params.empty0FoldPeriod) := by
  cases x with
  | vram | extRam | oam | wave | hram =>
    obtain ⟨hlo, hk⟩ := ha
    obtain ⟨-, hk'⟩ := hb
    omega
  | iram | wram =>
    obtain ⟨hlo, -, hk⟩ := ha
    obtain ⟨-, hhi, hk'⟩ := hb
    have hoff : a % 0x2000 = b % 0x2000 :=
      workRamCell_injOn (by omega) (by omega) (hk.symm.trans hk')
    left
    omega
  | empty0 =>
    obtain ⟨hcgb, hlo, -, hk⟩ := ha
    obtain ⟨-, -, hhi, hk'⟩ := hb
    obtain ⟨hfold, hres⟩ := (empty0Fold_eq_iff (by omega)).mp (hk.symm.trans hk')
    rw [Nat.sub_sub, Nat.sub_sub] at hres
    exact .inr ⟨hcgb, by omega, hhi, hres⟩

/-- Rule R102: the raw values `0` and `1` select one bank, all others their own. -/
theorem wramBank_eq_iff (x y : BitVec 3) :
    wramBank x = wramBank y ↔ x = y ∨ (x.toNat ≤ 1 ∧ y.toNat ≤ 1) := by
  revert x y
  decide

/-- Settles O8: a cell's addresses are echoes or alike under the fold (`echo_or_fold_of_belongs`),
and each such pair does reach one cell; banked work RAM moves with `wramBank`. -/
theorem aliasesExactly : Obligations.AliasesExactly := by
  refine ⟨fun s m a b hab => ⟨?_, ?_⟩, fun s x m a hg hfree hwin => ?_⟩
  · rintro ⟨⟨x, k⟩, ha, hb⟩
    obtain ⟨hfa, ha⟩ := belongs_of_reaches ha
    obtain ⟨hfb, hb⟩ := belongs_of_reaches hb
    exact ⟨hfa, hfb, echo_or_fold_of_belongs hab ha hb⟩
  · rintro ⟨hfa, hfb, ⟨hlo, hhi, hecho⟩ | ⟨hcgb, hlo, hhi, hfold⟩⟩
    · refine ⟨_, reaches_workRam hfa hlo (by omega), ?_⟩
      rw [reaches_workRam hfb (by omega) (by omega), hecho, Nat.add_mod_right]
    · have hcell : empty0Fold s.params.empty0FoldPeriod (a.toNat - 0xFEA0)
          = empty0Fold s.params.empty0FoldPeriod (b.toNat - 0xFEA0) := by
        rw [empty0Fold_eq_iff (by omega), Nat.sub_sub, Nat.sub_sub]
        exact ⟨by omega, hfold⟩
      refine ⟨_, reaches_empty0 hcgb hfa (by omega) (by omega), ?_⟩
      rw [reaches_empty0 hcgb hfb (by omega) hhi, hcell]
  · rw [reaches_bankedWorkRam hg hfree hwin,
      reaches_bankedWorkRam (s := s.withBlock { s.block with svbk := x }) hg hfree hwin,
      ← wramBank_eq_iff]
    simp only [State.withBlock_block, Option.some.injEq, Prod.mk.injEq, true_and]
    omega

end Sys2Proof.Machine


/-! PROOFS. Encoding: words and instructions are two readings of one thing, and each transaction is
one instruction; then the controller's windows, its ROM bank register and external RAM. -/

namespace Sys2Proof.Machine

/-! ### Words and instructions -/

/-- A word whose record selects an instruction decodes to it (rules R90, R106). -/
theorem decode_of_select {v : View} {w : RecordWord} {t : Transaction} {i : Instr}
    (ht : decodeRecord v.params w = .ok t) (hi : select v t = some i) : decode v w = .ok i := by
  simp only [decode, ht, hi]

/-- Settles O2: the word's record is the instruction's transaction, which selects it. -/
theorem decodeOfEncode : Obligations.DecodeOfEncode := fun v i hv hwf =>
  decode_of_select (decodeRecord_encodeRecord v.params hv i.transaction) (select_of_wf v hv i hwf)

/-- Settles O3: the instruction is one of the word's record (`wf_of_select`), and the record's own
word is that word. -/
theorem encodeOfDecode : Obligations.EncodeOfDecode := by
  intro v w i hv h
  obtain ⟨t, ht, hi⟩ := decode_ok h
  obtain ⟨hwf, rfl⟩ := wf_of_select v t i hi
  exact ⟨hwf, encodeRecord_decodeRecord v.params hv w i.transaction ht⟩

/-- Settles O4: the instruction is the one the transaction selects, and every well-formed
instruction of that transaction is selected by it. -/
theorem oneInstructionPerTransaction : Obligations.OneInstructionPerTransaction := by
  intro v t hv
  obtain ⟨i, hi⟩ := select_total v t
  refine ⟨i, wf_of_select v t i hi, ?_⟩
  rintro j ⟨hj, rfl⟩
  exact Option.some.inj ((select_of_wf v hv j hj).symm.trans hi)

/-- Settles O1: the ten words evaluated. -/
theorem writtenWordsDecode : Obligations.WrittenWordsDecode := by
  unfold Obligations.WrittenWordsDecode
  decide

/-! ### The controller's windows -/

/-- Below `0x8000`, off step 1 and the overlay, resolution delivers the cartridge (rule R129). -/
theorem resolve_cart_of_uncovered {s : State} {m : Snapshot} {a : Addr} (ha : a.toNat ≤ 0x7FFF)
    (hu : s.Uncovered m a) (hfree : s.params.Free m a) :
    resolve s.view m a = some (.cart a.toNat) :=
  resolve_cart s.view m a 0x0000 0x7FFF le_rfl
    ((cart_iff _ _ _ _ _ le_rfl).mpr ⟨⟨Nat.zero_le _, ha⟩,
      (cgbClaims_false_iff s.view m a).mpr hfree, (overlayCovers_eq_false s m a).mpr hu⟩)

/-- Settles O24: the window is the cartridge's, and each of its four parts is one register. -/
theorem cartridgeWritesSelectRegister : Obligations.CartridgeWritesSelectRegister := by
  intro s a v m ha hu hfree
  rw [select_wr s.view m a v _ (resolve_cart_of_uncovered ha hu hfree)]
  refine congrArg some ?_
  by_cases hramEn : a.toNat < 0x2000
  · rw [if_pos hramEn, writeInstr_ramEn _ _ _ _ _ (by omega)]
  by_cases hromLo : a.toNat < 0x4000
  · rw [if_neg hramEn, if_pos hromLo, writeInstr_romLo _ _ _ _ _ (by omega)]
  by_cases hbankHi : a.toNat < 0x6000
  · rw [if_neg hramEn, if_neg hromLo, if_pos hbankHi, writeInstr_bankHi _ _ _ _ _ (by omega)]
    rfl
  · rw [if_neg hramEn, if_neg hromLo, if_neg hbankHi, writeInstr_mode _ _ _ _ _ (by omega)]

/-- Settles O25: the window is the cartridge's; its two halves are the two reads, which return the
image's byte by definition. -/
theorem cartridgeReads : Obligations.CartridgeReads := by
  intro s a m ha hu hfree
  have hselect := select_rd s.view m a _ (resolve_cart_of_uncovered ha hu hfree)
  refine ⟨fun hlo => ⟨?_, rfl⟩, fun hhi => ⟨?_, rfl⟩⟩
  · rw [hselect, readInstr_rom0 a m _ hlo]
  · rw [hselect, readInstr_romX a m _ hhi]

/-! ### The controller's registers -/

/-- Settles O20: `romLoWrite_toNat`, with the low field as a number. -/
theorem romLoWrite : Obligations.RomLoWrite := fun s _ v _ =>
  ⟨(s.block.romLoWrite v).romBank, by rw [romLoWrite_toNat, lo5_toNat], rfl⟩

/-- Settles O22: the mode is `modeSel` of the byte. -/
theorem modeWrite : Obligations.ModeWrite := by
  intro s a v m
  rw [← modeSel_eq]
  rfl

/-- Low field, then high bits: they stand side by side (rule R99). -/
theorem bankHiRomWrite_romLoWrite_toNat (b : Block) (v w : Byte) :
    ((b.romLoWrite v).bankHiRomWrite w).romBank.toNat = w.toNat % 4 * 32 + (lo5 v).toNat := by
  have hlt := lo5_lt v
  rw [bankHiRomWrite_toNat, romLoWrite_toNat]
  omega

/-- High bits, then low field: they stand side by side (rule R99). -/
theorem romLoWrite_bankHiRomWrite_toNat (b : Block) (v w : Byte) :
    ((b.bankHiRomWrite w).romLoWrite v).romBank.toNat = w.toNat % 4 * 32 + (lo5 v).toNat := by
  rw [romLoWrite_toNat, bankHiRomWrite_toNat]
  omega

/-- The two parts of the ROM bank register can be written in either order (rule R99). -/
theorem romLoWrite_bankHiRomWrite_comm (b : Block) (v w : Byte) :
    (b.bankHiRomWrite w).romLoWrite v = (b.romLoWrite v).bankHiRomWrite w := by
  have hbank : ((b.bankHiRomWrite w).romLoWrite v).romBank
      = ((b.romLoWrite v).bankHiRomWrite w).romBank :=
    BitVec.eq_of_toNat_eq (by
      rw [romLoWrite_bankHiRomWrite_toNat, bankHiRomWrite_romLoWrite_toNat])
  exact congrArg (fun r => { b with romBank := r }) hbank

/-- Settles O26: each write keeps the other's bits, and the two writes commute. -/
theorem splitBankWrite : Obligations.SplitBankWrite := by
  intro s a b v w m m'
  have hlt := lo5_lt v
  refine ⟨((s.block.romLoWrite v).bankHiRomWrite w).romBank, s.withBlock (s.block.romLoWrite v),
    s.withBlock (s.block.bankHiRomWrite w), ?_, rfl, ?_, rfl, rfl, ?_, ?_⟩
  · rw [bankHiRomWrite_romLoWrite_toNat, lo5_toNat]
  · rw [State.withBlock_block, romLoWrite_toNat]
    omega
  · rw [State.withBlock_block, bankHiRomWrite_toNat]
    omega
  · exact congrArg (fun c => Host.Outcome.next (s.withBlock c))
      (romLoWrite_bankHiRomWrite_comm s.block v w)

/-! ### External RAM -/

/-- Settles O32: the row of external RAM, open where the selected bank exists and is enabled. -/
theorem externalRam : Obligations.ExternalRam := by
  intro s a v m k hbank hflag hlo hhi hfree hk
  have hopen : Table.extRamOpen s.view = true := by
    rw [Table.extRamOpen, Bool.and_eq_true, decide_eq_true_eq]
    exact ⟨hbank, hflag⟩
  have hrow : Table.extRam s.view m a = true := by
    rw [Table.extRam, Bool.and_eq_true, row_iff]
    exact ⟨⟨⟨hlo, hhi⟩, (cgbClaims_false_iff s.view m a).mpr hfree⟩, hopen⟩
  rw [hk]
  exact ram_access v (resolve_extRam s.view m a hrow) rfl (extRamPhys_lt s.view m a hrow)

end Sys2Proof.Machine

/-! PROOFS. The bus dispatch: no step stops, a region's index and offset are in range, the boot
overlay, the DMG empty region, wave and high RAM, the filler and the port table, and the gate of
external RAM after its bank and its flag were written. -/

namespace Sys2Proof.Machine

/-! ### No step stops -/

/-- Settles O11: some region takes every address, what is selected is well formed, and every
well-formed instruction completes (`step_completes`). -/
theorem noStepStops : Obligations.NoStepStops := fun _ hv => step_completes hv

/-! ### The ranges of a region's index and offset -/

theorem vramBank_le (m : Snapshot) (vbk : BitVec 1) : vramBank m vbk ≤ 1 := by
  have := vbk.isLt
  unfold vramBank
  split <;> omega

/-- An address of a region's rows gives an index and an offset in the ranges of rule R147. -/
theorem inBounds_of_rule {v : View} {m : Snapshot} {a : Addr} {r : Region} (h : r.rule v m a) :
    r.inBounds v = true := by
  cases r with
  | bootRom off =>
    obtain ⟨hrow, rfl⟩ := h
    simp only [Table.bootRom, Bool.and_eq_true, decide_eq_true_eq] at hrow
    rw [Region.inBounds, decide_eq_true_eq]
    exact hrow.1.2
  | cart off =>
    obtain ⟨hrow, rfl⟩ := h
    obtain ⟨⟨-, hhi⟩, -⟩ := (cart_iff _ _ _ _ _ le_rfl).mp hrow
    rw [Region.inBounds, decide_eq_true_eq]
    exact hhi
  | vram bank off =>
    obtain ⟨hrow, hbank, hoff⟩ := h
    simp only [Table.vram, Bool.and_eq_true, row_iff] at hrow
    rw [Region.inBounds, decide_eq_true_eq]
    exact ⟨hbank ▸ vramBank_le m v.vbk, by omega⟩
  | extRam bank off =>
    obtain ⟨hrow, hbank, hoff⟩ := h
    simp only [Table.extRam, Table.extRamOpen, Bool.and_eq_true, row_iff, decide_eq_true_eq] at hrow
    obtain ⟨hwin, hlt, -⟩ := hrow
    rw [Region.inBounds, decide_eq_true_eq]
    exact ⟨hbank ▸ hlt, by omega⟩
  | iram off =>
    obtain ⟨-, hoff⟩ := h
    rw [Region.inBounds, decide_eq_true_eq]
    omega
  | wram bank off =>
    obtain ⟨hoff, hbank⟩ := h
    have hle : bank ≤ 7 := by
      obtain ⟨-, rfl⟩ | ⟨-, rfl⟩ := hbank
      · exact Nat.zero_le 7
      · exact wramBank_le v.svbk
    rw [Region.inBounds, decide_eq_true_eq]
    exact ⟨hle, by omega⟩
  | oam off | empty0d off | empty0c off | wave off | ioPort index | empty1 off | hram off =>
    obtain ⟨hrow, hoff⟩ := h
    simp only [Table.oam, Table.empty0d, Table.empty0c, Table.wave, Table.ioPort, Table.empty1,
      Table.hram, Bool.and_eq_true, Bool.or_eq_true, row_iff] at hrow
    rw [Region.inBounds, decide_eq_true_eq]
    omega
  | _ => rfl

/-- Settles O5: some region takes the address, under its own rows (`resolve_inv`). -/
theorem resolutionTotalAndInBounds : Obligations.ResolutionTotalAndInBounds := by
  intro v m a
  obtain ⟨r, hr⟩ := resolve_total v m a
  exact ⟨r, hr, inBounds_of_rule (resolve_inv v m a r hr)⟩

/-! ### Rows at a free address -/

/-- A row after step 1 takes every free address of its range (rule R120). -/
theorem row_of_free {s : State} {m : Snapshot} {a : Addr} {lo hi : Nat} (hlo : lo ≤ a.toNat)
    (hhi : a.toNat ≤ hi) (hfree : s.params.Free m a) : Table.row s.view m a lo hi = true :=
  (row_iff s.view m a lo hi).mpr ⟨⟨hlo, hhi⟩, (cgbClaims_false_iff s.view m a).mpr hfree⟩

/-- Settles O30: the overlay covers the address, and the boot ROM has a byte there. -/
theorem bootRomOverlay : Obligations.BootRomOverlay := by
  intro s bytes a v m hactive hoff hrom ha hhole hfree hlt
  have hsize : a.toNat < s.config.bootSize := by
    rw [Config.Cartridge.bootSize, hrom]
    exact hlt
  have hcovered : ¬s.Uncovered m a := by
    rintro (h | h | h | h)
    · exact Bool.false_ne_true (h.symm.trans hactive)
    · exact Bool.false_ne_true (hoff.symm.trans h)
    · omega
    · exact hhole h
  have hcovers : overlayCovers s.view m a = true :=
    Bool.eq_true_of_not_eq_false (mt (overlayCovers_eq_false s m a).mp hcovered)
  have hres := resolve_bootRom s.view m a
    ((bootRom_iff s.view m a).mpr ⟨ha, (cgbClaims_false_iff s.view m a).mpr hfree, hcovers⟩)
  have hbyte : bootByte s.config a.toNat = some bytes[a.toNat] := by
    rw [bootByte, hrom]
    exact List.getElem?_eq_getElem hlt
  refine ⟨select_rd s.view m a _ hres, ?_, select_wr s.view m a v _ hres, rfl⟩
  simp only [exec, execRdBootRom, hbyte, readByte]

/-- Settles O36: the row of the DMG form, in every video mode; its read is a constant. -/
theorem emptyRegionDmg : Obligations.EmptyRegionDmg := by
  intro s a v m hdmg hlo hhi hfree
  have hrow : Table.empty0d s.view m a = true := by
    rw [Table.empty0d, row_of_free hlo hhi hfree, hdmg]
    rfl
  have hres := resolve_empty0d s.view m a hrow
  exact ⟨select_rd s.view m a _ hres, rfl, select_wr s.view m a v _ hres, rfl⟩

/-- Settles O38: the row of wave RAM, which no mode gates. -/
theorem waveRam : Obligations.WaveRam := by
  intro s a v m hlo hhi hfree
  have hrow : Table.wave s.view m a = true := row_of_free hlo hhi hfree
  exact ram_access v (resolve_wave s.view m a hrow) rfl
    (waveOff_lt s.view m a hrow s.config.ramBanks)

/-- Settles O39: the row of high RAM, which no mode gates. -/
theorem highRam : Obligations.HighRam := by
  intro s a v m hlo hhi hfree
  have hrow : Table.hram s.view m a = true := row_of_free hlo hhi hfree
  have hres := resolve_hram s.view m a hrow
  exact ⟨hres, ram_access v hres rfl (hramOff_lt s.view m a hrow s.config.ramBanks)⟩

/-- Settles O50: the two rows of the port table stand around the wave range; both instructions
forward to the entry `a - 0xFF00` by definition. -/
theorem portTable : Obligations.PortTable := by
  rintro s a v m _ hlo hhi hwave hfree rfl
  have hrow : Table.ioPort s.view m a = true := by
    rw [Table.ioPort, Bool.or_eq_true]
    by_cases hlow : a.toNat ≤ 0xFF2F
    · exact .inl (row_of_free hlo hlow hfree)
    · exact .inr (row_of_free (by omega) hhi hfree)
  have hres := resolve_ioPort s.view m a hrow
  exact ⟨hres, select_rd s.view m a _ hres, rfl, select_wr s.view m a v _ hres, rfl⟩

/-! ### The filler -/

theorem mem_undocRegisters_iff (n : Nat) :
    n ∈ Config.undocRegisters ↔ n = 0xFF6C ∨ (0xFF72 ≤ n ∧ n ≤ 0xFF77) := by
  simp only [Config.undocRegisters, List.mem_cons, List.not_mem_nil, or_false]
  omega

/-- The filler takes a free address that is neither the boot register nor, on CGB hardware, an
undocumented one (rule R142). -/
theorem empty1_of_free {s : State} {m : Snapshot} {a : Addr} (hlo : 0xFF4C ≤ a.toNat)
    (hhi : a.toNat ≤ 0xFF7F) (hfree : s.params.Free m a)
    (hboot : a.toNat = 0xFF50 → m.bootingActive = false ∨ s.block.bootOff = true)
    (hundoc : m.isCGB = true → a.toNat ≠ 0xFF6C ∧ ¬(0xFF72 ≤ a.toNat ∧ a.toNat ≤ 0xFF77)) :
    Table.empty1 s.view m a = true := by
  have hnoBoot : Table.bootReg s.view m a = false := by
    rw [Bool.eq_false_iff]
    intro h
    obtain ⟨ha, hactive, hoff⟩ := bootReg_row h
    obtain hidle | hset := hboot ha
    · exact Bool.false_ne_true (hidle.symm.trans hactive)
    · exact Bool.false_ne_true (hoff.symm.trans hset)
  have hnoUndoc : (m.isCGB && decide (a.toNat ∈ Config.undocRegisters)) = false := by
    rw [Bool.eq_false_iff, Ne, Bool.and_eq_true, decide_eq_true_eq, mem_undocRegisters_iff]
    rintro ⟨hcgb, hmem⟩
    obtain ⟨hne, hnot⟩ := hundoc hcgb
    exact hmem.elim hne hnot
  rw [Table.empty1, row_of_free hlo hhi hfree, hnoBoot, hnoUndoc]
  rfl

/-- Settles O46: the filler's read is a constant and its write is discarded; its row is
`empty1_of_free`. -/
theorem fillerRegion : Obligations.FillerRegion := by
  refine fun s a v m => ⟨rfl, rfl, fun hlo hhi hfree hboot hundoc => ?_⟩
  have hres := resolve_empty1 s.view m a (empty1_of_free hlo hhi hfree hboot hundoc)
  exact ⟨select_rd s.view m a _ hres, select_wr s.view m a v _ hres⟩

/-! ### The gate of external RAM -/

/-- The flag `WR.RAMEN` sets is that of the bank selected, if it exists (rule R231). -/
theorem ramFlag_ramEnWrite_selected {b : Block} {n k : Nat} (v : Byte)
    (hlen : b.ramEnabled.length = n) (hk : k < n) (hsel : b.ramBankSel.toNat = k) :
    (b.ramEnWrite n v).ramFlag k = ramEnablePred v := by
  rw [Block.ramFlag, ramEnWrite_ramEnabled_getElem? v hlen hk, if_pos hsel.symm, Option.getD_some]

/-- A bank number of two bits is selected as it stands (rule R234). -/
theorem ramSelField_toNat_of_le {w : Byte} (h : w.toNat ≤ 3) : (ramSelField w).toNat = w.toNat := by
  rw [ramSelField_toNat]
  omega

/-- A block with the same memories leaves every cell as it was. -/
theorem cell_withBlock {s : State} {b : Block} (h : b.rams = s.block.rams) (x : RamArray) (k : Nat) :
    (s.withBlock b).cell x k = s.cell x k := by
  rw [State.cell, State.withBlock_block, h, State.cell]

section ExternalRamWindow

variable {s : State} {m : Snapshot} {a : Addr} {bank : Nat}

/-- With the selected bank's flag false a read of the window returns the sentinel (rules R131,
R160). -/
theorem step_rd_extRam_of_shut (hsel : s.block.ramBankSel.toNat = bank)
    (hshut : s.block.ramFlag bank = false) (hlo : 0xA000 ≤ a.toNat) (hhi : a.toNat ≤ 0xBFFF)
    (hfree : s.params.Free m a) :
    step (s.present (.rd a m)) = .next (s.returning s.params.sentinelValue) := by
  subst hsel
  have hrow : Table.unacc s.view m a = true :=
    (unacc_row_iff s m a).mpr (.inr ⟨hfree, .inr (.inl ⟨.inr hshut, hlo, hhi⟩)⟩)
  have hclaims : Table.cgbClaims s.view m a = false := (cgbClaims_false_iff s.view m a).mpr hfree
  exact step_rd (resolve_unacc s.view m a
    (fun h => absurd (hclaims.symm.trans h) Bool.false_ne_true) hrow)

/-- With the selected bank existing and enabled a read of the window returns its byte (rules R131,
R168). -/
theorem step_rd_extRam_of_open (hsel : s.block.ramBankSel.toNat = bank)
    (hbank : bank < s.config.ramBanks) (hopen : s.block.ramFlag bank = true)
    (hlo : 0xA000 ≤ a.toNat) (hhi : a.toNat ≤ 0xBFFF) (hfree : s.params.Free m a) :
    step (s.present (.rd a m)) = .next (s.returning
      (s.cell .extRam (bank * 0x2000 + (a.toNat - 0xA000)))) := by
  subst hsel
  obtain ⟨hselect, hexec, -⟩ := externalRam s a 0 m _ hbank hopen hlo hhi hfree rfl
  rw [step_present, runTransaction_of_select s _ _ hselect, hexec]

end ExternalRamWindow

/-- Settles O28: enabling first sets the flag of the bank selected before, so the new bank keeps its
own; enabling after the selection sets the new bank's. -/
theorem enableAfterSelect : Obligations.EnableAfterSelect := by
  rintro s a b c v w m ⟨-, hlen, -⟩ hv hw hw3 hother hlo hhi hfree
  have hsel : (ramSelField w).toNat = w.toNat := ramSelField_toNat_of_le hw3
  have hpred : ramEnablePred v = true := by
    rw [show v = 0x0A from BitVec.eq_of_toNat_eq hv]
    rfl
  constructor
  · have hkept : (s.block.ramEnWrite s.config.ramBanks v).ramFlag w.toNat
        = s.block.ramFlag w.toNat := ramFlag_ramEnWrite_other _ v hother
    exact ⟨_, _, rfl, rfl, fun hflag =>
      step_rd_extRam_of_shut hsel (hkept.trans hflag) hlo hhi hfree⟩
  · let selected := s.block.bankHiRamWrite w
    let enabled := selected.ramEnWrite s.config.ramBanks v
    have hbank : enabled.ramBankSel.toNat = w.toNat :=
      (congrArg BitVec.toNat (Block.ramEnWrite_ramBankSel selected _ v)).trans hsel
    have hset : enabled.ramFlag w.toNat = true :=
      (ramFlag_ramEnWrite_selected (b := selected) v hlen hw hsel).trans hpred
    refine ⟨s.withBlock selected, s.withBlock enabled, rfl, rfl, ?_⟩
    rw [← cell_withBlock (s := s) (b := enabled) (Block.ramEnWrite_rams selected _ v)]
    exact step_rd_extRam_of_open (s := s.withBlock enabled) hbank hw hset hlo hhi hfree

end Sys2Proof.Machine

/-! PROOFS. The regions: video RAM, the two undocumented registers that read `0x00`, `HDMA1` to
`HDMA4`, and the registers of the external leaves. -/

namespace Sys2Proof.Machine

/-! ### Video RAM -/

/-- No register of step 1 stands in the window of video RAM (rule R8), so it is free in every mode. -/
theorem free_of_vramWindow {p : Config.Params} (hv : p.Valid) (m : Snapshot) {a : Addr}
    (h : 0x8000 ≤ a.toNat ∧ a.toNat ≤ 0x9FFF) : p.Free m a :=
  fun _ => not_mem_cgbAddrs p hv a (.inr (.inr h))

/-- Settles O31: the row of video RAM, open outside `Mode3`; its bank is `vramBank`, that is `vbk` in
CGB mode and `0` otherwise. -/
theorem videoRam : Obligations.VideoRam := by
  intro s a v m k hv hmode hlo hhi hk
  have hrow : Table.vram s.view m a = true := by
    rw [Table.vram, Bool.and_eq_true, decide_eq_true_eq]
    exact ⟨row_of_free hlo hhi (free_of_vramWindow hv m ⟨hlo, hhi⟩), hmode⟩
  rw [hk]
  exact ram_access v (resolve_vram s.view m a hrow) rfl
    (vramPhys_lt s.view m s.block.vbk a hrow s.config.ramBanks)

/-! ### The undocumented registers that read `0x00` -/

/-- `0xFF76` reads `0x00` in every state, so after any write too (rule R186). -/
theorem exec_rdUndocFF76 (a : Addr) (m : Snapshot) (s : State) :
    exec (.rdUndocFF76 a m) s = .next (s.returning 0x00) := rfl

/-- `0xFF77` reads `0x00` in every state, so after any write too (rule R186). -/
theorem exec_rdUndocFF77 (a : Addr) (m : Snapshot) (s : State) :
    exec (.rdUndocFF77 a m) s = .next (s.returning 0x00) := rfl

/-- Settles O45: the two reads hold of every state, the one the write leaves among them; the write
sets its own byte by definition. -/
theorem undocumentedZeroRegisters : Obligations.UndocumentedZeroRegisters := fun s _ a m =>
  ⟨exec_rdUndocFF76 a m s, exec_rdUndocFF77 a m s,
    ⟨_, rfl, rfl, exec_rdUndocFF76 a m _⟩, ⟨_, rfl, rfl, exec_rdUndocFF77 a m _⟩⟩

/-! ### `HDMA1` to `HDMA4` -/

/-- What a write of one of the four registers leaves (rule R203). -/
theorem writeHdma_eq (n : Config.HdmaReg) (v : Byte) (s : State) :
    writeHdma n v s =
      .next { s with block := { s.block with hdma := s.block.hdma.set n v } } := rfl

/-- Settles O48: the four reads are the constant of rule R202, the four writes `writeHdma` of their
register. -/
theorem hdmaRegisters : Obligations.HdmaRegisters := fun s _ v _ =>
  ⟨rfl, rfl, rfl, rfl, writeHdma_eq .hdma1 v s, writeHdma_eq .hdma2 v s, writeHdma_eq .hdma3 v s,
    writeHdma_eq .hdma4 v s⟩

/-! ### The registers of the leaves -/

/-- A forwarded read returns the leaf's answer, records one event and moves the counter; nothing else
changes (rules R206, R210). -/
theorem extRead_eq (leaf : Config.Leaf) (a : Addr) (s : State) :
    extRead leaf a s = .next { s with
      reads := s.reads ++ [Config.leafAnswer s.leafReads leaf a]
      events := s.events ++ [.extRead leaf a]
      leafReads := s.leafReads + 1 } := rfl

/-- A forwarded write records one event; nothing else changes (rules R207, R210). -/
theorem extWrite_eq (leaf : Config.Leaf) (a : Addr) (v : Byte) (s : State) :
    extWrite leaf a v s = .next { s with events := s.events ++ [.extWrite leaf a v] } := rfl

/-- Settles O49: each of the seven reads and writes is the forwarded one of its own leaf. -/
theorem leafRegisters : Obligations.LeafRegisters := fun s a v _ =>
  ⟨extRead_eq .speed a s, extRead_eq .infrared a s, extRead_eq .bgpi a s, extRead_eq .bgpd a s,
    extRead_eq .obpi a s, extRead_eq .obpd a s, extRead_eq .hdma5 a s,
    extWrite_eq .speed a v s, extWrite_eq .infrared a v s, extWrite_eq .bgpi a v s,
    extWrite_eq .bgpd a v s, extWrite_eq .obpi a v s, extWrite_eq .obpd a v s,
    extWrite_eq .hdma5 a v s⟩

end Sys2Proof.Machine

/-! PROOFS. The controller: the high bank bits, addresses above its window, and external RAM through
a save file. -/

namespace Sys2Proof.Machine

/-! ### The high bank bits -/

/-- Settles O21: `bankHiRomWrite_toNat`, and `ramSelField` as a number. -/
theorem bankHiWrites : Obligations.BankHiWrites := fun s _ v _ =>
  ⟨⟨(s.block.bankHiRomWrite v).romBank, bankHiRomWrite_toNat s.block v, rfl⟩,
    ⟨ramSelField v, ramSelField_toNat v, rfl⟩⟩

/-! ### Outside the window -/

/-- An address above a range is not in it. -/
theorem not_within_of_lt {a : Addr} {lo hi : Nat} (h : hi < a.toNat) : ¬within a lo hi = true := by
  rw [within_iff]
  omega

/-- Above `0x7FFF` a read lies in neither ROM window (rule R240). -/
theorem mbc1Read_outside {a : Addr} (s : State) (h : 0x7FFF < a.toNat) : mbc1Read a s = 0xFF := by
  rw [mbc1Read, if_neg (not_within_of_lt (by omega)), if_neg (not_within_of_lt h)]
  rfl

/-- Above `0x7FFF` a write reaches no register of the controller (rule R236). -/
theorem mbc1Write_outside {a : Addr} (v : Byte) (s : State) (h : 0x7FFF < a.toNat) :
    mbc1Write a v s = .fault (.mbcAddr a) := by
  have haccepts : ¬mbc1Accepts a = true := not_within_of_lt h
  rw [mbc1Write, if_neg (not_within_of_lt (by omega)), if_neg (not_within_of_lt (by omega)),
    if_neg (not_within_of_lt (by omega)), if_neg haccepts]
  rfl

/-- The cartridge takes only addresses of the controller's window (rule R129). -/
theorem le_of_resolve_cart {v : View} {m : Snapshot} {a : Addr} {off : Nat}
    (h : resolve v m a = some (.cart off)) : a.toNat ≤ 0x7FFF := by
  obtain ⟨hrow, -⟩ := resolve_inv v m a (.cart off) h
  obtain ⟨⟨-, hhi⟩, -⟩ := (cart_iff v m a 0x0000 0x7FFF le_rfl).mp hrow
  exact hhi

/-- Settles O27: no window of the controller reaches above `0x7FFF`, and the cartridge's row ends
there. -/
theorem controllerOutsideItsWindow : Obligations.ControllerOutsideItsWindow := fun s _ v =>
  ⟨fun h => ⟨mbc1Read_outside s h, mbc1Write_outside v s h⟩, fun _ _ => le_of_resolve_cart⟩

/-! ### External RAM through a save file -/

/-- Byte `k` of a save file is cell `k` of external RAM (rule R303). -/
theorem saveImage_getElem? {s : State} {k : Nat}
    (h : k < RamArray.size s.config.ramBanks .extRam) :
    s.saveImage[k]? = some (s.cell .extRam k) := by
  rw [State.saveImage, List.getElem?_map, List.getElem?_range h, Option.map_some]

/-- After reset with a save file a cell of external RAM holds the file's byte, and `InitMem`'s where
the file is too short (rules R302, R303). -/
theorem cell_extRam_resetOf_save (p : Config.Params) {c : Config.Cartridge} (init : Rams)
    (bytes : List Byte) {k : Nat} (h : k < RamArray.size c.ramBanks .extRam) :
    (State.resetOf p c init (some bytes)).cell .extRam k
      = (bytes[k]?).getD (init.extRam.read k) :=
  (Memory.read_ofCells _ _ k h).trans (Memory.read_ofBytes bytes init.extRam 0 k (Nat.zero_le k))

/-- Settles O19: cell by cell, the file holds the byte of that cell, so `InitMem` is never read; no
bank is enabled after any reset. -/
theorem saveFileRestoresExternalRam : Obligations.SaveFileRestoresExternalRam := by
  intro s p c init hbanks
  refine ⟨?_, ramFlag_reset c.ramBanks init (some s.saveImage)⟩
  have hcell : ∀ k < RamArray.size s.config.ramBanks .extRam,
      (State.resetOf p c init (some s.saveImage)).cell .extRam k = s.cell .extRam k := by
    intro k hk
    rw [cell_extRam_resetOf_save p init s.saveImage (hbanks ▸ hk), saveImage_getElem? hk,
      Option.getD_some]
  calc (State.resetOf p c init (some s.saveImage)).saveImage
      = (List.range (RamArray.size s.config.ramBanks .extRam)).map
          ((State.resetOf p c init (some s.saveImage)).cell .extRam) := by rw [← hbanks]; rfl
    _ = s.saveImage := List.map_congr_left fun k hk => hcell k (List.mem_range.mp hk)

end Sys2Proof.Machine

/-! PROOFS. The system operations: `STEP` and `STEPT`, which forward a cycle count to leaves, and
`REPLACE`, which builds a new block (`43_system_ops.md`). -/

namespace Sys2Proof.Machine

/-! ### Cycle steps -/

/-- A forwarded step records one event; nothing else changes (rule R210). -/
theorem extStep_eq (s : State) (leaf : Config.Leaf) (n : Cycles) :
    s.extStep leaf n = { s with events := s.events ++ [.extStep leaf n] } := rfl

/-- Two forwarded steps record their events in the order they are sent. -/
theorem extStep_extStep (s : State) (first second : Config.Leaf) (n k : Cycles) :
    (s.extStep first n).extStep second k =
      { s with events := s.events ++ [.extStep first n, .extStep second k] } := by
  rw [extStep_eq, extStep_eq, List.append_assoc, List.singleton_append]

theorem exec_stept (n : Cycles) (s : State) : exec (.stept n) s = .next (s.extStep .timer n) := rfl

theorem exec_step (n : Cycles) (s : State) :
    exec (.step n) s = .next ((s.extStep .dma n).extStep .hdma5 n) := rfl

/-- Settles O51: `STEPT` is one forwarded step, to the timer leaf. -/
theorem stepBeforeTimer : Obligations.StepBeforeTimer := fun s n => by
  rw [exec_stept, extStep_eq]

/-- Settles O52: `STEP` is two forwarded steps, to the DMA leaf and then to the HDMA5 leaf. -/
theorem stepForwardsToEngines : Obligations.StepForwardsToEngines := fun s n => by
  rw [exec_step, extStep_extStep]

/-! ### Replacing the block -/

/-- A step on a `REPLACE` builds the new block on the state with that input taken (rule R266). -/
theorem step_of_replace {s : State} {c : Config.Cartridge} {init : Rams}
    {save : Option (List Byte)} {rest : List Input}
    (hin : s.inputs = .replace c init save :: rest) :
    step s = .next (s.taken.replace c init save) := by
  simp only [step, hin]

/-- Of the old state a replaced one keeps the parameters, what is still presented and the counter of
free values (log entries 4 and 20); the rest is a reset's. -/
theorem replace_eq (s : State) (c : Config.Cartridge) (init : Rams) (save : Option (List Byte)) :
    s.replace c init save =
      { params := s.params, config := c, block := (State.resetOf s.params c init save).block,
        inputs := s.inputs, reads := [], events := [], leafReads := s.leafReads } := rfl

/-- Settles O18: the step replaces the state with the input taken, and taking it leaves the
remaining inputs. -/
theorem replaceBuildsNewBlock : Obligations.ReplaceBuildsNewBlock := by
  intro s c init save rest hin
  have hrest : s.taken.inputs = rest := by rw [State.taken_inputs, hin, List.tail_cons]
  rw [step_of_replace hin, replace_eq, hrest, State.taken_params, State.taken_leafReads]

end Sys2Proof.Machine

/-! PROOFS. The configuration without a boot ROM (rule R275). -/

namespace Sys2Proof.Machine

/-- Without a boot ROM the overlay has no address (rules R6, R275). -/
theorem uncovered_of_noBootRom {s : State} (hrom : s.config.bootRom = none) (m : Snapshot)
    (a : Addr) : s.Uncovered m a := by
  have hsize : s.config.bootSize = 0 := by
    rw [Config.Cartridge.bootSize, hrom, Option.getD_none, List.length_nil]
  exact .inr (.inr (.inl (hsize ▸ Nat.zero_le a.toNat)))

/-- The boot ROM answers only where the overlay is (rule R128). -/
theorem not_bootRom_of_uncovered {s : State} {m : Snapshot} {a : Addr} (hu : s.Uncovered m a)
    (off : Nat) : resolve s.view m a ≠ some (.bootRom off) := by
  intro h
  obtain ⟨hrow, -⟩ := resolve_inv s.view m a (.bootRom off) h
  obtain ⟨-, -, hcovers⟩ := (bootRom_iff s.view m a).mp hrow
  exact Bool.false_ne_true (((overlayCovers_eq_false s m a).mpr hu).symm.trans hcovers)

/-- Settles O7: without a boot ROM every address is uncovered, and `resolve_ff50` does not ask for a
boot ROM. -/
theorem noBootRomIsLegal : Obligations.NoBootRomIsLegal := by
  intro s m a hv hrom
  have hu : s.Uncovered m a := uncovered_of_noBootRom hrom m a
  refine ⟨not_bootRom_of_uncovered hu, fun ha hfree => resolve_cart_of_uncovered ha hu hfree,
    fun hactive hoff => ?_⟩
  rw [resolve_ff50 hv m, if_pos ⟨hactive, hoff⟩]

end Sys2Proof.Machine

/-! PROOFS. Reset: what the memories hold (rules R302, R303) and what the first transactions read
(rule R304). -/

namespace Sys2Proof.Machine

/-! ### Memory after reset -/

/-- Every array at reset is made of `InitMem`'s cells, unless it is the external RAM that a save
file was loaded into (rules R302, R303). -/
theorem get_atReset {x : RamArray} {save : Option (List Byte)} (n : Nat) (init : Rams)
    (h : ∀ bytes, x = .extRam → save = some bytes → False) :
    (Rams.atReset n init save).get x = Memory.ofCells (x.size n) (init.get x) := by
  cases x with
  | extRam =>
    cases save with
    | none => rfl
    | some bytes => exact (h bytes rfl rfl).elim
  | _ => rfl

/-- Settles O16: the save file's cells come before `InitMem`'s in external RAM, and every other array
is made of `InitMem`'s alone. -/
theorem memoryAfterReset : Obligations.MemoryAfterReset := by
  intro p c init save x k hk
  split
  · exact cell_extRam_resetOf_save p init _ hk
  · next hno =>
    calc (State.resetOf p c init save).cell x k
        = ((Rams.atReset c.ramBanks init save).get x).read k := rfl
      _ = (init.get x).read k := by
          rw [get_atReset c.ramBanks init hno, Memory.read_ofCells _ _ _ hk]

/-! ### A presented read -/

section Read

variable {s : State} {m : Snapshot} {a : Addr}

/-- A presented read does what the instruction selected for it does (rules R62, R106). -/
theorem step_rd_of_select {i : Instr} (h : select s.view (.rd a m) = some i) :
    step (s.present (.rd a m)) = exec i s := by
  rw [step_present, runTransaction_of_select s _ _ h]

/-- Off the overlay a read of the fixed window returns the image's byte, `0xFF` past it (rules R237,
R239). -/
theorem step_rd_rom0 (ha : a.toNat ≤ 0x3FFF) (hu : s.Uncovered m a) (hfree : s.params.Free m a) :
    step (s.present (.rd a m)) = .next (s.returning ((s.config.rom[a.toNat]?).getD 0xFF)) := by
  obtain ⟨hselect, hexec⟩ := (cartridgeReads s a m (by omega) hu hfree).1 ha
  rw [step_rd_of_select hselect, hexec]

/-- Off the overlay a read of the switchable window returns a byte of the bank of `romBank`, `0xFF`
past the banks or the image (rules R238, R239). -/
theorem step_rd_romX (ha : 0x4000 ≤ a.toNat ∧ a.toNat ≤ 0x7FFF) (hu : s.Uncovered m a)
    (hfree : s.params.Free m a) :
    step (s.present (.rd a m)) = .next (s.returning
      (if s.config.romBanks ≤ s.block.romBank.toNat then 0xFF
       else (s.config.rom[s.block.romBank.toNat * 0x4000 + (a.toNat - 0x4000)]?).getD 0xFF)) := by
  obtain ⟨hselect, hexec⟩ := (cartridgeReads s a m ha.2 hu hfree).2 ha.1
  rw [step_rd_of_select hselect, hexec]

end Read

/-! ### The first transactions after reset -/

section FirstReads

variable {p : Config.Params} {c : Config.Cartridge} {m : Snapshot} (init : Rams)
  (save : Option (List Byte))

/-- The latch is clear after reset, so while booting the boot ROM answers its first address (rules
R128, R162). -/
theorem step_rd_bootRom_resetOf {b : Byte} {bytes : List Byte} (hfree : p.Free m 0x0000)
    (hrom : c.bootRom = some (b :: bytes)) (hactive : m.bootingActive = true) :
    step ((State.resetOf p c init save).present (.rd 0x0000 m)) =
      .next ((State.resetOf p c init save).returning b) := by
  obtain ⟨hselect, hexec, -⟩ := bootRomOverlay (State.resetOf p c init save) (b :: bytes) 0x0000 0 m
    hactive rfl hrom (by decide) (by decide) hfree (Nat.zero_lt_succ _)
  rw [step_rd_of_select hselect, hexec]
  rfl

/-- Off the overlay the cartridge answers the first address by its first byte (rule R237). -/
theorem step_rd_rom0_resetOf (hfree : p.Free m 0x0000)
    (hoff : c.bootRom = none ∨ m.bootingActive = false) :
    step ((State.resetOf p c init save).present (.rd 0x0000 m)) =
      .next ((State.resetOf p c init save).returning ((c.rom[0]?).getD 0xFF)) := by
  have hu : (State.resetOf p c init save).Uncovered m 0x0000 :=
    hoff.elim (fun hnone => uncovered_of_noBootRom hnone m 0x0000) .inl
  exact step_rd_rom0 (by decide) hu hfree

/-- `romBank` is `1` after reset, so off the overlay `0x4000` shows the first byte of bank 1, and
`0xFF` where there is no such bank (rules R22, R238, decision D14). -/
theorem step_rd_romX_resetOf (hfree : p.Free m 0x4000)
    (hoff : c.bootSize ≤ 0x4000 ∨ m.bootingActive = false) :
    step ((State.resetOf p c init save).present (.rd 0x4000 m)) =
      .next ((State.resetOf p c init save).returning
        (if c.romBanks ≤ 1 then 0xFF else (c.rom[0x4000]?).getD 0xFF)) := by
  have hu : (State.resetOf p c init save).Uncovered m 0x4000 :=
    hoff.elim (fun hsize => .inr (.inr (.inl hsize))) .inl
  have hconfig : (State.resetOf p c init save).config = c := rfl
  have hbank : (State.resetOf p c init save).block.romBank.toNat = 1 := rfl
  have haddr : (0x4000 : Addr).toNat = 0x4000 := rfl
  rw [step_rd_romX (by decide) hu hfree, hconfig, hbank, haddr, Nat.one_mul, Nat.sub_self,
    Nat.add_zero]

/-- No bank is enabled after reset, so the external RAM window is shut (rules R131, R160). -/
theorem step_rd_extRam_resetOf (hfree : p.Free m 0xA000) :
    step ((State.resetOf p c init save).present (.rd 0xA000 m)) =
      .next ((State.resetOf p c init save).returning p.sentinelValue) :=
  step_rd_extRam_of_shut rfl (ramFlag_reset c.ramBanks init save 0) (by decide) (by decide) hfree

/-- `ie` is clear after reset (rule R34). -/
theorem step_rd_ie_resetOf (hfree : p.Free m 0xFFFF) :
    step ((State.resetOf p c init save).present (.rd 0xFFFF m)) =
      .next ((State.resetOf p c init save).returning 0x00) := by
  obtain ⟨hselect, hexec, -⟩ := interruptEnable (State.resetOf p c init save) 0 m hfree
  rw [step_rd_of_select hselect, hexec]
  rfl

end FirstReads

/-- Settles O17: one lemma for each region the first transactions reach; `0x4000` is in bank 1
exactly where there are two banks. -/
theorem firstTransactionsAfterReset : Obligations.FirstTransactionsAfterReset := by
  rintro p c init save m _ rfl
  refine ⟨fun hfree b bytes => step_rd_bootRom_resetOf init save hfree,
    fun hfree b bytes hoff hrom => ?_, fun hfree b hoff hbanks hbyte => ?_,
    fun hfree hoff hbanks => ?_, step_rd_extRam_resetOf init save, step_rd_ie_resetOf init save⟩
  · rw [step_rd_rom0_resetOf init save hfree hoff, hrom, List.getElem?_cons_zero, Option.getD_some]
  · rw [step_rd_romX_resetOf init save hfree hoff, if_neg (by omega), hbyte, Option.getD_some]
  · rw [step_rd_romX_resetOf init save hfree hoff, if_pos hbanks]

end Sys2Proof.Machine
